-- ==== Sys2Proof/Word.lean ====
section
/-! DEFINITION. The one machine word of the block: a byte (00_scope.md R8, 20_memory.md R67). Every other quantity of a
rule is a natural number (R8). -/

namespace Sys2Proof

/-- A byte, `0..255` (R8). -/
abbrev Byte := BitVec 8

end Sys2Proof
end

