-- ==== Sys2Proof/Config.lean ====
section
/-! DEFINITION. The format constants (00_scope.md R5, R6), the two capacities the spec leaves to a model's argument (R7,
D12), and the free values. -/

namespace Sys2Proof

/-- `WINDOW_BITS` (R5). -/
abbrev Config.windowBits : Nat := 11
/-- `LENGTH_BITS` (R5). -/
abbrev Config.lengthBits : Nat := 5
/-- `MIN_MATCH` (R5). -/
abbrev Config.minMatch : Nat := 3
/-- `WINDOW_SIZE` (R5). -/
abbrev Config.windowSize : Nat := 2048
/-- `MAX_MATCH` (R5). -/
abbrev Config.maxMatch : Nat := 34
/-- `BLOCK_TOKENS` (R6). -/
abbrev Config.blockTokens : Nat := 8
/-- `HEADER_BYTES` (R6). -/
abbrev Config.headerBytes : Nat := 4
/-- The number of bytes of `PBUF` (10_state.md R28). -/
abbrev Config.pbufBytes : Nat := 16

/-- The sizes of the two byte spaces (R7, 20_memory.md R63). `SRC_CAP` is at most `2^32 - 1`, which its type says;
`DST_CAP` is any natural number. -/
structure Capacities where
  src : BitVec 32
  dst : Nat
  deriving DecidableEq, Repr, Inhabited

/-- The capacities of the engine that `State.reset` describes: OPEN in the spec (D12, U11), so nothing about them can be
proved. DESIGN CHOICE (log 5), safe. -/
opaque Config.capacities : Capacities

/-- The free values: the `k`-th value drawn, `w` bits wide, for a register that the spec says holds no value while the
machine goes on (R39, R152, U9). DESIGN CHOICE (log 7), safe. -/
opaque Config.freeWord : (w : Nat) → Nat → BitVec w

end Sys2Proof
end

