-- ==== Sys2Proof/Syntax.lean ====
section
/-! DEFINITION. The instructions: one constructor per row of spec/opcode_table.json (30_encoding.md R109), the error
codes an X.FAIL carries, and the places a reader of bytes can stand at. -/

namespace Sys2Proof

/-- The code of an X.FAIL: `ERR` values 1 to 5 (10_state.md R23, 60_exceptions.md R241 to R246). -/
inductive FailCode where
  | header
  | exhausted
  | range
  | window
  | capacity
  deriving DecidableEq, Repr

/-- Where a reader of bytes stands (30_encoding.md R96): the stream is position-driven, no element carries an opcode, so
the place decides which format the next bytes have. `command` is the host's write port of `CMD` (10_state.md R21). -/
inductive Slot where
  | header
  | control
  | literal
  | pair
  | command
  deriving DecidableEq, Repr

/-- The 24 rows of the opcode table. The micro-operations have no operands of their own: they work on the registers. -/
inductive Instr where
  /-- `Header(N)`, format H (R91). -/
  | header (n : Nat)
  /-- `Control(mask)`, format C (R92). -/
  | control (mask : Byte)
  /-- `Literal(b)`, format L (R93). -/
  | literal (b : Byte)
  /-- `Match(offset, length)`, format P (R94). -/
  | matchPair (offset length : Nat)
  /-- A host write of 1 to `CMD` (R221). -/
  | cmdCompress
  /-- A host write of 2 to `CMD` (R222). -/
  | cmdDecompress
  /-- A host write of a reserved code, 0 or 3, to `CMD` (R224). -/
  | cmdReserved (code : BitVec 2)
  /-- R121. -/
  | mStart
  /-- R122. -/
  | mSearch
  /-- R124. -/
  | mExtend
  /-- R151. -/
  | eHeader
  /-- R152. -/
  | eOpen
  /-- R153. -/
  | eLit
  /-- R154. -/
  | eMatch
  /-- R155. -/
  | eClose
  /-- R181. -/
  | dHeader
  /-- R182. -/
  | dCtrl
  /-- R183. -/
  | dEndblock
  /-- R184. -/
  | dLit
  /-- R185. -/
  | dPair
  /-- R187. -/
  | dCopy
  /-- R188. -/
  | dCopyend
  /-- Error entry with a code (R246). -/
  | xFail (code : FailCode)
  /-- Hardware reset (R271). -/
  | reset
  deriving DecidableEq, Repr

end Sys2Proof
end

