-- ==== Sys2Proof/WellFormed.lean ====
section
/-! DEFINITION. Which instructions are well formed: the ranges of the elements' fields (30_encoding.md R91, R94, R98) and of
the reserved command codes (43_commands.md R224). -/

namespace Sys2Proof

/-- The range checks on an instruction's fields. Everything not named here has no field, or one whose type has exactly
the legal values (all 256 control bytes and literals are legal: R92, R93). -/
def Instr.wf : Instr → Bool
  | .header n => decide (n < 2 ^ 32)
  | .matchPair offset length =>
      decide (offset < Config.windowSize) && decide (Config.minMatch ≤ length) && decide (length ≤ Config.maxMatch)
  | .cmdReserved code => decide (code = 0#2 ∨ code = 3#2)
  | .control _ => true
  | .literal _ => true
  | .cmdCompress => true
  | .cmdDecompress => true
  | .mStart => true
  | .mSearch => true
  | .mExtend => true
  | .eHeader => true
  | .eOpen => true
  | .eLit => true
  | .eMatch => true
  | .eClose => true
  | .dHeader => true
  | .dCtrl => true
  | .dEndblock => true
  | .dLit => true
  | .dPair => true
  | .dCopy => true
  | .dCopyend => true
  | .xFail _ => true
  | .reset => true

end Sys2Proof
end

