-- ==== Sys2Proof/Decode.lean ====
section
/-! DEFINITION. Little-endian assembly (00_scope.md R12), the pair's fields (30_encoding.md R98, R99), the decoder from bytes
to instructions and the encoder back (R91 to R94, R96, R110; the command codes of 43_commands.md R221, R222, R224). -/

namespace Sys2Proof

/-- `LE16(b0, b1)` (R12). -/
def le16 (b0 b1 : Byte) : Nat := b0.toNat + 256 * b1.toNat

/-- `LE32(b0, b1, b2, b3)` (R12). -/
def le32 (b0 b1 b2 b3 : Byte) : Nat := b0.toNat + 256 * b1.toNat + 65536 * b2.toNat + 16777216 * b3.toNat

/-- `Bytes16(v)` (R12), for `v < 2^16`; what it is beyond is the model's choice (log 22). -/
def bytes16 (v : Nat) : List Byte := [BitVec.ofNat 8 (v &&& 0xFF), BitVec.ofNat 8 ((v >>> 8) &&& 0xFF)]

/-- `Bytes32(v)` (R12), for `v < 2^32`; what it is beyond is the model's choice (log 22). -/
def bytes32 (v : Nat) : List Byte :=
  [BitVec.ofNat 8 (v &&& 0xFF), BitVec.ofNat 8 ((v >>> 8) &&& 0xFF), BitVec.ofNat 8 ((v >>> 16) &&& 0xFF),
    BitVec.ofNat 8 ((v >>> 24) &&& 0xFF)]

/-- `Pack(offset, length)` (R98): `offset | ((length - MIN_MATCH) << (16 - LENGTH_BITS))`, for offsets up to 2047 and
lengths 3 to 34; what it is beyond is the model's choice (log 22). -/
def packPair (offset length : Nat) : Nat := offset ||| ((length - Config.minMatch) <<< (16 - Config.lengthBits))

/-- The offset field of a pair (R99): `pair & (WINDOW_SIZE - 1)`. -/
def pairOffset (pair : Nat) : Nat := pair &&& (Config.windowSize - 1)

/-- The length a pair stands for (R99): `(pair >> WINDOW_BITS) + MIN_MATCH`. -/
def pairLength (pair : Nat) : Nat := (pair >>> Config.windowBits) + Config.minMatch

/-- The instruction a write of `code` to `CMD` is (R21, R221, R222, R224). -/
def commandOf (code : BitVec 2) : Instr :=
  if code = 1#2 then .cmdCompress else if code = 2#2 then .cmdDecompress else .cmdReserved code

/-- Why bytes do not decode. No bit pattern of a whole element is illegal (R104), so the one reason is that bytes are
missing; the machine's own answer to that is `HEADER` or `EXHAUSTED` (R241, R242). -/
inductive DecodeError where
  /-- Fewer bytes than the element's format has. -/
  | truncated
  deriving DecidableEq, Repr

/-- The instruction at the head of `bytes` when the reader stands at the given place, with the bytes after it. Total; a
byte written to `CMD` has only its two low bits in the register (mask 0x3 of the opcode table). -/
def decode : Slot → List Byte → Except DecodeError (Instr × List Byte)
  | .header, b0 :: b1 :: b2 :: b3 :: rest => .ok (.header (le32 b0 b1 b2 b3), rest)
  | .control, c :: rest => .ok (.control c, rest)
  | .literal, b :: rest => .ok (.literal b, rest)
  | .pair, b0 :: b1 :: rest => .ok (.matchPair (pairOffset (le16 b0 b1)) (pairLength (le16 b0 b1)), rest)
  | .command, b :: rest => .ok (commandOf (BitVec.ofNat 2 b.toNat), rest)
  | _, _ => .error .truncated

/-- How many bytes an instruction at this place has (opcode table, `width_bytes`). -/
def Slot.width : Slot → Nat
  | .header => 4
  | .control => 1
  | .literal => 1
  | .pair => 2
  | .command => 1

/-- The bytes of an instruction and the place they are read at, from the same formats; none for a micro-operation, an
error entry or a reset, which have no encoding (R30, R246, R271). -/
def encode : Instr → Option (Slot × List Byte)
  | .header n => some (.header, bytes32 n)
  | .control mask => some (.control, [mask])
  | .literal b => some (.literal, [b])
  | .matchPair offset length => some (.pair, bytes16 (packPair offset length))
  | .cmdCompress => some (.command, [1#8])
  | .cmdDecompress => some (.command, [2#8])
  | .cmdReserved code => some (.command, [code.setWidth 8])
  | .mStart => none
  | .mSearch => none
  | .mExtend => none
  | .eHeader => none
  | .eOpen => none
  | .eLit => none
  | .eMatch => none
  | .eClose => none
  | .dHeader => none
  | .dCtrl => none
  | .dEndblock => none
  | .dLit => none
  | .dPair => none
  | .dCopy => none
  | .dCopyend => none
  | .xFail _ => none
  | .reset => none

/-- The place at which a table word of `nbits` bits is read. Three formats have 8 bits and no bit tells them apart (R96):
a reset engine is in `HALT`, where the one thing it takes is a write of `CMD`, so an 8-bit word is read there. DESIGN
CHOICE (log 4). -/
def tableSlot (nbits : Nat) : Option Slot :=
  if nbits = 32 then some .header else if nbits = 16 then some .pair else if nbits = 8 then some .command else none

/-- The low `k` bytes of `w`, least significant first: the table numbers bit 0 as the least significant bit of the first
byte, which lies at the lowest address (R12, R64). -/
def lowBytes : Nat → Nat → List Byte
  | 0, _ => []
  | k + 1, w => BitVec.ofNat 8 (w % 256) :: lowBytes k (w / 256)

/-- The instruction the decoder reads from a word numbered as spec/opcode_table.json numbers it. -/
def decodeTableWord (nbits w : Nat) : Option Instr :=
  match tableSlot nbits with
  | none => none
  | some slot =>
    match decode slot (lowBytes slot.width w) with
    | .ok (i, _) => some i
    | .error _ => none

end Sys2Proof
end

