-- ==== Sys2Proof/Machine/State.lean ====
section
/-! DEFINITION. The state of one engine (10_state.md R20 to R30), the reasons a step can stop, and the state after reset
(R38). -/

namespace Sys2Proof.Machine

open Sys2Proof

/-- `STATUS` (R22). -/
inductive Status where
  | idle
  | busy
  | done
  | error
  deriving DecidableEq, Repr

/-- `ERR` (R23). -/
inductive Err where
  | none
  | header
  | exhausted
  | range
  | window
  | capacity
  deriving DecidableEq, Repr

/-- The sequencer phase `PH` (R30): twelve values. -/
inductive Phase where
  | halt
  | cHeader
  | cOpen
  | mStart
  | mSearch
  | mExtend
  | cEmit
  | cClose
  | dHeader
  | dCtrl
  | dToken
  | dCopy
  deriving DecidableEq, Repr

/-- A byte space: the bytes that hold a value, by rising address. An address that is not listed holds no value (R38). -/
abbrev Memory := List Host.Cell

/-- What the host can do in one step (R21, R271, R273). -/
inductive HostMove where
  /-- Nothing: the step is the engine's. -/
  | engine
  /-- Write `CMD` (2 bits, R21). -/
  | cmd (code : BitVec 2)
  /-- Write `SRC_LEN` (32 bits, R21). -/
  | writeSrcLen (v : BitVec 32)
  /-- Write one byte of `SRC` (R61, R273). -/
  | writeSrc (a : Nat) (b : Byte)
  /-- Apply RESET (R271). -/
  | reset
  deriving DecidableEq, Repr

/-- Why the machine stops with a fault. No reachable step of a command of a dutiful host takes one (R40, R71). -/
inductive Fault where
  /-- A read of an `SRC` byte that holds no value: the host set `SRC_LEN` past what it wrote (R40, R273). Raised by
  M.SEARCH, E.LIT, D.HEADER, D.CTRL, D.LIT, D.PAIR. Safe (log 9). -/
  | srcNoValue
  /-- A read of a `DST` byte that holds no value (R40, U1). Raised by D.COPY. Safe (log 9). -/
  | dstNoValue
  /-- A host write at an `SRC` address at or beyond `SRC_CAP`, where there is no byte (R63). Safe (log 13). -/
  | srcAddress
  /-- A `DST` write at an address at or beyond `DST_CAP`, where there is no byte (R63, R71). Raised by D.LIT, D.COPY and
  the element LITERAL. Safe (log 11). -/
  | dstAddress
  /-- An access to `PBUF` at an index above 15 (R28). Raised by E.LIT, E.MATCH, E.CLOSE and their elements. Safe (log 11). -/
  | pbufAddress
  /-- The registers are outside the ranges of R26 and R27 so that R30 selects no micro-operation: a stuck state. Raised
  by the step itself. Safe (log 11). -/
  | nothingSelected
  deriving DecidableEq, Repr

/-- Why a step is refused: the model has no transition for what is asked. -/
inductive Refusal where
  /-- An instruction that has no meaning in this model. Raised by an arm of `exec` only. Safe. -/
  | notModelled (mnemonic : String)
  /-- The instruction is not the one R30 (or the table's selecting condition) selects in this state. Raised by every
  micro-operation and element. Safe (log 1). -/
  | notSelected
  /-- A write of a reserved code to `CMD` while not BUSY (R224, U7). Raised by CMD.RESERVED. Safe (log 12). -/
  | reservedCommand
  /-- `SRC_LEN` above `SRC_CAP` (R221, R222, U12). Raised by CMD.COMPRESS, CMD.DECOMPRESS and the host's write of
  `SRC_LEN`. Safe (log 13). -/
  | srcLenAboveCap
  /-- A host write of `SRC` while BUSY (R274, R277, U5). Raised by the host's write of `SRC`. Safe (log 14). -/
  | srcWriteWhileBusy
  deriving DecidableEq, Repr

/-- The state of one engine (R20). Lengths, cursors and counters are natural numbers (R8); their widths and ranges are in
Safety.lean. -/
structure State where
  /-- `SRC_CAP` and `DST_CAP`: parameters (R7, R20), which no step changes. -/
  caps : Capacities
  status : Status
  err : Err
  srcLen : Nat
  dstLen : Nat
  ph : Phase
  n : Nat
  m : Nat
  r : Nat
  ip : Nat
  op : Nat
  ctrl : Byte
  tok : Nat
  bit : Nat
  plen : Nat
  ws : Nat
  wlen : Nat
  clen : Nat
  found : Bool
  boff : Nat
  blen : Nat
  off : Nat
  len : Nat
  i : Nat
  pbuf : Vector Byte 16
  src : Memory
  dst : Memory
  /-- The host's moves still to come: the model's own (log 2). -/
  host : List HostMove
  /-- How many free values have been drawn: the model's own (log 7). -/
  free : Nat
  deriving DecidableEq, Repr

/-- The state right after RESET (R38, R271). `STATUS`, `ERR`, `PH`, `SRC_LEN`, `DST_LEN` and the two empty byte spaces are the
spec's. The spec gives the working registers and `PBUF` no value: they are 0 here, DESIGN CHOICE (log 6), unsafe. -/
def State.reset : State where
  caps := Config.capacities
  status := .idle
  err := .none
  srcLen := 0
  dstLen := 0
  ph := .halt
  n := 0
  m := 0
  r := 0
  ip := 0
  op := 0
  ctrl := 0#8
  tok := 0
  bit := 0
  plen := 0
  ws := 0
  wlen := 0
  clen := 0
  found := false
  boff := 0
  blen := 0
  off := 0
  len := 0
  i := 0
  pbuf := Vector.replicate 16 0#8
  src := []
  dst := []
  host := []
  free := 0

/-- The outcome of a step of this machine. -/
abbrev Result := Host.Outcome State Fault Refusal

end Sys2Proof.Machine
end

