-- ==== Sys2Proof/Machine/Ops.lean ====
section
/-! DEFINITION. The operations over memory and state that the meanings share: reading and writing a byte space (20_memory.md
R60 to R75), `Append` (R68), the free values a register takes when the spec says it holds no value, completing a command,
and entering an error (60_exceptions.md R246). -/

namespace Sys2Proof.Machine

open Sys2Proof

/-- The canonical form of a byte space: addresses strictly rising. -/
abbrev Memory.wf (m : Memory) : Prop := m.Pairwise fun x y => x.1 < y.1

/-- The byte at an address, or none where no value is held (R67, R38). -/
def Memory.read : Memory → Nat → Option Byte
  | [], _ => none
  | (x, b) :: m, a => if x = a then some b else Memory.read m a

/-- `MemWrite(…:a, 1, b)` (R11): the byte at `a` becomes `b`. -/
def Memory.write : Memory → Nat → Byte → Memory
  | [], a, b => [(a, b)]
  | (x, c) :: m, a, b =>
    if a < x then (a, b) :: (x, c) :: m else if a = x then (a, b) :: m else (x, c) :: Memory.write m a b

/-- The bytes at `a, a + 1, …, a + k - 1`, or none if one of them holds no value. -/
def Memory.range (m : Memory) : Nat → Nat → Option (List Byte)
  | _, 0 => some []
  | a, k + 1 =>
    match m.read a with
    | none => none
    | some b =>
      match Memory.range m (a + 1) k with
      | none => none
      | some bs => some (b :: bs)

/-- The bytes of a list written at `a, a + 1, …` in this order. -/
def Memory.writeAll : Memory → Nat → List Byte → Memory
  | m, _, [] => m
  | m, a, b :: bs => Memory.writeAll (m.write a b) (a + 1) bs

/-- `Append(v)` (R68). It never fails: who uses it has checked that what it appends fits below `DST_CAP`. -/
def append (v : Byte) (s : State) : State :=
  { s with dst := s.dst.write s.dstLen v, dstLen := s.dstLen + 1 }

/-- `Append` of each byte of a list, in this order (R151, R155). -/
def appendAll : List Byte → State → State
  | [], s => s
  | v :: vs, s => appendAll vs (append v s)

/-- `MemWrite(DST:a, 1, v)` and then what the rule does next; `DST` has `DST_CAP` bytes (R63, R71). -/
def storeDst (a : Nat) (v : Byte) (s : State) (next : State → State) : Result :=
  if a < s.caps.dst then .next (next { s with dst := s.dst.write a v }) else .fault .dstAddress

/-- `PBUF[k] <- v` (R28); none where `PBUF` has no byte `k`. -/
def pbufSet (p : Vector Byte 16) (k : Nat) (v : Byte) : Option (Vector Byte 16) :=
  if h : k < 16 then some (p.set k v h) else none

/-- The `k`-th free value from here, `w` bits wide, as a natural number. -/
def State.draw (s : State) (w k : Nat) : Nat := (Config.freeWord w (s.free + k)).toNat

/-- Sixteen free bytes: a `PBUF` of which the spec says that it holds no value (R152, R221). -/
def freePbuf (k : Nat) : Vector Byte 16 :=
  #v[Config.freeWord 8 k, Config.freeWord 8 (k + 1), Config.freeWord 8 (k + 2), Config.freeWord 8 (k + 3),
    Config.freeWord 8 (k + 4), Config.freeWord 8 (k + 5), Config.freeWord 8 (k + 6), Config.freeWord 8 (k + 7),
    Config.freeWord 8 (k + 8), Config.freeWord 8 (k + 9), Config.freeWord 8 (k + 10), Config.freeWord 8 (k + 11),
    Config.freeWord 8 (k + 12), Config.freeWord 8 (k + 13), Config.freeWord 8 (k + 14), Config.freeWord 8 (k + 15)]

/-- Every working register, every `PBUF` byte and every `DST` byte holds no value (R39, R221, R222): the registers and
`PBUF` take free values of their own widths (log 7), `DST` lists nothing (log 10). -/
def forgetWorking (s : State) : State :=
  { s with
    n := s.draw 32 0
    m := s.draw 32 1
    r := s.draw 32 2
    ip := s.draw 32 3
    op := s.draw 32 4
    ctrl := Config.freeWord 8 (s.free + 5)
    tok := s.draw 4 6
    bit := s.draw 4 7
    plen := s.draw 5 8
    ws := s.draw 32 9
    wlen := s.draw 12 10
    clen := s.draw 6 11
    found := Config.freeWord 1 (s.free + 12) == 1#1
    boff := s.draw 11 13
    blen := s.draw 6 14
    off := s.draw 11 15
    len := s.draw 6 16
    i := s.draw 6 17
    pbuf := freePbuf (s.free + 18)
    dst := []
    free := s.free + 34 }

/-- The `ERR` value of a code (R23, R246). -/
def errOf : FailCode → Err
  | .header => .header
  | .exhausted => .exhausted
  | .range => .range
  | .window => .window
  | .capacity => .capacity

/-- `X.FAIL(code)`, taking an error (R246): the one shared operation for every `raise`. There is no return from it
(R251); what `DST` holds is left as it is and is not valid (U3, log 15). -/
def enterError (code : FailCode) (s : State) : State :=
  { s with err := errOf code, dstLen := 0, status := .error, ph := .halt }

/-- A command completes (R152, R182, R286). -/
def complete (s : State) : State :=
  { s with status := .done, ph := .halt }

end Sys2Proof.Machine
end

