-- ==== Sys2Proof/Machine/Operands.lean ====
section
/-! DEFINITION. The operand forms: the addressing modes (20_memory.md R72), `MemRead` (R11, R64), the window start (R8) and
the leftmost occurrence (00_scope.md R13). -/

namespace Sys2Proof.Machine

open Sys2Proof

/-- `WinStart(c) = max(0, c - 2048)` (R8), with `WINDOW_SIZE = 2048` (R5): natural subtraction saturates at 0. -/
def winStart (c : Nat) : Nat := c - 2048

/-- Mode (b), cursor plus index (R72). -/
def cursorPlus (cursor k : Nat) : Nat := cursor + k

/-- Mode (c), window-relative (R72): `WS + offset + k`. -/
def windowRelative (ws offset k : Nat) : Nat := ws + offset + k

/-- The natural number of a byte list, least significant byte first (R11, R64). -/
def littleEndian : List Byte → Nat
  | [] => 0
  | b :: bs => b.toNat + 256 * littleEndian bs

/-- `MemRead(…:a, k)` (R11, R64), or none where a byte of it holds no value. -/
def memRead (m : Memory) (a k : Nat) : Option Nat := (m.range a k).map littleEndian

/-- `Find(Wd, P)` (R13): the least position at which `P` occurs wholly inside `Wd`. -/
def find : List Byte → List Byte → Option Nat
  | [], p => if p.isEmpty then some 0 else none
  | w :: ws, p => if p.isPrefixOf (w :: ws) then some 0 else (find ws p).map (· + 1)

/-- Where D.COPY reads: `DST:(WS + OFF + I)` (R187). -/
def copySource (s : State) : Nat := windowRelative s.ws s.off s.i

/-- Where D.COPY writes: `DST:(OP + I)` (R187). -/
def copyTarget (s : State) : Nat := cursorPlus s.op s.i

end Sys2Proof.Machine
end

