-- ==== Sys2Proof/Machine/Flags.lean ====
section
/-! DEFINITION. The flag computations (10_state.md R34): the bits of `CTRL`, and the numeric codes of `STATUS` and `ERR`
(R22, R23). `FOUND` is a field of its own; there are no arithmetic condition codes. -/

namespace Sys2Proof.Machine

open Sys2Proof

/-- Bit `k` of a control byte, of weight `2^k` (R9, R65): `(v >> k) & 1`. -/
def ctrlBit (v : Byte) (k : Nat) : Bool := v.toNat >>> k &&& 1 == 1

/-- `CTRL | (1 << k)` (R154). -/
def setCtrlBit (v : Byte) (k : Nat) : Byte := v ||| BitVec.ofNat 8 (1 <<< k)

/-- The code a host reads in `STATUS` (R22). -/
def statusCode : Status → BitVec 2
  | .idle => 0#2
  | .busy => 1#2
  | .done => 2#2
  | .error => 3#2

/-- The code a host reads in `ERR` (R23); 6 and 7 are never there. -/
def errCode : Err → BitVec 3
  | .none => 0#3
  | .header => 1#3
  | .exhausted => 2#3
  | .range => 3#3
  | .window => 4#3
  | .capacity => 5#3

end Sys2Proof.Machine
end

