-- ==== Sys2Proof/Machine/Commands.lean ====
section
/-! DEFINITION. The host's commands (43_commands.md R220 to R226), its writes of `SRC` and `SRC_LEN` (10_state.md R21,
70_reset_and_hazards.md R273 to R277), RESET (R271) and X.FAIL as an operation of its own (R246). -/

namespace Sys2Proof.Machine

open Sys2Proof

/-- What R221 and R222 have in common: the command starts clean, whatever ran before (R35, R39). -/
def startCommand (s : State) : State :=
  { forgetWorking s with dstLen := 0, err := .none, status := .busy }

/-- CMD.COMPRESS (R221): while BUSY no effect (R225); enabled only when `SRC_LEN <= SRC_CAP`. -/
def execCmdCompress (s : State) : Result :=
  if s.status = .busy then .next s
  else if s.caps.src.toNat < s.srcLen then .refused .srcLenAboveCap
  else .next { startCommand s with n := s.srcLen, r := 0, ph := .cHeader }

/-- CMD.DECOMPRESS (R222): while BUSY no effect (R225); enabled only when `SRC_LEN <= SRC_CAP`. -/
def execCmdDecompress (s : State) : Result :=
  if s.status = .busy then .next s
  else if s.caps.src.toNat < s.srcLen then .refused .srcLenAboveCap
  else .next { startCommand s with m := s.srcLen, ip := 0, op := 0, ph := .dHeader }

/-- CMD.RESERVED (R224): while BUSY a write of `CMD` has no effect on any state (R225); otherwise a model refuses it (U7),
whichever of the two codes it is. -/
def execCmdReserved (_code : BitVec 2) (s : State) : Result :=
  if s.status = .busy then .next s else .refused .reservedCommand

/-- A host write of `SRC_LEN`: while BUSY no effect (R225); otherwise the register takes the value, which is at most
`SRC_CAP` (R21, R273, U12). -/
def hostWriteSrcLen (v : BitVec 32) (s : State) : Result :=
  if s.status = .busy then .next s
  else if s.caps.src.toNat < v.toNat then .refused .srcLenAboveCap
  else .next { s with srcLen := v.toNat }

/-- A host write of one byte of `SRC` (R61, R273): no move while BUSY (R277); `SRC` has `SRC_CAP` bytes (R63). -/
def hostWriteSrc (a : Nat) (b : Byte) (s : State) : Result :=
  if s.status = .busy then .refused .srcWriteWhileBusy
  else if a < s.caps.src.toNat then .next { s with src := s.src.write a b }
  else .fault .srcAddress

/-- X.FAIL(code) (R246), performed inside the step of the micro-operation that raises. -/
def execXFail (code : FailCode) (s : State) : Result := .next (enterError code s)

/-- RESET (R271, R38), in any state: a running command is abandoned (U16). The parameters are no state (R20), and the
model's own two fields go on (log 2, log 7). -/
def execReset (s : State) : Result :=
  .next { State.reset with caps := s.caps, host := s.host, free := s.free }

end Sys2Proof.Machine
end

