-- ==== Sys2Proof/Machine/Elements.lean ====
section
/-! DEFINITION. The stream elements HEADER, CONTROL, LITERAL, MATCH (30_encoding.md R91 to R94): what the decoder does when
it takes one (R181, R182, R184, R185), what the encoder does when it puts one (R151, R153, R154, R155), and the meaning of
each element, which is the one or the other by the phase that selects it (log 1). -/

namespace Sys2Proof.Machine

open Sys2Proof

/-- The decoder takes `Header(n)`: D.HEADER after its length test (R181). -/
def takeHeader (n : Nat) (s : State) : State :=
  let s := { s with n := n, ip := 4, op := 0 }
  if s.caps.dst < s.n then enterError .capacity s else { s with ph := .dCtrl }

/-- The decoder takes `Control(c)`: the third case of D.CTRL (R182). -/
def takeControl (c : Byte) (s : State) : State :=
  { s with ctrl := c, ip := s.ip + 1, bit := 0, ph := .dToken }

/-- The decoder takes `Literal(b)`: D.LIT after its test (R184). -/
def takeLiteral (b : Byte) (s : State) : Result :=
  storeDst s.op b s fun s => { s with ip := s.ip + 1, op := s.op + 1, bit := s.bit + 1 }

/-- The three validity checks of a pair, in their order (R185, R186, R248). -/
def checkPair (s : State) : Option FailCode :=
  if s.n < s.op + s.len then some .range
  else if s.n < s.ws + s.off + s.len then some .range
  else if s.op - s.ws ≤ s.off then some .window
  else none

/-- The decoder takes `Match(offset, length)`: D.PAIR after its length test (R185). -/
def takePair (offset length : Nat) (s : State) : State :=
  let s := { s with ip := s.ip + 2, off := offset, len := length, ws := winStart s.op }
  match checkPair s with
  | some code => enterError code s
  | none => { s with i := 0, ph := .dCopy }

/-- The encoder puts `Header(n)`: E.HEADER (R151). -/
def putHeader (n : Nat) (s : State) : State :=
  if s.caps.dst < 4 then enterError .capacity s else { appendAll (bytes32 n) s with ph := .cOpen }

/-- The encoder has put a token that covers `k` source bytes: the tail of E.LIT and E.MATCH; the tests use the updated
`TOK` and `R` (R153, R154). -/
def tokenPut (k : Nat) (s : State) : State :=
  let s := { s with r := s.r + k, tok := s.tok + 1 }
  if s.tok = 8 ∨ s.r = s.n then { s with ph := .cClose } else { s with ph := .mStart }

/-- The encoder puts `Literal(b)`: E.LIT after its read (R153). -/
def putLiteral (b : Byte) (s : State) : Result :=
  match pbufSet s.pbuf s.plen b with
  | none => .fault .pbufAddress
  | some p => .next (tokenPut 1 { s with pbuf := p, plen := s.plen + 1 })

/-- The encoder puts `Match(offset, length)`: E.MATCH (R154). -/
def putPair (offset length : Nat) (s : State) : Result :=
  let pair := packPair offset length
  match pbufSet s.pbuf s.plen (BitVec.ofNat 8 (pair &&& 0xFF)) with
  | none => .fault .pbufAddress
  | some p =>
    match pbufSet p (s.plen + 1) (BitVec.ofNat 8 (pair >>> 8)) with
    | none => .fault .pbufAddress
    | some p => .next (tokenPut length { s with ctrl := setCtrlBit s.ctrl s.tok, pbuf := p, plen := s.plen + 2 })

/-- The encoder puts `Control(c)` and the block's payload after it: E.CLOSE (R155). -/
def putControl (c : Byte) (s : State) : Result :=
  if s.caps.dst < s.dstLen + 1 + s.plen then .next (enterError .capacity s)
  else if 16 < s.plen then .fault .pbufAddress
  else .next { appendAll (c :: s.pbuf.toList.take s.plen) s with ph := .cOpen }

/-- HEADER (R91, R100): consumed in phase `D_HEADER` (R181), produced in phase `C_HEADER` (R151). -/
def execHeader (n : Nat) (s : State) : Result :=
  match s.ph with
  | .dHeader => if s.m < 4 then .next (enterError .header s) else .next (takeHeader n s)
  | .cHeader => .next (putHeader n s)
  | _ => .refused .notSelected

/-- CONTROL (R92): consumed in phase `D_CTRL` while fewer than `N` bytes have been produced (R182), produced in phase
`C_CLOSE` (R155). -/
def execControl (mask : Byte) (s : State) : Result :=
  match s.ph with
  | .dCtrl =>
    if s.op = s.n then .refused .notSelected
    else if s.m ≤ s.ip then .next (enterError .exhausted s)
    else .next (takeControl mask s)
  | .cClose => putControl mask s
  | _ => .refused .notSelected

/-- LITERAL (R93): consumed in phase `D_TOKEN` when the token's control bit is 0 (R184), produced in phase `C_EMIT` when
`FOUND = 0` (R153). -/
def execLiteral (b : Byte) (s : State) : Result :=
  match s.ph with
  | .dToken =>
    if s.bit < 8 ∧ s.op < s.n ∧ ctrlBit s.ctrl s.bit = false then
      if s.m ≤ s.ip then .next (enterError .exhausted s) else takeLiteral b s
    else .refused .notSelected
  | .cEmit => if s.found then .refused .notSelected else putLiteral b s
  | _ => .refused .notSelected

/-- MATCH (R94): consumed in phase `D_TOKEN` when the token's control bit is 1 (R185; the copy that follows is R187, R188),
produced in phase `C_EMIT` when `FOUND = 1` (R154). -/
def execMatchPair (offset length : Nat) (s : State) : Result :=
  match s.ph with
  | .dToken =>
    if s.bit < 8 ∧ s.op < s.n ∧ ctrlBit s.ctrl s.bit = true then
      if s.m - s.ip < 2 then .next (enterError .exhausted s) else .next (takePair offset length s)
    else .refused .notSelected
  | .cEmit => if s.found then putPair offset length s else .refused .notSelected
  | _ => .refused .notSelected

end Sys2Proof.Machine
end

