-- ==== Sys2Proof/Machine/Decoder.lean ====
section
/-! DEFINITION. The Stream Decoder's micro-operations (42_decoder.md R181 to R188). -/

namespace Sys2Proof.Machine

open Sys2Proof

/-- D.HEADER (R181). -/
def execDHeader (s : State) : Result :=
  if s.ph = .dHeader then
    if s.m < 4 then .next (enterError .header s)
    else
      match memRead s.src 0 4 with
      | none => .fault .srcNoValue
      | some n => .next (takeHeader n s)
  else .refused .notSelected

/-- D.CTRL (R182). -/
def execDCtrl (s : State) : Result :=
  if s.ph = .dCtrl then
    if s.op = s.n then .next (complete { s with dstLen := s.n })
    else if s.m ≤ s.ip then .next (enterError .exhausted s)
    else
      match s.src.read s.ip with
      | none => .fault .srcNoValue
      | some c => .next (takeControl c s)
  else .refused .notSelected

/-- D.ENDBLOCK (R183). -/
def execDEndblock (s : State) : Result :=
  if s.ph = .dToken ∧ (s.bit = 8 ∨ s.op = s.n) then .next { s with ph := .dCtrl } else .refused .notSelected

/-- D.LIT (R184). -/
def execDLit (s : State) : Result :=
  if s.ph = .dToken ∧ s.bit < 8 ∧ s.op < s.n ∧ ctrlBit s.ctrl s.bit = false then
    if s.m ≤ s.ip then .next (enterError .exhausted s)
    else
      match s.src.read s.ip with
      | none => .fault .srcNoValue
      | some b => takeLiteral b s
  else .refused .notSelected

/-- D.PAIR (R185). -/
def execDPair (s : State) : Result :=
  if s.ph = .dToken ∧ s.bit < 8 ∧ s.op < s.n ∧ ctrlBit s.ctrl s.bit = true then
    if s.m - s.ip < 2 then .next (enterError .exhausted s)
    else
      match memRead s.src s.ip 2 with
      | none => .fault .srcNoValue
      | some pair => .next (takePair (pairOffset pair) (pairLength pair) s)
  else .refused .notSelected

/-- D.COPY (R187): one byte; `OP` does not move. -/
def execDCopy (s : State) : Result :=
  if s.ph = .dCopy ∧ s.i < s.len then
    match s.dst.read (copySource s) with
    | none => .fault .dstNoValue
    | some b => storeDst (copyTarget s) b s fun s => { s with i := s.i + 1 }
  else .refused .notSelected

/-- D.COPYEND (R188). -/
def execDCopyend (s : State) : Result :=
  if s.ph = .dCopy ∧ s.i = s.len then .next { s with op := s.op + s.len, bit := s.bit + 1, ph := .dToken }
  else .refused .notSelected

end Sys2Proof.Machine
end

