-- ==== Sys2Proof/Machine/Encoder.lean ====
section
/-! DEFINITION. The Token Encoder's micro-operations (41_encoder.md R151 to R155). -/

namespace Sys2Proof.Machine

open Sys2Proof

/-- E.HEADER (R151). -/
def execEHeader (s : State) : Result :=
  if s.ph = .cHeader then .next (putHeader s.n s) else .refused .notSelected

/-- E.OPEN (R152): `PBUF` holds no value when a block opens (log 8). -/
def execEOpen (s : State) : Result :=
  if s.ph = .cOpen then
    if s.r = s.n then .next (complete s)
    else .next { s with ctrl := 0#8, tok := 0, plen := 0, pbuf := freePbuf s.free, free := s.free + 16, ph := .mStart }
  else .refused .notSelected

/-- E.LIT (R153). -/
def execELit (s : State) : Result :=
  if s.ph = .cEmit ∧ s.found = false then
    match s.src.read s.r with
    | none => .fault .srcNoValue
    | some b => putLiteral b s
  else .refused .notSelected

/-- E.MATCH (R154). -/
def execEMatch (s : State) : Result :=
  if s.ph = .cEmit ∧ s.found = true then putPair s.boff s.blen s else .refused .notSelected

/-- E.CLOSE (R155). -/
def execEClose (s : State) : Result :=
  if s.ph = .cClose then putControl s.ctrl s else .refused .notSelected

end Sys2Proof.Machine
end

