-- ==== Sys2Proof/Machine/Matcher.lean ====
section
/-! DEFINITION. The Matcher's micro-operations (40_matcher.md R121, R122, R124). -/

namespace Sys2Proof.Machine

open Sys2Proof

/-- M.START (R121). -/
def execMStart (s : State) : Result :=
  if s.ph = .mStart then
    if s.n - s.r < 3 then .next { s with found := false, ph := .cEmit }
    else .next { s with found := false, ws := winStart s.r, wlen := s.r - winStart s.r, clen := 3, ph := .mSearch }
  else .refused .notSelected

/-- The state after a search whose answer is `j` (R122). -/
def searched (j : Option Nat) (s : State) : State :=
  match j with
  | none => { s with ph := .cEmit }
  | some j => { s with found := true, boff := j, blen := s.clen, ph := .mExtend }

/-- M.SEARCH (R122): a window shorter than the candidate fails without reading memory; otherwise the window
`SRC[WS : WS + WLEN]` and the candidate `SRC[R : R + CLEN]` are read. -/
def execMSearch (s : State) : Result :=
  if s.ph = .mSearch then
    if s.wlen < s.clen then .next (searched none s)
    else
      match s.src.range s.ws s.wlen, s.src.range s.r s.clen with
      | some window, some candidate => .next (searched (find window candidate) s)
      | _, _ => .fault .srcNoValue
  else .refused .notSelected

/-- M.EXTEND (R124). -/
def execMExtend (s : State) : Result :=
  if s.ph = .mExtend then
    if s.clen = Config.maxMatch ∨ s.r + s.clen = s.n then .next { s with ph := .cEmit }
    else .next { s with clen := s.clen + 1, ph := .mSearch }
  else .refused .notSelected

end Sys2Proof.Machine
end

