-- ==== Sys2Proof/Machine/Dispatch.lean ====
section
/-! DEFINITION. The meaning of every instruction, one arm per constructor (30_encoding.md R109). -/

namespace Sys2Proof.Machine

open Sys2Proof

def exec (i : Instr) (s : State) : Host.Outcome State Fault Refusal :=
  match i with
  -- stream elements
  | .header n => Sys2Proof.Machine.execHeader n s
  | .control mask => Sys2Proof.Machine.execControl mask s
  | .literal b => Sys2Proof.Machine.execLiteral b s
  | .matchPair offset length => Sys2Proof.Machine.execMatchPair offset length s
  -- host commands
  | .cmdCompress => Sys2Proof.Machine.execCmdCompress s
  | .cmdDecompress => Sys2Proof.Machine.execCmdDecompress s
  | .cmdReserved code => Sys2Proof.Machine.execCmdReserved code s
  -- the Matcher
  | .mStart => Sys2Proof.Machine.execMStart s
  | .mSearch => Sys2Proof.Machine.execMSearch s
  | .mExtend => Sys2Proof.Machine.execMExtend s
  -- the Token Encoder
  | .eHeader => Sys2Proof.Machine.execEHeader s
  | .eOpen => Sys2Proof.Machine.execEOpen s
  | .eLit => Sys2Proof.Machine.execELit s
  | .eMatch => Sys2Proof.Machine.execEMatch s
  | .eClose => Sys2Proof.Machine.execEClose s
  -- the Stream Decoder
  | .dHeader => Sys2Proof.Machine.execDHeader s
  | .dCtrl => Sys2Proof.Machine.execDCtrl s
  | .dEndblock => Sys2Proof.Machine.execDEndblock s
  | .dLit => Sys2Proof.Machine.execDLit s
  | .dPair => Sys2Proof.Machine.execDPair s
  | .dCopy => Sys2Proof.Machine.execDCopy s
  | .dCopyend => Sys2Proof.Machine.execDCopyend s
  -- error entry and reset
  | .xFail code => Sys2Proof.Machine.execXFail code s
  | .reset => Sys2Proof.Machine.execReset s

end Sys2Proof.Machine
end

