-- ==== Sys2Proof/Machine/Sequencer.lean ====
section
/-! DEFINITION. Which micro-operation the engine performs next (10_state.md R30), and which stream element stands at the
decoder's cursor (30_encoding.md R96). -/

namespace Sys2Proof.Machine

open Sys2Proof

/-- The table of R30, row by row; none in `HALT`, and none in a state outside the ranges of R26 and R27. -/
def selectOp (s : State) : Option Instr :=
  match s.ph with
  | .halt => none
  | .cHeader => some .eHeader
  | .cOpen => some .eOpen
  | .mStart => some .mStart
  | .mSearch => some .mSearch
  | .mExtend => some .mExtend
  | .cEmit => if s.found then some .eMatch else some .eLit
  | .cClose => some .eClose
  | .dHeader => some .dHeader
  | .dCtrl => some .dCtrl
  | .dToken =>
    if s.bit = 8 ∨ s.op = s.n then some .dEndblock
    else if s.bit < 8 ∧ s.op < s.n then
      if ctrlBit s.ctrl s.bit then some .dPair else some .dLit
    else none
  | .dCopy => if s.i < s.len then some .dCopy else if s.i = s.len then some .dCopyend else none

/-- Where the decoder's reader stands: the format of the next element it takes, if this phase takes one (R96, and the
`select` column of the opcode table). -/
def readerSlot (s : State) : Option Slot :=
  match s.ph with
  | .dHeader => some .header
  | .dCtrl => if s.op = s.n then none else some .control
  | .dToken =>
    if s.bit < 8 ∧ s.op < s.n then
      if ctrlBit s.ctrl s.bit then some .pair else some .literal
    else none
  | _ => none

/-- The address in `SRC` at which the reader stands: the header is at 0 by definition (R66), everything else at `IP`. -/
def readerAddress (s : State) : Nat := if s.ph = .dHeader then 0 else s.ip

/-- The stream element at the decoder's cursor, decoded from `SRC[0:M]`; none where the phase takes no element, or where
the element's bytes are not all there. -/
def elementAt (s : State) : Option Instr :=
  match readerSlot s with
  | none => none
  | some slot =>
    if readerAddress s + slot.width ≤ s.m then
      match s.src.range (readerAddress s) slot.width with
      | none => none
      | some bytes =>
        match decode slot bytes with
        | .ok (i, _) => some i
        | .error _ => none
    else none

/-- The stream element that the encoder's next micro-operation produces (R109, `produces`): from the registers, and the
source byte of a Literal. -/
def elementPut (s : State) : Option Instr :=
  match s.ph with
  | .cHeader => some (.header s.n)
  | .cEmit => if s.found then some (.matchPair s.boff s.blen) else (s.src.read s.r).map .literal
  | .cClose => some (.control s.ctrl)
  | _ => none

end Sys2Proof.Machine
end

