-- ==== Sys2Proof/Machine/Fetch.lean ====
section
/-! DEFINITION. Where the next step's instruction comes from: the host's next move, or the sequencer (10_state.md R30, R31);
and how a word is placed so that the next step runs it (log 4). -/

namespace Sys2Proof.Machine

open Sys2Proof

/-- The state without the host's next move, which the step has taken. -/
def popHost (s : State) : State := { s with host := s.host.tail }

/-- The instruction the next step runs; none when the next step is a host write of `SRC` or `SRC_LEN`, or when there is
nothing to run. -/
def fetch (s : State) : Option Instr :=
  match s.host with
  | [] => selectOp s
  | .engine :: _ => selectOp s
  | .cmd code :: _ => some (commandOf code)
  | .reset :: _ => some .reset
  | .writeSrcLen _ :: _ => none
  | .writeSrc _ _ :: _ => none

/-- The stream bytes of a placed word, written to `SRC` at `a`, with `M` and `SRC_LEN` ending after them, BUSY. -/
def placeStream (a : Nat) (bytes : List Byte) (s : State) : State :=
  { s with
    src := s.src.writeAll a bytes
    srcLen := a + bytes.length
    m := a + bytes.length
    status := .busy
    err := .none
    host := .engine :: s.host }

/-- A command byte: the host's next move writes it to `CMD`. A header: it stands at `SRC:0` and the phase is `D_HEADER`. A
pair: it stands at `SRC:IP`, the phase is `D_TOKEN`, output remains, and control bit 0 is the next and is 1. -/
def placeWord (s : State) (nbits w : Nat) : State :=
  match tableSlot nbits with
  | some .command => { s with host := .cmd (BitVec.ofNat 2 w) :: s.host }
  | some .header => { placeStream 0 (lowBytes 4 w) s with ph := .dHeader }
  | some .pair =>
    { placeStream s.ip (lowBytes 2 w) s with ph := .dToken, ctrl := 1#8, bit := 0, n := max s.n (s.op + 1) }
  | some .control => s
  | some .literal => s
  | none => s

end Sys2Proof.Machine
end

