-- ==== Sys2Proof/Machine/Step.lean ====
section
/-! DEFINITION. One step of the machine (10_state.md R30, R31; 00_scope.md R11): the host's next move, or the engine's next
micro-operation. -/

namespace Sys2Proof.Machine

open Sys2Proof

/-- The engine's step: the micro-operation that R30 selects. In `HALT` it waits and everything keeps its value (R265,
log 3); a state in which R30 selects nothing is stuck (log 11). -/
def engineStep (s : State) : Host.Outcome State Fault Refusal :=
  match selectOp s with
  | some i => exec i s
  | none => if s.ph = .halt then .next s else .fault .nothingSelected

/-- One step: the host's next move if there is one, otherwise the engine's step (log 2). -/
def step (s : State) : Host.Outcome State Fault Refusal :=
  match s.host with
  | [] => engineStep s
  | .engine :: _ => engineStep (popHost s)
  | .cmd code :: _ => exec (commandOf code) (popHost s)
  | .reset :: _ => exec .reset (popHost s)
  | .writeSrcLen v :: _ => hostWriteSrcLen v (popHost s)
  | .writeSrc a b :: _ => hostWriteSrc a b (popHost s)

/-- `s` with a word placed where `step` takes its next instruction, so that the next step runs exactly it (log 4). -/
def State.withFetchWord (s : State) (nbits w : Nat) : State := placeWord s nbits w

end Sys2Proof.Machine
end

