-- ==== Sys2Proof/Machine/Codec.lean ====
section
/-! DEFINITION. The block's functions, beside the step machine that computes them: `FindMatch` (40_matcher.md R126), `Compress`,
`Tokens` and the byte form of a token list (41_encoder.md R156, R157, 30_encoding.md R110), `Decompress` (42_decoder.md
R191), the grammar of a stream (30_encoding.md R97) and a valid parse of a source (R108). Loops are recursions on fuel
that the spec's own bounds show to suffice (R129, R161, R192). -/

namespace Sys2Proof.Machine

open Sys2Proof

/-- `S[a:b]` (R10). -/
def slice (S : List Byte) (a b : Nat) : List Byte := (S.drop a).take (b - a)

/-- The loop of `FindMatch` (R126), from candidate length `L` with the best so far. -/
def growMatch (S window : List Byte) (r : Nat) : Nat → Nat → Option (Nat × Nat) → Option (Nat × Nat)
  | 0, _, best => best
  | fuel + 1, L, best =>
    match find window (slice S r (r + L)) with
    | none => best
    | some j =>
      if L = Config.maxMatch ∨ r + L = S.length then some (j, L)
      else growMatch S window r fuel (L + 1) (some (j, L))

/-- `FindMatch(S, r)` (R126); none is NoMatch. Candidate lengths 3 to 34 are at most 32 searches (R129). -/
def findMatch (S : List Byte) (r : Nat) : Option (Nat × Nat) :=
  if S.length - r < 3 then none else growMatch S (slice S (winStart r) r) r 32 3 none

/-- The tokens of one block from cursor `r` (the inner loop of R156): the control byte, the payload and the new cursor.
The first argument counts the tokens the block can still take. -/
def encodeBlock (S : List Byte) : Nat → Nat → Nat → Byte → List Byte → Byte × List Byte × Nat
  | 0, r, _, ctrl, pay => (ctrl, pay, r)
  | k + 1, r, tok, ctrl, pay =>
    match S[r]? with
    | none => (ctrl, pay, r)
    | some b =>
      match findMatch S r with
      | some (o, l) => encodeBlock S k (r + l) (tok + 1) (setCtrlBit ctrl tok) (pay ++ bytes16 (packPair o l))
      | none => encodeBlock S k (r + 1) (tok + 1) ctrl (pay ++ [b])

/-- The blocks from cursor `r` on (the outer loop of R156). -/
def encodeBlocks (S : List Byte) : Nat → Nat → List Byte
  | 0, _ => []
  | fuel + 1, r =>
    if r < S.length then
      match encodeBlock S Config.blockTokens r 0 0#8 [] with
      | (ctrl, pay, r') => ctrl :: pay ++ encodeBlocks S fuel r'
    else []

/-- `Compress(S)` (R156), which the spec defines for `len(S) <= 2^32 - 1` (R160). A longer list has no header in the format and
no engine can be given one; that this function gives it the low 32 bits of its length is the model's choice and says nothing
of any hardware (DESIGN CHOICE, log 22). -/
def compress (S : List Byte) : List Byte := bytes32 S.length ++ encodeBlocks S S.length 0

/-- A token (00_scope.md R15). -/
inductive Token where
  | literal (b : Byte)
  | pair (offset length : Nat)
  deriving DecidableEq, Repr

/-- How many output bytes a token stands for (R107). -/
def Token.outputLength : Token → Nat
  | .literal _ => 1
  | .pair _ length => length

/-- A token's payload (R93, R94, R98). -/
def Token.payload : Token → List Byte
  | .literal b => [b]
  | .pair offset length => bytes16 (packPair offset length)

/-- Whether a token's control bit is 1 (R92). -/
def Token.isPair : Token → Bool
  | .literal _ => false
  | .pair _ _ => true

/-- The greedy parse from cursor `r` (R157). -/
def tokensFrom (S : List Byte) : Nat → Nat → List Token
  | 0, _ => []
  | fuel + 1, r =>
    match S[r]? with
    | none => []
    | some b =>
      match findMatch S r with
      | some (o, l) => .pair o l :: tokensFrom S fuel (r + l)
      | none => .literal b :: tokensFrom S fuel (r + 1)

/-- `Tokens(S)` (R157). -/
def tokens (S : List Byte) : List Token := tokensFrom S S.length 0

/-- The control byte of a block's tokens: bit `i` is 1 iff token `i` is a Match, other bits 0 (R110). -/
def controlByte : List Token → Nat → Byte → Byte
  | [], _, c => c
  | t :: ts, i, c => controlByte ts (i + 1) (if t.isPair then setCtrlBit c i else c)

/-- The byte form of a token list's blocks (R110): groups of 8, each behind its control byte. -/
def blockBytes : Nat → List Token → List Byte
  | 0, _ => []
  | fuel + 1, ts =>
    if ts.isEmpty then []
    else
      controlByte (ts.take 8) 0 0#8 :: ((ts.take 8).flatMap Token.payload) ++ blockBytes fuel (ts.drop 8)

/-- The byte form of `Header(n)` followed by a token list (R110), for `n < 2^32`; beyond, the header is the model's choice
(log 22). -/
def streamBytes (n : Nat) (ts : List Token) : List Byte := bytes32 n ++ blockBytes ts.length ts

/-- The copy of a Match, byte by byte in increasing order (R187, R191): `out` grows by one byte a turn, so the byte read may
be one this copy wrote. -/
def copyMatch : Nat → Nat → List Byte → List Byte
  | 0, _, out => out
  | k + 1, from_, out =>
    match out[from_]? with
    | none => out
    | some b => copyMatch k (from_ + 1) (out ++ [b])

/-- The checks of a pair at produced count `p` (R104 (c), (d), R185): the cause of the failure, or none. -/
def pairError (n p offset length : Nat) : Option FailCode :=
  if n < p + length then some .range
  else if n < winStart p + offset + length then some .range
  else if p - winStart p ≤ offset then some .window
  else none

/-- The tokens of one block (the inner loop of R191): the bits from `bit` on, the input not yet read and the output so far.
The first argument counts the bits left. -/
def decodeTokens (n : Nat) (ctrl : Byte) :
    Nat → Nat → List Byte → List Byte → Except FailCode (List Byte × List Byte)
  | 0, _, rest, out => .ok (rest, out)
  | k + 1, bit, rest, out =>
    if out.length < n then
      if ctrlBit ctrl bit then
        match rest with
        | b0 :: b1 :: rest =>
          let pair := le16 b0 b1
          match pairError n out.length (pairOffset pair) (pairLength pair) with
          | some code => .error code
          | none =>
            decodeTokens n ctrl k (bit + 1) rest
              (copyMatch (pairLength pair) (winStart out.length + pairOffset pair) out)
        | _ => .error .exhausted
      else
        match rest with
        | b :: rest => decodeTokens n ctrl k (bit + 1) rest (out ++ [b])
        | [] => .error .exhausted
    else .ok (rest, out)

/-- The blocks (the outer loop of R191). Each turn reads a control byte, so the input's length is fuel enough. -/
def decodeBlocks (n : Nat) : Nat → List Byte → List Byte → Except FailCode (List Byte × List Byte)
  | 0, rest, out => if out.length < n then .error .exhausted else .ok (rest, out)
  | fuel + 1, rest, out =>
    if out.length < n then
      match rest with
      | [] => .error .exhausted
      | ctrl :: rest =>
        match decodeTokens n ctrl 8 0 rest out with
        | .error code => .error code
        | .ok (rest, out) => decodeBlocks n fuel rest out
    else .ok (rest, out)

/-- `Decompress(C)` with the bytes it has not read (R191, R102). -/
def decompressRest (C : List Byte) : Except FailCode (List Byte × List Byte) :=
  match C with
  | b0 :: b1 :: b2 :: b3 :: rest => decodeBlocks (le32 b0 b1 b2 b3) rest.length rest []
  | _ => .error .header

/-- `Decompress(C)` (R191), which the spec defines for `len(C) <= 2^32 - 1`; that a longer list is read by the same rules is the
model's choice (log 22). -/
def decompress (C : List Byte) : Except FailCode (List Byte) := (decompressRest C).map Prod.snd

/-- The outcome of a DECOMPRESS command with `DST_CAP = cap` (the end of R191): `CAPACITY` right after `N` is read. -/
def decompressWithin (cap : Nat) (C : List Byte) : Except FailCode (List Byte) :=
  match C with
  | b0 :: b1 :: b2 :: b3 :: _ => if cap < le32 b0 b1 b2 b3 then .error .capacity else decompress C
  | _ => .error .header

/-- The grammar of the part of a stream after its header (R97): `Grammar n none out rest fin` is `blocks(p)` and
`Grammar n (some (c, i)) out rest fin` is `tokens(p, i)` under control byte `c`, where `out` is what has been produced, `p`
is its length, `rest` is the input from here and `fin` is the whole output. Bytes after the last element are `ignored`. -/
inductive Grammar (n : Nat) : Option (Byte × Nat) → List Byte → List Byte → List Byte → Prop
  /-- `blocks(p) := (empty)` if `p = N`; the rest is ignored (R102). -/
  | stop {out rest : List Byte} : out.length = n → Grammar n none out rest out
  /-- `blocks(p) := control tokens(p, 0)` if `p < N`. -/
  | block {c : Byte} {out rest fin : List Byte} :
      out.length < n → Grammar n (some (c, 0)) out rest fin → Grammar n none out (c :: rest) fin
  /-- `tokens(p, i) := blocks(p)` if `i = 8` or `p = N`. -/
  | leave {c : Byte} {i : Nat} {out rest fin : List Byte} :
      i = 8 ∨ out.length = n → Grammar n none out rest fin → Grammar n (some (c, i)) out rest fin
  /-- `tokens(p, i) := literal tokens(p + 1, i + 1)` if bit `i` of control is 0. -/
  | literal {c b : Byte} {i : Nat} {out rest fin : List Byte} :
      i < 8 → out.length < n → ctrlBit c i = false → Grammar n (some (c, i + 1)) (out ++ [b]) rest fin →
        Grammar n (some (c, i)) out (b :: rest) fin
  /-- `tokens(p, i) := pair tokens(p + length, i + 1)` if bit `i` of control is 1, legal under R104 only. -/
  | pair {c b0 b1 : Byte} {i : Nat} {out rest fin : List Byte} :
      i < 8 → out.length < n → ctrlBit c i = true →
        pairError n out.length (pairOffset (le16 b0 b1)) (pairLength (le16 b0 b1)) = none →
        Grammar n (some (c, i + 1))
          (copyMatch (pairLength (le16 b0 b1)) (winStart out.length + pairOffset (le16 b0 b1)) out) rest fin →
        Grammar n (some (c, i)) out (b0 :: b1 :: rest) fin

/-- `stream := header blocks(0) ignored` (R97), decoding to `fin`. -/
def StreamOf (C fin : List Byte) : Prop :=
  ∃ b0 b1 b2 b3 rest, C = b0 :: b1 :: b2 :: b3 :: rest ∧ Grammar (le32 b0 b1 b2 b3) none [] rest fin

/-- A token list is a valid parse of `X` from cursor `p` on (R108): literals are the source's bytes, a Match satisfies the
conditions of "valid matches", and the tokens cover `X` to its end. -/
def ValidParse (X : List Byte) : Nat → List Token → Prop
  | p, [] => p = X.length
  | p, .literal b :: ts => X[p]? = some b ∧ ValidParse X (p + 1) ts
  | p, .pair o l :: ts =>
    (3 ≤ l ∧ l ≤ 34 ∧ o ≤ 2047 ∧ p + l ≤ X.length ∧ winStart p + o < p ∧
      ∀ k, k < l → X[winStart p + o + k]? = X[p + k]?) ∧ ValidParse X (p + l) ts

end Sys2Proof.Machine
end

