-- ==== Sys2Proof/Machine/HostPort.lean ====
section
/-! DEFINITION. What the host reads (10_state.md R21, 43_commands.md R223, 70_reset_and_hazards.md R276). Reads have no side
effect, so they are functions of the state, and the host reads nothing else: no working register and no byte of `PBUF`
(R28, R29). -/

namespace Sys2Proof.Machine

open Sys2Proof

/-- The host's read of `STATUS`. -/
def hostStatus (s : State) : BitVec 2 := statusCode s.status

/-- The host's read of `ERR`. -/
def hostErr (s : State) : BitVec 3 := errCode s.err

/-- The host's read of `SRC_LEN`, 32 bits. -/
def hostSrcLen (s : State) : BitVec 32 := BitVec.ofNat 32 s.srcLen

/-- The host's read of `DST_LEN`, 33 bits. -/
def hostDstLen (s : State) : BitVec 33 := BitVec.ofNat 33 s.dstLen

/-- The host's read of a byte of `DST`: a byte it may use only when `STATUS = DONE` and below `DST_LEN` (R62, R276); none
stands for an unspecified byte (U4, log 16). -/
def hostDst (s : State) (a : Nat) : Option Byte :=
  if s.status = .done ∧ a < s.dstLen then s.dst.read a else none

/-- The result of the call (R223): the bytes `DST[0:DST_LEN]`, or the cause of the failure, or none while there is no
result. -/
def callResult (s : State) : Option (Except Err (List Byte)) :=
  match s.status with
  | .done => (s.dst.range 0 s.dstLen).map .ok
  | .error => some (.error s.err)
  | .idle => none
  | .busy => none

end Sys2Proof.Machine
end

