-- ==== Sys2Proof/Safety.lean ====
section
/-! DEFINITION. What counts as a sound state (10_state.md R21 to R27, R33, R36, R37), a run of the engine, and the premises
on the host (70_reset_and_hazards.md R273), in the terms the statements use. -/

namespace Sys2Proof.Machine

open Sys2Proof

/-- Every register fits its width (R21, R24, R25, R26, R27). `CTRL` and `PBUF` do by their types. -/
structure State.Widths (s : State) : Prop where
  srcLen : s.srcLen < 2 ^ 32
  dstLen : s.dstLen < 2 ^ 33
  n : s.n < 2 ^ 32
  m : s.m < 2 ^ 32
  r : s.r < 2 ^ 32
  ip : s.ip < 2 ^ 32
  op : s.op < 2 ^ 32
  tok : s.tok < 2 ^ 4
  bit : s.bit < 2 ^ 4
  plen : s.plen < 2 ^ 5
  ws : s.ws < 2 ^ 32
  wlen : s.wlen < 2 ^ 12
  clen : s.clen < 2 ^ 6
  boff : s.boff < 2 ^ 11
  blen : s.blen < 2 ^ 6
  off : s.off < 2 ^ 11
  len : s.len < 2 ^ 6
  i : s.i < 2 ^ 6

/-- The two byte spaces have their canonical form and hold nothing beyond their capacities (R63). -/
structure State.Stores (s : State) : Prop where
  srcWf : s.src.wf
  dstWf : s.dst.wf
  srcBelow : ∀ c ∈ s.src, c.1 < s.caps.src.toNat
  dstBelow : ∀ c ∈ s.dst, c.1 < s.caps.dst

/-- What the host-visible registers say together (R21, R22, R23, R62, R223). -/
structure State.Port (s : State) : Prop where
  busy_iff : s.status = .busy ↔ s.ph ≠ .halt
  err_iff : s.err = .none ↔ s.status ≠ .error
  idle_len : s.status = .idle → s.dstLen = 0
  error_len : s.status = .error → s.dstLen = 0
  srcLen_le : s.srcLen ≤ s.caps.src.toNat
  dstLen_le : s.dstLen ≤ s.caps.dst
  done_written : s.status = .done → ∀ a, a < s.dstLen → s.dst.read a ≠ none

/-- The phases of a COMPRESS command (R24). -/
def Phase.compressing : Phase → Bool
  | .cHeader | .cOpen | .mStart | .mSearch | .mExtend | .cEmit | .cClose => true
  | .halt | .dHeader | .dCtrl | .dToken | .dCopy => false

/-- The phases in which a block of the encoder is open. -/
def Phase.inBlock : Phase → Bool
  | .mStart | .mSearch | .mExtend | .cEmit | .cClose => true
  | .halt | .cHeader | .cOpen | .dHeader | .dCtrl | .dToken | .dCopy => false

/-- The phases in which the encoder has a cursor position to encode (R71: `R < N`). -/
def Phase.atCursor : Phase → Bool
  | .mStart | .mSearch | .mExtend | .cEmit => true
  | .halt | .cHeader | .cOpen | .cClose | .dHeader | .dCtrl | .dToken | .dCopy => false

/-- The phases of a DECOMPRESS command (R26). -/
def Phase.decompressing : Phase → Bool
  | .dHeader | .dCtrl | .dToken | .dCopy => true
  | .halt | .cHeader | .cOpen | .mStart | .mSearch | .mExtend | .cEmit | .cClose => false

/-- The closed form of the open block (R36): what E.CLOSE would append now (R155). A block that has no token yet has none,
because no block is closed without a token (R152). -/
def State.openBlock (s : State) : List Byte :=
  if s.ph.inBlock = true ∧ 0 < s.tok then s.ctrl :: s.pbuf.toList.take s.plen else []

/-- R36, its last clause: `DST[0:DST_LEN]` followed by the closed form of the open block decodes to `SRC[0:R]`, all of it and
nothing left over. The header there already announces `N`; "decodes to `SRC[0:R]`" is read as: with a header that announces
`R` in its place (log 21). -/
def State.OutputDecodes (s : State) : Prop :=
  ∃ X out, s.src.range 0 s.r = some X ∧ s.dst.range 4 (s.dstLen - 4) = some out ∧
    decompressRest (bytes32 s.r ++ (out ++ s.openBlock)) = .ok ([], X)

/-- The output so far is the byte form of a parse of `SRC[0:R]`: the closed blocks hold `closed`, 8 tokens each while source
is left, and `CTRL` and `PBUF` hold `opened` (R108, R110, R152 to R155). From this every step keeps, the last clause of R36
follows. -/
structure State.ParsedAs (s : State) (X : List Byte) (closed opened : List Token) : Prop where
  source : s.src.range 0 s.r = some X
  output : s.dst.range 4 (s.dstLen - 4) = some (blockBytes closed.length closed)
  valid : ValidParse X 0 (closed ++ opened)
  full : s.ph.inBlock = true ∨ s.r < s.n → 8 ∣ closed.length
  count : s.ph.inBlock = true → opened.length = s.tok
  control : s.ph.inBlock = true → controlByte opened 0 0#8 = s.ctrl
  payload : s.ph.inBlock = true → opened.flatMap Token.payload = s.pbuf.toList.take s.plen
  unopened : s.ph.inBlock = false → opened = []

/-- The invariants of a COMPRESS command (R36), with the bound on `DST_LEN` from which R166 follows, the unused bits of
`CTRL` that R101 says are 0, and the parse behind the output. R36's clauses on the search are those of `M_SEARCH`, `M_EXTEND`
and of `C_EMIT` when reached through them, which is when at least 3 bytes are left (R121); its clause "whenever
`FOUND = 1`" is that of the phases that use the match, before E.MATCH moves the cursor past it, and its clause on `TOK` and
`PLEN` that of the phases where a block of this command has set them (log 21). -/
structure State.EncoderInv (s : State) : Prop where
  n_eq : s.n = s.srcLen
  r_le : s.r ≤ s.n
  start : s.ph = .cHeader → s.r = 0 ∧ s.dstLen = 0
  output : s.ph ≠ .cHeader →
    4 ≤ s.dstLen ∧ (∀ a, a < s.dstLen → s.dst.read a ≠ none) ∧ s.dst.range 0 4 = some (bytes32 s.n)
  opening : s.ph = .cOpen →
    s.dstLen ≤ 4 + s.r + (s.r + 7) / 8 ∧ (s.r < s.n → s.dstLen ≤ 4 + s.r + s.r / 8)
  counts : s.ph.inBlock = true ∨ (s.ph = .cOpen ∧ 0 < s.r) → s.tok ≤ 8 ∧ s.tok ≤ s.plen ∧ s.plen ≤ 2 * s.tok
  block : s.ph.inBlock = true →
    s.tok ≤ s.r ∧
      s.dstLen + s.plen ≤ 4 + s.r + (s.r - s.tok) / 8 ∧ ∀ k, s.tok ≤ k → ctrlBit s.ctrl k = false
  cursor : s.ph.atCursor = true → s.tok < 8 ∧ s.r < s.n
  closing : s.ph = .cClose → 1 ≤ s.tok ∧ (s.tok = 8 ∨ s.r = s.n)
  window : s.ph = .mSearch ∨ s.ph = .mExtend ∨ (s.ph = .cEmit ∧ 3 ≤ s.n - s.r) →
    s.ws = winStart s.r ∧ s.wlen = s.r - s.ws ∧ 3 ≤ s.clen ∧ s.clen ≤ 34 ∧ s.r + s.clen ≤ s.n
  best : s.ph = .mSearch ∨ s.ph = .mExtend ∨ s.ph = .cEmit → s.found = true →
    3 ≤ s.blen ∧ s.blen ≤ 34 ∧ s.r + s.blen ≤ s.n ∧ s.boff + s.blen ≤ s.wlen ∧
      ∀ k, k < s.blen → s.src.read (s.ws + s.boff + k) = s.src.read (s.r + k)
  searching : s.ph = .mSearch → s.clen = if s.found then s.blen + 1 else 3
  extending : s.ph = .mExtend → s.found = true ∧ s.blen = s.clen
  parsed : s.ph ≠ .cHeader → ∃ X closed opened, s.ParsedAs X closed opened
  decodes : s.ph ≠ .cHeader → s.OutputDecodes

/-- The invariants of a DECOMPRESS command (R37). Its clause on `BIT` is that of every phase after the first control byte
has been read: `D_CTRL` after a block is one with output produced, since a block decodes a token before it is left (R182,
R183). Before that `BIT` holds no value (log 21). -/
structure State.DecoderInv (s : State) : Prop where
  m_eq : s.m = s.srcLen
  len_zero : s.dstLen = 0
  start : s.ph = .dHeader → s.ip = 0 ∧ s.op = 0
  cursors : s.ph ≠ .dHeader →
    4 ≤ s.ip ∧ s.ip ≤ s.m ∧ s.op ≤ s.n ∧ s.n ≤ s.caps.dst ∧ memRead s.src 0 4 = some s.n ∧
      ∀ a, a < s.op → s.dst.read a ≠ none
  bits : s.ph = .dToken ∨ s.ph = .dCopy ∨ (s.ph = .dCtrl ∧ 0 < s.op) → s.bit ≤ 8
  copy : s.ph = .dCopy →
    s.bit < 8 ∧ 3 ≤ s.len ∧ s.len ≤ 34 ∧ s.op + s.len ≤ s.n ∧ s.ws = winStart s.op ∧ s.ws + s.off < s.op ∧
      s.i ≤ s.len ∧ ∀ a, a < s.op + s.i → s.dst.read a ≠ none

/-- The invariant of the machine. -/
structure State.Inv (s : State) : Prop where
  widths : s.Widths
  stores : s.Stores
  port : s.Port
  encoder : s.ph.compressing = true → s.EncoderInv
  decoder : s.ph.decompressing = true → s.DecoderInv

/-- The host has written every byte below `SRC_LEN` (R273 (1)). -/
def State.SourceWritten (s : State) : Prop := ∀ a, a < s.srcLen → s.src.read a ≠ none

/-- The host has loaded the bytes `S` (R273): `SRC[0:SRC_LEN] = S`. -/
def State.Holds (s : State) (S : List Byte) : Prop :=
  s.srcLen = S.length ∧ S.length ≤ s.caps.src.toNat ∧ ∀ a, a < S.length → s.src.read a = S[a]?

/-- The host's next move leaves the step to the engine. -/
def State.EngineTurn (s : State) : Prop := s.host = [] ∨ s.host.head? = some .engine

/-- `k` steps of the engine, stopping at the first fault or refusal. -/
def runEngine : Nat → State → Result
  | 0, s => .next s
  | k + 1, s =>
    match engineStep s with
    | .next t => runEngine k t
    | .fault f => .fault f
    | .refused f => .refused f

/-- A command's first step and then `k` steps of the engine. -/
def runCommand (command : Instr) (k : Nat) (s : State) : Result :=
  match exec command s with
  | .next t => runEngine k t
  | .fault f => .fault f
  | .refused f => .refused f

/-- The length a stream's header announces (R91), 0 where there is no header. -/
def announced : List Byte → Nat
  | b0 :: b1 :: b2 :: b3 :: _ => le32 b0 b1 b2 b3
  | _ => 0

/-- The candidate occurs in the window at `j` (R13, R122, R123): `j + CLEN <= WLEN` and equal bytes. -/
def State.OccursAt (s : State) (j : Nat) : Prop :=
  j + s.clen ≤ s.wlen ∧ ∀ k, k < s.clen → s.src.read (s.ws + j + k) = s.src.read (s.r + k)

/-- The candidate `P` occurs in the window string `Wd` at `j` (R13). -/
def OccursIn (Wd P : List Byte) (j : Nat) : Prop :=
  j + P.length ≤ Wd.length ∧ ∀ k, k < P.length → Wd[j + k]? = P[k]?

/-- The micro-operations (R30). -/
def microOps : List Instr :=
  [.eHeader, .eOpen, .mStart, .mSearch, .mExtend, .eLit, .eMatch, .eClose, .dHeader, .dCtrl, .dEndblock, .dLit, .dPair,
    .dCopy, .dCopyend]

/-- The phase transitions of R31 that a step of the engine can make. -/
def transitions : List (Phase × Phase) :=
  [(.cHeader, .cOpen), (.cHeader, .halt), (.cOpen, .halt), (.cOpen, .mStart), (.mStart, .cEmit), (.mStart, .mSearch),
    (.mSearch, .mExtend), (.mSearch, .cEmit), (.mExtend, .cEmit), (.mExtend, .mSearch), (.cEmit, .cClose),
    (.cEmit, .mStart), (.cClose, .cOpen), (.cClose, .halt), (.dHeader, .halt), (.dHeader, .dCtrl), (.dCtrl, .halt),
    (.dCtrl, .dToken), (.dToken, .dCtrl), (.dToken, .dToken), (.dToken, .halt), (.dToken, .dCopy), (.dCopy, .dCopy),
    (.dCopy, .dToken)]

end Sys2Proof.Machine
end

