-- ==== Sys2Proof/Certificates/Slice0/Obligations.lean ====
section
/-! DEFINITION. The statements for the provers, from the numbered rules of spec/. Where a conclusion is a record update of
`s`, everything the update does not name is unchanged: that is the instruction's frame. Where a step enters an error its
`DST` is some `d` of which nothing is said: no claim may mention the content of `DST` when `STATUS = ERROR` (U3, log 15). -/

open Sys2Proof Sys2Proof.Machine

/-! ### Encoding -/

/-- R91 to R94, R98, R99, R110, R221, R222, R224: the decoder, standing where the encoder says the instruction is read,
gives every well-formed encodable instruction back and leaves what follows it. -/
def Obligations.DecodeUndoesEncode : Prop :=
  ∀ (i : Instr) (slot : Slot) (bytes rest : List Byte), i.wf = true → encode i = some (slot, bytes) →
    decode slot (bytes ++ rest) = .ok (i, rest)

/-- R92, R93, R99, R104: at every place of a stream whatever bytes are there decode to a well-formed instruction whose
encoding they are, and they fail to decode only when they are too few. -/
def Obligations.EncodeUndoesDecode : Prop :=
  ∀ (slot : Slot) (bytes : List Byte), slot ≠ .command →
    (bytes.length < slot.width → decode slot bytes = .error .truncated) ∧
      (slot.width ≤ bytes.length → ∃ (i : Instr) (rest : List Byte), decode slot bytes = .ok (i, rest) ∧ i.wf = true ∧
        encode i = some (slot, bytes.take slot.width) ∧ rest = bytes.drop slot.width)

/-- R98: packing is the sum of two fields that share no bit, sent low byte first; R99: unpacking undoes it on the whole legal
range, takes the low 11 bits and the high 5 bits, and every 16-bit pair unpacks into the legal range. -/
def Obligations.UnpackUndoesPack : Prop :=
  (∀ o l : Nat, o ≤ 2047 → 3 ≤ l → l ≤ 34 →
    packPair o l = o + 2048 * (l - 3) ∧ packPair o l ≤ 0xFFFF ∧ pairOffset (packPair o l) = o ∧
      pairLength (packPair o l) = l ∧
      encode (.matchPair o l) =
        some (.pair, [BitVec.ofNat 8 (packPair o l % 256), BitVec.ofNat 8 (packPair o l / 256)])) ∧
    (∀ b0 b1 : Byte, decode .pair [b0, b1] =
      .ok (.matchPair ((b0.toNat + 256 * b1.toNat) % 2048) ((b0.toNat + 256 * b1.toNat) / 2048 + 3), [])) ∧
    ∀ pair : Nat, pair ≤ 0xFFFF →
      pairOffset pair = pair % 2048 ∧ pairLength pair = pair / 2048 + 3 ∧ 3 ≤ pairLength pair ∧ pairLength pair ≤ 34 ∧
        packPair (pairOffset pair) (pairLength pair) = pair

/-- R12: little-endian assembly and its inverse, both ways, for two and for four bytes. -/
def Obligations.LittleEndianInverse : Prop :=
  (∀ v : Nat, v < 2 ^ 16 → ∃ b0 b1, bytes16 v = [b0, b1] ∧ le16 b0 b1 = v) ∧
    (∀ v : Nat, v < 2 ^ 32 → ∃ b0 b1 b2 b3, bytes32 v = [b0, b1, b2, b3] ∧ le32 b0 b1 b2 b3 = v) ∧
    (∀ b0 b1 : Byte, le16 b0 b1 < 2 ^ 16 ∧ bytes16 (le16 b0 b1) = [b0, b1]) ∧
    ∀ b0 b1 b2 b3 : Byte, le32 b0 b1 b2 b3 < 2 ^ 32 ∧ bytes32 (le32 b0 b1 b2 b3) = [b0, b1, b2, b3]

/-- Words written out from the spec's encodings (R91 to R94, R98's example, R110's example, R221, R222, R224) decode to the
instructions they stand for. -/
def Obligations.SpecWordsDecode : Prop :=
  decode .header [0x30#8, 0x00#8, 0x00#8, 0x00#8] = .ok (.header 48, []) ∧
    decode .header [0x34#8, 0x08#8, 0x00#8, 0x00#8] = .ok (.header 2100, []) ∧
    decode .control [0x08#8, 0x61#8] = .ok (.control 0x08#8, [0x61#8]) ∧
    decode .literal [0x61#8] = .ok (.literal 0x61#8, []) ∧
    decode .pair [0x04#8, 0x08#8] = .ok (.matchPair 4 4, []) ∧
    decode .pair [0xFF#8, 0xFF#8] = .ok (.matchPair 2047 34, []) ∧
    decode .pair [0x00#8, 0x38#8] = .ok (.matchPair 0 10, []) ∧
    decode .command [0x01#8] = .ok (.cmdCompress, []) ∧
    decode .command [0x02#8] = .ok (.cmdDecompress, []) ∧
    decode .command [0x00#8] = .ok (.cmdReserved 0#2, []) ∧
    decode .command [0x03#8] = .ok (.cmdReserved 3#2, [])

/-! ### The step -/

/-- A step runs what `fetch` gives, on the state without the host's move; where `fetch` gives nothing it is a host write, an
idle step in `HALT` (log 3) or the stuck state (log 11). The model's host moves are log 2. -/
def Obligations.StepRunsFetchedInstruction : Prop :=
  (∀ (s : State) (i : Instr), fetch s = some i → step s = exec i (popHost s)) ∧
    (∀ s : State, s.EngineTurn → s.ph = .halt → step s = .next (popHost s)) ∧
    (∀ (s : State) (v : BitVec 32) (h : List HostMove), s.host = .writeSrcLen v :: h →
      step s = hostWriteSrcLen v (popHost s)) ∧
    (∀ (s : State) (a : Nat) (b : Byte) (h : List HostMove), s.host = .writeSrc a b :: h →
      step s = hostWriteSrc a b (popHost s)) ∧
    ∀ s : State, s.EngineTurn → s.ph ≠ .halt → selectOp s = none → step s = .fault .nothingSelected

/-- R96, R109: when the bytes at the decoder's cursor are a stream element, the engine's step is that element's meaning. -/
def Obligations.StepRunsDecodedElement : Prop :=
  ∀ (s : State) (i : Instr), elementAt s = some i →
    i.wf = true ∧ engineStep s = exec i s ∧ (s.EngineTurn → step s = exec i (popHost s))

/-- R109 (`produces`): the encoder's step is the meaning of the element it produces. -/
def Obligations.StepPutsProducedElement : Prop :=
  ∀ (s : State) (i : Instr), elementPut s = some i →
    engineStep s = exec i s ∧ (s.EngineTurn → step s = exec i (popHost s))

/-- R30: in every phase but `HALT` exactly one micro-operation is enabled: one is not refused as not selected, and it is the
one the sequencer selects; in `HALT` none is. `BIT`, `OP` and `I` need be in their ranges (R26, R27) only in `D_TOKEN` and
`D_COPY`, which look at them. The refusal by name is the model's (log 1). -/
def Obligations.ExactlyOneOperationEnabled : Prop :=
  (∀ s : State, s.ph ≠ .halt → (s.ph = .dToken → s.bit ≤ 8 ∧ s.op ≤ s.n) → (s.ph = .dCopy → s.i ≤ s.len) →
    ∃ i ∈ microOps, selectOp s = some i ∧ exec i s ≠ .refused .notSelected ∧
      ∀ j ∈ microOps, j ≠ i → exec j s = .refused .notSelected) ∧
    ∀ s : State, s.ph = .halt → ∀ j ∈ microOps, exec j s = .refused .notSelected

/-- R31: the engine moves between phases only along the rows of the table, `STATUS` leaves `BUSY` only with a move to
`HALT`, and then it is `DONE` (with `ERR` as it was) or `ERROR` (with a cause). -/
def Obligations.PhasesFollowTransitionTable : Prop :=
  ∀ s t : State, s.ph ≠ .halt → engineStep s = .next t →
    (s.ph, t.ph) ∈ transitions ∧ (t.ph ≠ .halt → t.status = s.status ∧ t.err = s.err) ∧
      (t.ph = .halt → (t.status = .done ∧ t.err = s.err ∧ (s.ph = .cOpen ∨ s.ph = .dCtrl)) ∨
        (t.status = .error ∧ t.err ≠ .none ∧ t.dstLen = 0))

/-- R61, R20: no instruction and no step of the engine writes `SRC`, `SRC_LEN` or the parameters; RESET alone clears the
first two. -/
def Obligations.OnlyHostWritesSource : Prop :=
  ∀ (i : Instr) (s t : State), exec i s = .next t →
    t.caps = s.caps ∧ t.host = s.host ∧ (i ≠ .reset → t.src = s.src ∧ t.srcLen = s.srcLen)

/-- R62, R68: during COMPRESS the output is append-only: a step of the engine leaves every byte below `DST_LEN` and does
not lower `DST_LEN`, unless it enters an error. -/
def Obligations.CompressOnlyAppends : Prop :=
  ∀ s t : State, s.ph.compressing = true → engineStep s = .next t →
    t.status = .error ∨ (s.dstLen ≤ t.dstLen ∧ ∀ a, a < s.dstLen ∨ t.dstLen ≤ a → t.dst.read a = s.dst.read a)

/-- R71, R61: the engine reads no byte of `SRC` at or beyond `SRC_LEN`: from a sound state, whatever is stored there, the
step answers the same and leaves the same registers and `DST`. -/
def Obligations.EngineReadsOnlyValidSource : Prop :=
  ∀ (s : State) (m : Memory), s.Inv → s.SourceWritten → (∀ a, a < s.srcLen → m.read a = s.src.read a) →
    ∃ t : State, engineStep s = .next t ∧ engineStep { s with src := m } = .next { t with src := m }

/-! ### Host commands and host writes -/

/-- R221: CMD.COMPRESS starts a compression from a clean state, when not BUSY and `SRC_LEN <= SRC_CAP`; every `DST` byte holds
no value (R39). `SRC`, `SRC_LEN` and the parameters are unchanged; the other working registers hold no value, so nothing is
said of them. Where it is not enabled it has no effect (BUSY, R225) or is refused (`SRC_LEN > SRC_CAP`: the model's reading
of U12, log 13). That `DST` reads as empty is the model's reading of R39 (log 10). -/
def Obligations.CompressCommandStarts : Prop :=
  ∀ s : State,
    (s.status ≠ .busy → s.srcLen ≤ s.caps.src.toNat →
      ∃ t : State, exec .cmdCompress s = .next t ∧ t.n = s.srcLen ∧ t.r = 0 ∧ t.dstLen = 0 ∧ t.err = .none ∧
        t.status = .busy ∧ t.ph = .cHeader ∧ (∀ a, t.dst.read a = none) ∧ t.srcLen = s.srcLen ∧ t.src = s.src ∧
        t.caps = s.caps ∧ t.host = s.host) ∧
      (s.status = .busy → exec .cmdCompress s = .next s) ∧
      (s.status ≠ .busy → s.caps.src.toNat < s.srcLen → exec .cmdCompress s = .refused .srcLenAboveCap)

/-- R222: CMD.DECOMPRESS starts a decompression from a clean state, when not BUSY and `SRC_LEN <= SRC_CAP`; every `DST` byte
holds no value (R39). `SRC`, `SRC_LEN` and the parameters are unchanged; the other working registers hold no value, so
nothing is said of them. Where it is not enabled it has no effect (BUSY, R225) or is refused (`SRC_LEN > SRC_CAP`, U12,
log 13: the model's reading). That `DST` reads as empty is the model's reading of R39 (log 10). -/
def Obligations.DecompressCommandStarts : Prop :=
  ∀ s : State,
    (s.status ≠ .busy → s.srcLen ≤ s.caps.src.toNat →
      ∃ t : State, exec .cmdDecompress s = .next t ∧ t.m = s.srcLen ∧ t.ip = 0 ∧ t.op = 0 ∧ t.dstLen = 0 ∧
        t.err = .none ∧ t.status = .busy ∧ t.ph = .dHeader ∧ (∀ a, t.dst.read a = none) ∧ t.srcLen = s.srcLen ∧
        t.src = s.src ∧ t.caps = s.caps ∧ t.host = s.host) ∧
      (s.status = .busy → exec .cmdDecompress s = .next s) ∧
      (s.status ≠ .busy → s.caps.src.toNat < s.srcLen → exec .cmdDecompress s = .refused .srcLenAboveCap)

/-- R225: a write to `CMD`, of any code, or to `SRC_LEN` while BUSY has no effect on any state: the step consumes the host's
move (log 2) and changes nothing else, so the command continues. -/
def Obligations.WritesWhileBusyIgnored : Prop :=
  ∀ (s : State), s.status = .busy →
    (∀ (code : BitVec 2) (h : List HostMove), s.host = .cmd code :: h → step s = .next { s with host := h }) ∧
      ∀ (v : BitVec 32) (h : List HostMove), s.host = .writeSrcLen v :: h → step s = .next { s with host := h }

/-- R224, R225, U7: what a write of a reserved code, 0 or 3, does. While BUSY it has no effect, like any write of `CMD` (R225);
while not BUSY the model refuses it, as R224 and U7 ask. That the two cases are parted so is the model's reading (log 12). -/
def Obligations.ReservedCodeRefused : Prop :=
  ∀ (code : BitVec 2) (s : State), code = 0#2 ∨ code = 3#2 →
    commandOf code = .cmdReserved code ∧
      (s.status = .busy → exec (.cmdReserved code) s = .next s) ∧
      (s.status ≠ .busy → exec (.cmdReserved code) s = .refused .reservedCommand)

/-- R273, R277, R63, U12 and the model's choices of log 13 and log 14: what the host's writes of `SRC` and `SRC_LEN` do while
not BUSY, and that a write of `SRC` has no move while BUSY. -/
def Obligations.HostWritesLoadSource : Prop :=
  (∀ (s : State) (a : Nat) (b : Byte), s.status ≠ .busy → a < s.caps.src.toNat →
    ∃ m : Memory, hostWriteSrc a b s = .next { s with src := m } ∧ m.read a = some b ∧
      ∀ x, x ≠ a → m.read x = s.src.read x) ∧
    (∀ (s : State) (a : Nat) (b : Byte), s.status ≠ .busy → s.caps.src.toNat ≤ a →
      hostWriteSrc a b s = .fault .srcAddress) ∧
    (∀ (s : State) (a : Nat) (b : Byte), s.status = .busy → hostWriteSrc a b s = .refused .srcWriteWhileBusy) ∧
    (∀ (s : State) (v : BitVec 32), s.status ≠ .busy → v.toNat ≤ s.caps.src.toNat →
      hostWriteSrcLen v s = .next { s with srcLen := v.toNat }) ∧
    ∀ (s : State) (v : BitVec 32), s.status ≠ .busy → s.caps.src.toNat < v.toNat →
      hostWriteSrcLen v s = .refused .srcLenAboveCap

/-! ### Matcher -/

/-- R121: M.START, in numbers: no match is attempted with fewer than 3 bytes left; otherwise the window is the up to 2048
bytes before the cursor. -/
def Obligations.MStartBeginsSearch : Prop :=
  ∀ s : State, s.ph = .mStart →
    (s.n - s.r < 3 → exec .mStart s = .next { s with found := false, ph := .cEmit }) ∧
      (3 ≤ s.n - s.r → exec .mStart s =
        .next { s with found := false, ws := s.r - 2048, wlen := min s.r 2048, clen := 3, ph := .mSearch })

/-- R122, R13, R123: M.SEARCH finds the leftmost occurrence that lies wholly in the window, or none; a window shorter than
the candidate fails without reading memory. -/
def Obligations.MSearchFindsLeftmost : Prop :=
  ∀ s : State, s.ph = .mSearch → 0 < s.clen →
    (s.wlen < s.clen → exec .mSearch s = .next { s with ph := .cEmit }) ∧
      ((∀ a, s.ws ≤ a → a < s.ws + s.wlen → s.src.read a ≠ none) →
        (∀ a, s.r ≤ a → a < s.r + s.clen → s.src.read a ≠ none) →
        (∀ j, s.OccursAt j → (∀ k, k < j → ¬ s.OccursAt k) →
          exec .mSearch s = .next { s with found := true, boff := j, blen := s.clen, ph := .mExtend }) ∧
          ((∀ j, ¬ s.OccursAt j) → exec .mSearch s = .next { s with ph := .cEmit }))

/-- R124: M.EXTEND stops at 34 or at the end of the source, and otherwise grows the candidate by one byte. -/
def Obligations.MExtendGrowsCandidate : Prop :=
  ∀ s : State, s.ph = .mExtend →
    (s.clen = 34 ∨ s.r + s.clen = s.n → exec .mExtend s = .next { s with ph := .cEmit }) ∧
      (s.clen ≠ 34 → s.r + s.clen ≠ s.n → exec .mExtend s = .next { s with clen := s.clen + 1, ph := .mSearch })

/-- R126, R129, R120: run from `M_START` with source `S`, the Matcher hands control back within 65 steps with
`FindMatch(S, R)` in `FOUND`, `BOFF`, `BLEN`, and has changed only its own registers. -/
def Obligations.MatcherComputesFindMatch : Prop :=
  ∀ (s : State) (S : List Byte), s.ph = .mStart → s.n = S.length → s.r < s.n →
    (∀ a, a < S.length → s.src.read a = S[a]?) →
    ∃ (k : Nat) (t : State), k ≤ 65 ∧ runEngine k s = .next t ∧ t.ph = .cEmit ∧
      (findMatch S s.r = none → t.found = false) ∧
      (∀ o l, findMatch S s.r = some (o, l) → t.found = true ∧ t.boff = o ∧ t.blen = l) ∧
      t = { s with
            ph := .cEmit, found := t.found, ws := t.ws, wlen := t.wlen, clen := t.clen, boff := t.boff, blen := t.blen }

/-- R127: the match found is the longest that occurs wholly in the window, up to 34 bytes and the end of the source, and the
leftmost of that length; no match exactly when no 3 bytes occur or fewer than 3 are left. -/
def Obligations.FindMatchIsLongestLeftmost : Prop :=
  ∀ (S : List Byte) (r : Nat), r < S.length →
    (findMatch S r = none ↔
      S.length - r < 3 ∨ ∀ j, ¬ OccursIn (slice S (r - 2048) r) (slice S r (r + 3)) j) ∧
      ∀ o l, findMatch S r = some (o, l) ↔
        3 ≤ l ∧ l ≤ min 34 (S.length - r) ∧ OccursIn (slice S (r - 2048) r) (slice S r (r + l)) o ∧
          (∀ k, k < o → ¬ OccursIn (slice S (r - 2048) r) (slice S r (r + l)) k) ∧
          ∀ L, l < L → L ≤ min 34 (S.length - r) → ∀ j, ¬ OccursIn (slice S (r - 2048) r) (slice S r (r + L)) j

/-- R131, R105: what `FindMatch` returns is a valid match wholly before the cursor, with offset at most 2045. -/
def Obligations.FindMatchIsValid : Prop :=
  ∀ (S : List Byte) (r o l : Nat), r < S.length → findMatch S r = some (o, l) →
    3 ≤ l ∧ l ≤ 34 ∧ r + l ≤ S.length ∧ o + l ≤ r - (r - 2048) ∧ r - (r - 2048) ≤ 2048 ∧ o ≤ 2045 ∧
      ∀ k, k < l → S[r - 2048 + o + k]? = S[r + k]?

/-- R128: the leftmost occurrence of a longer candidate is not to the left of that of a shorter one. -/
def Obligations.LongerCandidateNotFurtherLeft : Prop :=
  ∀ (Wd P Q : List Byte) (i j : Nat), find Wd P = some i → find Wd (P ++ Q) = some j → i ≤ j

/-! ### Token Encoder -/

/-- R151: E.HEADER appends the four bytes of `N`, least significant first; with `DST_CAP < 4` it enters the error CAPACITY
(R245). -/
def Obligations.EHeaderWritesLength : Prop :=
  ∀ s : State, s.ph = .cHeader →
    (4 ≤ s.caps.dst → ∃ d : Memory,
      exec .eHeader s = .next { s with dst := d, dstLen := s.dstLen + 4, ph := .cOpen } ∧
        (∀ k, k < 4 → d.read (s.dstLen + k) = some (BitVec.ofNat 8 (s.n / 256 ^ k))) ∧
        ∀ a, a < s.dstLen ∨ s.dstLen + 4 ≤ a → d.read a = s.dst.read a) ∧
      (s.caps.dst < 4 → ∃ d : Memory, exec .eHeader s =
        .next { s with dst := d, err := .capacity, dstLen := 0, status := .error, ph := .halt })

/-- R152: E.OPEN completes when the source is exhausted and otherwise opens a block with clean block-scoped state; `PBUF`
then holds free values (log 7, log 8), about which nothing is said. -/
def Obligations.EOpenOpensOrCompletes : Prop :=
  ∀ s : State, s.ph = .cOpen →
    (s.r = s.n → exec .eOpen s = .next { s with status := .done, ph := .halt }) ∧
      (s.r ≠ s.n → ∃ t : State, exec .eOpen s = .next t ∧
        t = { s with ctrl := 0#8, tok := 0, plen := 0, ph := .mStart, pbuf := t.pbuf, free := t.free })

/-- R153: E.LIT puts the byte at the cursor into `PBUF[PLEN]`; the tests use the updated `TOK` and `R`. -/
def Obligations.ELitEmitsLiteral : Prop :=
  ∀ (s : State) (b : Byte), s.ph = .cEmit → s.found = false → s.src.read s.r = some b → s.plen < 16 →
    ∃ p : Vector Byte 16,
      exec .eLit s = .next { s with
        pbuf := p, plen := s.plen + 1, r := s.r + 1, tok := s.tok + 1,
        ph := if s.tok + 1 = 8 ∨ s.r + 1 = s.n then .cClose else .mStart } ∧
        p[s.plen]? = some b ∧ ∀ k, k ≠ s.plen → p[k]? = s.pbuf[k]?

/-- R154, R94: E.MATCH sets control bit `TOK`, puts the pair's two bytes (the low eight bits of the offset; its high three
bits and the length minus 3) into `PBUF`, and moves the cursor by the length. -/
def Obligations.EMatchEmitsPair : Prop :=
  ∀ s : State, s.ph = .cEmit → s.found = true → s.tok < 8 → s.plen + 1 < 16 → s.boff ≤ 2047 → 3 ≤ s.blen → s.blen ≤ 34 →
    ∃ (p : Vector Byte 16) (c : Byte),
      exec .eMatch s = .next { s with
        ctrl := c, pbuf := p, plen := s.plen + 2, r := s.r + s.blen, tok := s.tok + 1,
        ph := if s.tok + 1 = 8 ∨ s.r + s.blen = s.n then .cClose else .mStart } ∧
        (∀ k, ctrlBit c k = (ctrlBit s.ctrl k || decide (k = s.tok))) ∧
        p[s.plen]? = some (BitVec.ofNat 8 s.boff) ∧
        p[s.plen + 1]? = some (BitVec.ofNat 8 (s.boff / 256 + 8 * (s.blen - 3))) ∧
        ∀ k, k ≠ s.plen → k ≠ s.plen + 1 → p[k]? = s.pbuf[k]?

/-- R155: E.CLOSE appends the control byte and then `PBUF[0:PLEN]`; when they do not fit `DST_CAP` it enters the error
CAPACITY and writes nothing (R245). -/
def Obligations.ECloseWritesBlock : Prop :=
  ∀ s : State, s.ph = .cClose → s.plen ≤ 16 →
    (s.dstLen + 1 + s.plen ≤ s.caps.dst → ∃ d : Memory,
      exec .eClose s = .next { s with dst := d, dstLen := s.dstLen + 1 + s.plen, ph := .cOpen } ∧
        d.read s.dstLen = some s.ctrl ∧ (∀ k, k < s.plen → d.read (s.dstLen + 1 + k) = s.pbuf[k]?) ∧
        ∀ a, a < s.dstLen ∨ s.dstLen + 1 + s.plen ≤ a → d.read a = s.dst.read a) ∧
      (s.caps.dst < s.dstLen + 1 + s.plen → ∃ d : Memory, exec .eClose s =
        .next { s with dst := d, err := .capacity, dstLen := 0, status := .error, ph := .halt })

/-- R157: `Compress(S)` is the byte form of `Header(N)` and the tokens of the greedy parse, in blocks of 8. For
lists of `2^32` bytes or more, which the spec leaves undefined (R160), it speaks of the model's choice (log 22). -/
def Obligations.CompressIsBytesOfTokens : Prop :=
  ∀ S : List Byte, compress S = streamBytes S.length (tokens S)

/-- R166: the size of a compressed stream is at most `4 + N + ceil(N / 8)`. For lists of `2^32` bytes or more, which the spec
leaves undefined (R160), it speaks of the model's choice (log 22). -/
def Obligations.CompressedSizeBound : Prop :=
  ∀ S : List Byte, (compress S).length ≤ 4 + S.length + (S.length + 7) / 8

/-- R156, R161, R223, R245: a COMPRESS command on `S` ends within the spec's step bound; its result is `Compress(S)` when
that fits `DST_CAP`, and the error CAPACITY otherwise. -/
def Obligations.CompressCommandComputesCompress : Prop :=
  ∀ (s : State) (S : List Byte), s.status ≠ .busy → s.Holds S →
    ∃ (k : Nat) (t : State), k ≤ 2 + 68 * S.length ∧ runCommand .cmdCompress k s = .next t ∧ t.ph = .halt ∧
      ((compress S).length ≤ s.caps.dst → callResult t = some (.ok (compress S)) ∧ t.err = .none) ∧
      (s.caps.dst < (compress S).length → callResult t = some (.error .capacity))

/-! ### Stream Decoder -/

/-- R181, R100: D.HEADER assembles `N` from the four bytes at `SRC:0`; fewer than four bytes is the error HEADER, before any
is read, and an announced length above `DST_CAP` the error CAPACITY. -/
def Obligations.DHeaderReadsLength : Prop :=
  ∀ s : State, s.ph = .dHeader →
    (s.m < 4 → ∃ d : Memory,
      exec .dHeader s = .next { s with dst := d, err := .header, dstLen := 0, status := .error, ph := .halt }) ∧
      ∀ b0 b1 b2 b3 : Byte, 4 ≤ s.m → s.src.read 0 = some b0 → s.src.read 1 = some b1 → s.src.read 2 = some b2 →
        s.src.read 3 = some b3 → ∀ n, n = b0.toNat + 256 * b1.toNat + 65536 * b2.toNat + 16777216 * b3.toNat →
        (n ≤ s.caps.dst → exec .dHeader s = .next { s with n := n, ip := 4, op := 0, ph := .dCtrl }) ∧
          (s.caps.dst < n → ∃ d : Memory, exec .dHeader s = .next { s with
            n := n, ip := 4, op := 0, dst := d, err := .capacity, dstLen := 0, status := .error, ph := .halt })

/-- R182: D.CTRL completes when `N` bytes have been produced, before any read; otherwise it reads the next control byte, and
with no byte left enters the error EXHAUSTED. -/
def Obligations.DCtrlReadsControlByte : Prop :=
  ∀ s : State, s.ph = .dCtrl →
    (s.op = s.n → exec .dCtrl s = .next { s with dstLen := s.n, status := .done, ph := .halt }) ∧
      (s.op ≠ s.n → s.m ≤ s.ip → ∃ d : Memory,
        exec .dCtrl s = .next { s with dst := d, err := .exhausted, dstLen := 0, status := .error, ph := .halt }) ∧
      ∀ c : Byte, s.op ≠ s.n → s.ip < s.m → s.src.read s.ip = some c →
        exec .dCtrl s = .next { s with ctrl := c, ip := s.ip + 1, bit := 0, ph := .dToken }

/-- R183: D.ENDBLOCK leaves the block after bit 7 or as soon as the output is complete. -/
def Obligations.DEndblockLeavesBlock : Prop :=
  ∀ s : State, s.ph = .dToken → s.bit = 8 ∨ s.op = s.n → exec .dEndblock s = .next { s with ph := .dCtrl }

/-- R184: D.LIT copies one byte from `SRC:IP` to `DST:OP`; with no byte left it enters the error EXHAUSTED. -/
def Obligations.DLitCopiesByte : Prop :=
  ∀ s : State, s.ph = .dToken → s.bit < 8 → s.op < s.n → ctrlBit s.ctrl s.bit = false →
    (s.m ≤ s.ip → ∃ d : Memory,
      exec .dLit s = .next { s with dst := d, err := .exhausted, dstLen := 0, status := .error, ph := .halt }) ∧
      ∀ b : Byte, s.ip < s.m → s.src.read s.ip = some b → s.op < s.caps.dst → ∃ d : Memory,
        exec .dLit s = .next { s with dst := d, ip := s.ip + 1, op := s.op + 1, bit := s.bit + 1 } ∧
          d.read s.op = some b ∧ ∀ a, a ≠ s.op → d.read a = s.dst.read a

/-- R185, R99: D.PAIR on a pair that passes the three checks: the two bytes, low first, give the offset (low 11 bits) and the
length (high 5 bits plus 3), and the copy starts. -/
def Obligations.DPairStartsCopy : Prop :=
  ∀ (s : State) (b0 b1 : Byte) (o l : Nat), s.ph = .dToken → s.bit < 8 → s.op < s.n → ctrlBit s.ctrl s.bit = true →
    s.ip + 2 ≤ s.m → s.src.read s.ip = some b0 → s.src.read (s.ip + 1) = some b1 →
    o = b0.toNat + 256 * (b1.toNat % 8) → l = b1.toNat / 8 + 3 →
    s.op + l ≤ s.n → s.op - 2048 + o + l ≤ s.n → o < s.op - (s.op - 2048) →
    exec .dPair s = .next { s with ip := s.ip + 2, off := o, len := l, ws := s.op - 2048, i := 0, ph := .dCopy }

/-- R185, R186, R241 to R244, R248: how D.PAIR fails, in the order of its tests: EXHAUSTED with fewer than two bytes left and
nothing consumed; then RANGE on the destination or the source; then WINDOW. -/
def Obligations.DPairRejectsInOrder : Prop :=
  ∀ s : State, s.ph = .dToken → s.bit < 8 → s.op < s.n → ctrlBit s.ctrl s.bit = true →
    (s.m - s.ip < 2 → ∃ d : Memory,
      exec .dPair s = .next { s with dst := d, err := .exhausted, dstLen := 0, status := .error, ph := .halt }) ∧
      ∀ (b0 b1 : Byte) (o l : Nat), 2 ≤ s.m - s.ip → s.src.read s.ip = some b0 → s.src.read (s.ip + 1) = some b1 →
        o = b0.toNat + 256 * (b1.toNat % 8) → l = b1.toNat / 8 + 3 →
        (s.n < s.op + l ∨ s.n < s.op - 2048 + o + l → ∃ d : Memory, exec .dPair s = .next { s with
          ip := s.ip + 2, off := o, len := l, ws := s.op - 2048, dst := d,
          err := .range, dstLen := 0, status := .error, ph := .halt }) ∧
          (s.op + l ≤ s.n → s.op - 2048 + o + l ≤ s.n → s.op - (s.op - 2048) ≤ o → ∃ d : Memory,
            exec .dPair s = .next { s with
              ip := s.ip + 2, off := o, len := l, ws := s.op - 2048, dst := d,
              err := .window, dstLen := 0, status := .error, ph := .halt })

/-- R187: D.COPY copies one byte, from `DST:(WS + OFF + I)` to `DST:(OP + I)`; `OP` does not move. -/
def Obligations.DCopyCopiesOneByte : Prop :=
  ∀ (s : State) (b : Byte), s.ph = .dCopy → s.i < s.len → s.dst.read (s.ws + s.off + s.i) = some b →
    copyTarget s < s.caps.dst → copyTarget s = s.op + s.i ∧ ∃ d : Memory,
      exec .dCopy s = .next { s with dst := d, i := s.i + 1 } ∧
        d.read (copyTarget s) = some b ∧ ∀ a, a ≠ copyTarget s → d.read a = s.dst.read a

/-- R188: D.COPYEND moves the output cursor past the match and goes on to the next token. -/
def Obligations.DCopyendFinishesMatch : Prop :=
  ∀ s : State, s.ph = .dCopy → s.i = s.len →
    exec .dCopyend s = .next { s with op := s.op + s.len, bit := s.bit + 1, ph := .dToken }

/-- R189, R280, R75: a valid Match, run to its end, repeats the `d` bytes before the cursor periodically, where `d` is the
distance from the cursor back to the first source byte: the overlapping, run-length copy included. -/
def Obligations.MatchCopyIsPeriodic : Prop :=
  ∀ (s : State) (d : Nat), s.ph = .dCopy → s.i = 0 → s.ws + s.off < s.op → d = s.op - (s.ws + s.off) →
    s.op + s.len ≤ s.caps.dst → (∀ a, a < s.op → s.dst.read a ≠ none) →
    ∃ m : Memory,
      runEngine (s.len + 1) s =
        .next { s with dst := m, i := s.len, op := s.op + s.len, bit := s.bit + 1, ph := .dToken } ∧
        (∀ k, k < s.len → m.read (s.op + k) = s.dst.read (s.op - d + k % d)) ∧
        ∀ a, a < s.op ∨ s.op + s.len ≤ a → m.read a = s.dst.read a

/-- R191, R192, R223: a DECOMPRESS command on `C` ends within the spec's step bound, with the result of `Decompress(C)` for
this `DST_CAP`: the bytes, or the error's cause. -/
def Obligations.DecompressCommandComputesDecompress : Prop :=
  ∀ (s : State) (C : List Byte), s.status ≠ .busy → s.Holds C →
    ∃ (k : Nat) (t : State), k ≤ 2 + 5 * announced C ∧ runCommand .cmdDecompress k s = .next t ∧ t.ph = .halt ∧
      (∀ X, decompressWithin s.caps.dst C = .ok X → callResult t = some (.ok X) ∧ t.err = .none) ∧
      ∀ code, decompressWithin s.caps.dst C = .error code → callResult t = some (.error (errOf code)) ∧ t.dstLen = 0

/-- R97, R108: `Decompress` succeeds with `X` exactly when the stream matches the grammar with output `X`. For a
`C` of `2^32` bytes or more, which R191 does not speak of, it is about the model's choice (log 22). -/
def Obligations.DecompressIffGrammar : Prop :=
  ∀ C X : List Byte, decompress C = .ok X ↔ StreamOf C X

/-- R108: the decoder decodes the byte form of every valid parse of a source, whoever chose the tokens. -/
def Obligations.ValidParseDecodes : Prop :=
  ∀ (X : List Byte) (ts : List Token), X.length < 2 ^ 32 → ValidParse X 0 ts →
    decompress (streamBytes X.length ts) = .ok X

/-- R228: the round trip. -/
def Obligations.DecompressUndoesCompress : Prop :=
  ∀ S : List Byte, S.length < 2 ^ 32 → decompress (compress S) = .ok S

/-- R233: a compressed stream without its last byte is rejected: EXHAUSTED for a source of one byte or more, HEADER for the
empty source. -/
def Obligations.TruncatedStreamRejected : Prop :=
  ∀ S : List Byte, S.length < 2 ^ 32 →
    (1 ≤ S.length → decompress (compress S).dropLast = .error .exhausted) ∧
      (S.length = 0 → decompress (compress S).dropLast = .error .header)

/-- R102: bytes after the last consumed byte are never read: they do not change the result. Where `C ++ T` has
`2^32` bytes or more, which R191 does not speak of, it is about the model's choice (log 22). -/
def Obligations.TrailingBytesIgnored : Prop :=
  ∀ C X T : List Byte, decompress C = .ok X → decompress (C ++ T) = .ok X

/-- R101, U6: control bits of tokens beyond the end of the output are never consulted: a block whose first `t` tokens
complete the output decodes the same under every control byte with the same first `t` bits. -/
def Obligations.UnusedControlBitsIgnored : Prop :=
  ∀ (n t : Nat) (c c' : Byte) (input rest out X : List Byte), t ≤ 8 → (∀ k, k < t → ctrlBit c k = ctrlBit c' k) →
    decodeTokens n c t 0 input out = .ok (rest, X) → n ≤ X.length →
    decodeTokens n c' 8 0 input out = .ok (rest, X)

/-! ### Stream elements as instructions -/

/-- R91, R181, R151: HEADER, taken by the decoder in `D_HEADER` and put by the encoder in `C_HEADER`. -/
def Obligations.HeaderElementTakenOrPut : Prop :=
  (∀ (n : Nat) (s : State), s.ph = .dHeader → 4 ≤ s.m → n ≤ s.caps.dst →
    exec (.header n) s = .next { s with n := n, ip := 4, op := 0, ph := .dCtrl }) ∧
    ∀ (n : Nat) (s : State), s.ph = .cHeader → 4 ≤ s.caps.dst → ∃ d : Memory,
      exec (.header n) s = .next { s with dst := d, dstLen := s.dstLen + 4, ph := .cOpen } ∧
        (∀ k, k < 4 → d.read (s.dstLen + k) = some (BitVec.ofNat 8 (n / 256 ^ k))) ∧
        ∀ a, a < s.dstLen ∨ s.dstLen + 4 ≤ a → d.read a = s.dst.read a

/-- R92, R182, R155: CONTROL, taken by the decoder in `D_CTRL` while output is missing and put by the encoder in `C_CLOSE`,
the block's payload after it. -/
def Obligations.ControlElementTakenOrPut : Prop :=
  (∀ (c : Byte) (s : State), s.ph = .dCtrl → s.op ≠ s.n → s.ip < s.m →
    exec (.control c) s = .next { s with ctrl := c, ip := s.ip + 1, bit := 0, ph := .dToken }) ∧
    ∀ (c : Byte) (s : State), s.ph = .cClose → s.plen ≤ 16 → s.dstLen + 1 + s.plen ≤ s.caps.dst → ∃ d : Memory,
      exec (.control c) s = .next { s with dst := d, dstLen := s.dstLen + 1 + s.plen, ph := .cOpen } ∧
        d.read s.dstLen = some c ∧ (∀ k, k < s.plen → d.read (s.dstLen + 1 + k) = s.pbuf[k]?) ∧
        ∀ a, a < s.dstLen ∨ s.dstLen + 1 + s.plen ≤ a → d.read a = s.dst.read a

/-- R93, R184, R153: LITERAL, taken by the decoder where the token's control bit is 0 and put by the encoder where no match
was found. -/
def Obligations.LiteralElementTakenOrPut : Prop :=
  (∀ (b : Byte) (s : State), s.ph = .dToken → s.bit < 8 → s.op < s.n → ctrlBit s.ctrl s.bit = false → s.ip < s.m →
    s.op < s.caps.dst → ∃ d : Memory,
      exec (.literal b) s = .next { s with dst := d, ip := s.ip + 1, op := s.op + 1, bit := s.bit + 1 } ∧
        d.read s.op = some b ∧ ∀ a, a ≠ s.op → d.read a = s.dst.read a) ∧
    ∀ (b : Byte) (s : State), s.ph = .cEmit → s.found = false → s.plen < 16 → ∃ p : Vector Byte 16,
      exec (.literal b) s = .next { s with
        pbuf := p, plen := s.plen + 1, r := s.r + 1, tok := s.tok + 1,
        ph := if s.tok + 1 = 8 ∨ s.r + 1 = s.n then .cClose else .mStart } ∧
        p[s.plen]? = some b ∧ ∀ k, k ≠ s.plen → p[k]? = s.pbuf[k]?

/-- R94, R185, R154: MATCH, taken by the decoder where the token's control bit is 1 (the copy of R187 follows) and put by
the encoder where a match was found. -/
def Obligations.MatchElementTakenOrPut : Prop :=
  (∀ (o l : Nat) (s : State), s.ph = .dToken → s.bit < 8 → s.op < s.n → ctrlBit s.ctrl s.bit = true → s.ip + 2 ≤ s.m →
    s.op + l ≤ s.n → s.op - 2048 + o + l ≤ s.n → o < s.op - (s.op - 2048) →
    exec (.matchPair o l) s =
      .next { s with ip := s.ip + 2, off := o, len := l, ws := s.op - 2048, i := 0, ph := .dCopy }) ∧
    ∀ (o l : Nat) (s : State), s.ph = .cEmit → s.found = true → s.tok < 8 → s.plen + 1 < 16 → o ≤ 2047 → 3 ≤ l →
      l ≤ 34 → ∃ (p : Vector Byte 16) (c : Byte),
        exec (.matchPair o l) s = .next { s with
          ctrl := c, pbuf := p, plen := s.plen + 2, r := s.r + l, tok := s.tok + 1,
          ph := if s.tok + 1 = 8 ∨ s.r + l = s.n then .cClose else .mStart } ∧
          (∀ k, ctrlBit c k = (ctrlBit s.ctrl k || decide (k = s.tok))) ∧
          p[s.plen]? = some (BitVec.ofNat 8 o) ∧ p[s.plen + 1]? = some (BitVec.ofNat 8 (o / 256 + 8 * (l - 3))) ∧
          ∀ k, k ≠ s.plen → k ≠ s.plen + 1 → p[k]? = s.pbuf[k]?

/-! ### Errors and reset -/

/-- R246: error entry sets `ERR`, `DST_LEN`, `STATUS` and `PH`; every other register and `SRC` keep their values, and no byte
of `DST` is valid for the host. Two things here are the model's choice: X.FAIL executed alone, in any state (log 19; R246
performs it only inside a raising step), and that the host's read of an invalid byte gives none (log 16). -/
def Obligations.ErrorEntryHalts : Prop :=
  ∀ (code : FailCode) (s : State), ∃ t : State, exec (.xFail code) s = .next t ∧
    t = { s with dst := t.dst, err := errOf code, dstLen := 0, status := .error, ph := .halt } ∧
    hostErr t = (match code with
      | .header => 1#3 | .exhausted => 2#3 | .range => 3#3 | .window => 4#3 | .capacity => 5#3) ∧
    hostStatus t = 3#2 ∧ callResult t = some (.error (errOf code)) ∧ ∀ a, hostDst t a = none

/-- R271, R38: RESET, in any state, leaves the block idle with no length and no stored byte; the parameters stay (R20). The
working registers, to which the spec gives no value, are not mentioned (log 6). -/
def Obligations.ResetLeavesIdle : Prop :=
  ∀ s : State, ∃ t : State, exec .reset s = .next t ∧ t.status = .idle ∧ t.err = .none ∧ t.ph = .halt ∧ t.srcLen = 0 ∧
    t.dstLen = 0 ∧ (∀ a, t.src.read a = none) ∧ (∀ a, t.dst.read a = none) ∧ t.caps = s.caps ∧ t.host = s.host

/-- R38: the state after reset, as the spec gives it. -/
def Obligations.ResetStateIsIdle : Prop :=
  State.reset.status = .idle ∧ State.reset.err = .none ∧ State.reset.ph = .halt ∧ State.reset.srcLen = 0 ∧
    State.reset.dstLen = 0 ∧ (∀ a, State.reset.src.read a = none) ∧ (∀ a, State.reset.dst.read a = none) ∧
    hostStatus State.reset = 0#2 ∧ hostErr State.reset = 0#3 ∧ callResult State.reset = none

/-! ### Invariants and runs -/

/-- R21 to R27, R33, R36, R37: every step, the host's moves among them, keeps the invariant: widths and ranges of all
registers, canonical memories within the capacities, `STATUS = BUSY` iff `PH ≠ HALT`, and the invariants of the two
commands, each clause of R36 among them: that the output with the open block decodes to `SRC[0:R]`, and the window and
candidate bounds in `C_EMIT` when a search led there; and of R37, that `BIT <= 8` from the first control byte on. How those
clauses are read is log 21. -/
def Obligations.StepKeepsMachineInvariant : Prop :=
  ∀ s t : State, s.Inv → step s = .next t → t.Inv

/-- The invariant holds after reset (R38, and the zeros of log 6). -/
def Obligations.ResetMeetsMachineInvariant : Prop := State.reset.Inv

/-- R40, R71, R286: from a sound state whose source the host has written, a step of the engine never faults and is never
refused. -/
def Obligations.RunningEngineNeverStops : Prop :=
  ∀ s : State, s.Inv → s.SourceWritten → s.EngineTurn → ∃ t : State, step s = .next t ∧ t.SourceWritten ∧ t.Inv

/-- R35, R234: the end of a command depends on the command, `SRC_LEN`, `SRC[0:SRC_LEN]` and `DST_CAP` alone: two engines that
agree on those, whatever ran on them before, end with the same host-visible result. -/
def Obligations.ResultDependsOnlyOnInput : Prop :=
  ∀ (s s' t t' : State) (command : Instr) (k k' : Nat), command = .cmdCompress ∨ command = .cmdDecompress →
    s.status ≠ .busy → s'.status ≠ .busy → s.srcLen = s'.srcLen → s.caps.dst = s'.caps.dst →
    (∀ a, a < s.srcLen → s.src.read a = s'.src.read a ∧ s.src.read a ≠ none) →
    runCommand command k s = .next t → t.ph = .halt → runCommand command k' s' = .next t' → t'.ph = .halt →
    hostStatus t = hostStatus t' ∧ hostErr t = hostErr t' ∧ t.dstLen = t'.dstLen ∧ callResult t = callResult t'
end

