-- ==== Sys2Proof/Laws/Decode.lean ====
section
/-! SUPPORT. The bounds and lengths of little-endian assembly (00_scope.md R12) and of encodings, for the round trips. -/

namespace Sys2Proof

theorem le16_lt (b0 b1 : Byte) : le16 b0 b1 < 65536 := by
  have h0 := b0.isLt
  have h1 := b1.isLt
  simp only [le16]; omega

theorem le32_lt (b0 b1 b2 b3 : Byte) : le32 b0 b1 b2 b3 < 4294967296 := by
  have h0 := b0.isLt
  have h1 := b1.isLt
  have h2 := b2.isLt
  have h3 := b3.isLt
  simp only [le32]; omega

@[simp] theorem bytes16_length (v : Nat) : (bytes16 v).length = 2 := rfl

@[simp] theorem bytes32_length (v : Nat) : (bytes32 v).length = 4 := rfl

@[simp] theorem lowBytes_length (k w : Nat) : (lowBytes k w).length = k := by
  induction k generalizing w with
  | zero => rfl
  | succ k ih => simp [lowBytes, ih]

end Sys2Proof
end

