-- ==== Sys2Proof/Laws/Memory.lean ====
section
/-! SUPPORT. The laws of a byte space (20_memory.md R60, R67, R74): a read after a write, what a write leaves alone, the
canonical form, ranges of bytes. -/

namespace Sys2Proof.Machine

open Sys2Proof

@[simp] theorem Memory.read_nil (a : Nat) : Memory.read [] a = none := rfl

@[simp] theorem Memory.read_write_same (m : Memory) (a : Nat) (b : Byte) : (m.write a b).read a = some b := by
  induction m with
  | nil => simp [Memory.write, Memory.read]
  | cons c m ih =>
    obtain ⟨x, c⟩ := c
    simp only [Memory.write]
    split
    · simp [Memory.read]
    · split
      · simp [Memory.read]
      · rename_i h1 h2
        simp [Memory.read, Ne.symm h2, ih]

theorem Memory.read_write_ne (m : Memory) {a x : Nat} (b : Byte) (h : x ≠ a) : (m.write a b).read x = m.read x := by
  induction m with
  | nil => simp [Memory.write, Memory.read, Ne.symm h]
  | cons c m ih =>
    obtain ⟨y, c⟩ := c
    simp only [Memory.write]
    split
    · simp [Memory.read, Ne.symm h]
    · split
      · rename_i h1 h2
        subst h2
        simp [Memory.read, Ne.symm h]
      · simp only [Memory.read, ih]

theorem Memory.read_write (m : Memory) (a x : Nat) (b : Byte) :
    (m.write a b).read x = if x = a then some b else m.read x := by
  split
  · subst_vars; simp
  · rename_i h; exact m.read_write_ne b h

/-- The addresses of a memory after a write. -/
theorem Memory.mem_write {m : Memory} {a : Nat} {b : Byte} {c : Host.Cell} (h : c ∈ m.write a b) : c.1 = a ∨ c ∈ m := by
  induction m with
  | nil =>
    simp only [Memory.write, List.mem_singleton] at h
    exact .inl (by simp [h])
  | cons d m ih =>
    obtain ⟨x, d⟩ := d
    simp only [Memory.write] at h
    split at h
    · rcases List.mem_cons.1 h with rfl | h
      · exact .inl rfl
      · exact .inr h
    · split at h
      · rcases List.mem_cons.1 h with rfl | h
        · exact .inl rfl
        · exact .inr (List.mem_cons_of_mem _ h)
      · rcases List.mem_cons.1 h with rfl | h
        · exact .inr (List.mem_cons_self ..)
        · exact (ih h).imp id (List.mem_cons_of_mem _)

/-- A write keeps the canonical form. -/
theorem Memory.wf_write {m : Memory} (a : Nat) (b : Byte) (h : m.wf) : (m.write a b).wf := by
  induction m with
  | nil => simp [Memory.write, Memory.wf]
  | cons c m ih =>
    obtain ⟨x, c⟩ := c
    have hm := List.pairwise_cons.1 h
    simp only [Memory.write]
    split
    · rename_i hax
      refine List.pairwise_cons.2 ⟨fun d hd => ?_, h⟩
      rcases List.mem_cons.1 hd with rfl | hd
      · exact hax
      · exact Nat.lt_trans hax (hm.1 d hd)
    · split
      · rename_i hax
        subst hax
        exact List.pairwise_cons.2 ⟨hm.1, hm.2⟩
      · rename_i h1 h2
        refine List.pairwise_cons.2 ⟨fun d hd => ?_, ih hm.2⟩
        rcases Memory.mem_write hd with hd | hd
        · simp only [hd]; omega
        · exact hm.1 d hd

theorem Memory.wf_nil : Memory.wf [] := List.Pairwise.nil

/-- Writing a list keeps the canonical form. -/
theorem Memory.wf_writeAll {m : Memory} (a : Nat) (bs : List Byte) (h : m.wf) : (m.writeAll a bs).wf := by
  induction bs generalizing m a with
  | nil => exact h
  | cons b bs ih => exact ih (a + 1) (Memory.wf_write a b h)

theorem Memory.mem_writeAll {m : Memory} {a : Nat} {bs : List Byte} {c : Host.Cell} (h : c ∈ m.writeAll a bs) :
    (a ≤ c.1 ∧ c.1 < a + bs.length) ∨ c ∈ m := by
  induction bs generalizing m a with
  | nil => exact .inr h
  | cons b bs ih =>
    rcases ih h with h | h
    · refine .inl ?_
      simp only [List.length_cons]; omega
    · refine (Memory.mem_write h).imp (fun h => ?_) id
      simp only [List.length_cons]; omega

/-- A byte outside what a list write stores reads as before. -/
theorem Memory.read_writeAll_outside (m : Memory) {a x : Nat} (bs : List Byte) (h : x < a ∨ a + bs.length ≤ x) :
    (m.writeAll a bs).read x = m.read x := by
  induction bs generalizing m a with
  | nil => rfl
  | cons b bs ih =>
    simp only [List.length_cons] at h
    simp only [Memory.writeAll]
    rw [ih (m.write a b) (a := a + 1) (by omega), m.read_write_ne b (by omega)]

/-- A byte that a list write stores reads as the list's. -/
theorem Memory.read_writeAll_inside (m : Memory) (a k : Nat) (bs : List Byte) (h : k < bs.length) :
    (m.writeAll a bs).read (a + k) = bs[k]? := by
  induction bs generalizing m a k with
  | nil => simp at h
  | cons b bs ih =>
    simp only [Memory.writeAll]
    cases k with
    | zero => rw [Nat.add_zero, Memory.read_writeAll_outside _ _ (by omega)]; simp
    | succ k =>
      rw [Nat.add_comm k 1, ← Nat.add_assoc, ih _ _ _ (by simpa using h)]
      simp [Nat.add_comm 1]

/-- A range of bytes is a list of that many bytes, each the byte at its address. -/
theorem Memory.range_eq_some {m : Memory} {a k : Nat} {bs : List Byte} :
    m.range a k = some bs ↔ bs.length = k ∧ ∀ j, j < k → m.read (a + j) = bs[j]? := by
  induction k generalizing a bs with
  | zero =>
    simp only [Memory.range, Option.some.injEq]
    constructor
    · rintro rfl; simp
    · rintro ⟨h, -⟩; exact (List.length_eq_zero_iff.1 h).symm
  | succ k ih =>
    simp only [Memory.range]
    constructor
    · intro h
      split at h
      · cases h
      · rename_i b hb
        split at h
        · cases h
        · rename_i bs' hbs
          cases h
          obtain ⟨hl, hr⟩ := ih.1 hbs
          refine ⟨by simp [hl], fun j hj => ?_⟩
          cases j with
          | zero => simpa using hb
          | succ j => rw [Nat.add_comm j 1, ← Nat.add_assoc, hr j (by omega)]; simp [Nat.add_comm 1]
    · rintro ⟨hl, hr⟩
      cases bs with
      | nil => simp at hl
      | cons b bs =>
        have h0 := hr 0 (by omega)
        simp only [Nat.add_zero, List.getElem?_cons_zero] at h0
        have h1 : m.range (a + 1) k = some bs := by
          refine ih.2 ⟨by simpa using hl, fun j hj => ?_⟩
          have := hr (j + 1) (by omega)
          rw [Nat.add_assoc, Nat.add_comm 1 j]
          simpa using this
        simp [h0, h1]

/-- Two ranges one after the other are one range. -/
theorem Memory.range_append {m : Memory} {a j k : Nat} {xs ys : List Byte} (hx : m.range a j = some xs)
    (hy : m.range (a + j) k = some ys) : m.range a (j + k) = some (xs ++ ys) := by
  obtain ⟨hlx, hrx⟩ := Memory.range_eq_some.mp hx
  obtain ⟨hly, hry⟩ := Memory.range_eq_some.mp hy
  refine Memory.range_eq_some.mpr ⟨by simp [hlx, hly], fun i hi => ?_⟩
  by_cases h : i < j
  · rw [hrx i h, List.getElem?_append_left (by omega)]
  · rw [List.getElem?_append_right (by omega), hlx, ← hry (i - j) (by omega)]
    congr 1
    omega

/-- A range is there when all its bytes hold values. -/
theorem Memory.range_isSome {m : Memory} {a k : Nat} (h : ∀ j, j < k → m.read (a + j) ≠ none) :
    ∃ bs, m.range a k = some bs := by
  induction k generalizing a with
  | zero => exact ⟨[], rfl⟩
  | succ k ih =>
    obtain ⟨b, hb⟩ := Option.ne_none_iff_exists'.1 (h 0 (by omega))
    obtain ⟨bs, hbs⟩ := ih (a := a + 1) fun j hj => by
      have := h (j + 1) (by omega)
      rwa [Nat.add_assoc, Nat.add_comm 1 j]
    exact ⟨b :: bs, by simp only [Nat.add_zero] at hb; simp [Memory.range, hb, hbs]⟩

end Sys2Proof.Machine
end

