-- ==== Sys2Proof/Laws/Operands.lean ====
section
/-! SUPPORT. What the operand forms and flag computations do: the window start (00_scope.md R8), the leftmost occurrence
(R13), little-endian assembly (R12), the bits of `CTRL` (10_state.md R34). -/

namespace Sys2Proof.Machine

open Sys2Proof

/-- `WinStart(c)` in numbers (R8). -/
theorem winStart_eq (c : Nat) : winStart c = c - 2048 := rfl

theorem winStart_le (c : Nat) : winStart c ≤ c := by rw [winStart_eq]; omega

theorem winStart_of_le {c : Nat} (h : c ≤ 2048) : winStart c = 0 := by rw [winStart_eq]; omega

theorem sub_winStart_le (c : Nat) : c - winStart c ≤ 2048 := by rw [winStart_eq]; omega

/-- A window is 2048 bytes or all there is before the cursor (R72, R73). -/
theorem sub_winStart (c : Nat) : c - winStart c = min c 2048 := by rw [winStart_eq]; omega

/-- The answer of `Find` is an occurrence wholly inside the window (R13, R123). -/
theorem find_some_spec {w p : List Byte} {j : Nat} (h : find w p = some j) :
    p <+: w.drop j ∧ j + p.length ≤ w.length := by
  induction w generalizing j with
  | nil =>
    simp only [find] at h
    split at h
    · cases h
      rename_i hp
      simp [List.isEmpty_iff.1 hp]
    · cases h
  | cons b w ih =>
    simp only [find] at h
    split at h
    · cases h
      rename_i hp
      have := List.isPrefixOf_iff_prefix.1 hp
      exact ⟨this, by simpa using this.length_le⟩
    · obtain ⟨j', hj', rfl⟩ := Option.map_eq_some_iff.1 h
      obtain ⟨h1, h2⟩ := ih hj'
      exact ⟨by simpa using h1, by simp only [List.length_cons]; omega⟩

/-- No occurrence stands to the left of the answer of `Find`, and none anywhere when there is no answer (R13). -/
theorem find_least {w p : List Byte} {i : Nat} (hp : p <+: w.drop i) (hi : i + p.length ≤ w.length) :
    ∃ j, find w p = some j ∧ j ≤ i := by
  induction w generalizing i with
  | nil =>
    have : p = [] := by
      have := hp.length_le
      simp only [List.drop_nil, List.length_nil, Nat.le_zero] at this
      exact List.length_eq_zero_iff.1 this
    exact ⟨0, by simp [find, this], Nat.zero_le _⟩
  | cons b w ih =>
    by_cases h : p.isPrefixOf (b :: w) = true
    · exact ⟨0, by simp [find, h], Nat.zero_le _⟩
    · cases i with
      | zero => exact absurd (List.isPrefixOf_iff_prefix.2 (by simpa using hp)) h
      | succ i =>
        obtain ⟨j, hj, hle⟩ := ih (i := i) (by simpa using hp) (by simp only [List.length_cons] at hi; omega)
        exact ⟨j + 1, by simp [find, h, hj], by omega⟩

theorem find_none_spec {w p : List Byte} (h : find w p = none) (i : Nat) (hi : i + p.length ≤ w.length) :
    ¬ p <+: w.drop i := fun hp => by
  obtain ⟨j, hj, -⟩ := find_least hp hi
  simp [h] at hj

theorem littleEndian_lt (bs : List Byte) : littleEndian bs < 256 ^ bs.length := by
  induction bs with
  | nil => simp [littleEndian]
  | cons b bs ih =>
    have := b.isLt
    simp only [littleEndian, List.length_cons, Nat.pow_succ]
    omega

@[simp] theorem littleEndian_two (b0 b1 : Byte) : littleEndian [b0, b1] = le16 b0 b1 := by
  simp [littleEndian, le16]

@[simp] theorem littleEndian_four (b0 b1 b2 b3 : Byte) : littleEndian [b0, b1, b2, b3] = le32 b0 b1 b2 b3 := by
  simp only [littleEndian, le32]; omega

/-- A pair's offset is at most 2047 whatever its bits (R99). -/
theorem pairOffset_lt (pair : Nat) : pairOffset pair < 2048 := by
  have : pairOffset pair ≤ 2047 := Nat.and_le_right
  omega

/-- A 16-bit pair's length is 3 to 34 whatever its bits (R99). -/
theorem pairLength_range {pair : Nat} (h : pair < 65536) : 3 ≤ pairLength pair ∧ pairLength pair ≤ 34 := by
  simp only [pairLength, Config.windowBits, Config.minMatch, Nat.shiftRight_eq_div_pow]
  omega

/-- A bit of a control byte is the bit of that weight (R9). -/
theorem ctrlBit_eq_testBit (v : Byte) (k : Nat) : ctrlBit v k = v.toNat.testBit k := by
  simp only [ctrlBit, Nat.testBit, Nat.and_comm 1]
  rcases Nat.mod_two_eq_zero_or_one (v.toNat >>> k) with h | h <;> simp [Nat.and_one_is_mod, h]

/-- `CTRL` has eight bits. -/
theorem ctrlBit_of_ge (v : Byte) {k : Nat} (h : 8 ≤ k) : ctrlBit v k = false := by
  rw [ctrlBit_eq_testBit]
  exact Nat.testBit_lt_two_pow (Nat.lt_of_lt_of_le v.isLt (Nat.pow_le_pow_right (by omega) h))

@[simp] theorem ctrlBit_zero (k : Nat) : ctrlBit 0#8 k = false := by simp [ctrlBit_eq_testBit]

/-- `E.MATCH` sets bit `k` and no other (R154). -/
theorem ctrlBit_setCtrlBit (v : Byte) {k : Nat} (j : Nat) (hk : k < 8) :
    ctrlBit (setCtrlBit v k) j = (ctrlBit v j || decide (j = k)) := by
  have hlt : 2 ^ k < 256 := Nat.lt_of_lt_of_le (Nat.pow_lt_pow_right (by omega) hk) (by omega)
  simp only [ctrlBit_eq_testBit, setCtrlBit, BitVec.toNat_or, BitVec.toNat_ofNat, Nat.testBit_or, Nat.one_shiftLeft,
    show (2 : Nat) ^ 8 = 256 from rfl, Nat.mod_eq_of_lt hlt, Nat.testBit_two_pow]
  simp [eq_comm]

end Sys2Proof.Machine
end

