-- ==== Sys2Proof/Laws/State.lean ====
section
/-! SUPPORT. One lemma per field per named update of the state, true by definition, so that no proof unfolds a record
update; and `Append` of a list as one update. -/

namespace Sys2Proof.Machine

open Sys2Proof

/-! ### append -/

@[simp] theorem append_caps (v : Byte) (s : State) : (append v s).caps = s.caps := rfl
@[simp] theorem append_status (v : Byte) (s : State) : (append v s).status = s.status := rfl
@[simp] theorem append_err (v : Byte) (s : State) : (append v s).err = s.err := rfl
@[simp] theorem append_srcLen (v : Byte) (s : State) : (append v s).srcLen = s.srcLen := rfl
@[simp] theorem append_dstLen (v : Byte) (s : State) : (append v s).dstLen = s.dstLen + 1 := rfl
@[simp] theorem append_ph (v : Byte) (s : State) : (append v s).ph = s.ph := rfl
@[simp] theorem append_n (v : Byte) (s : State) : (append v s).n = s.n := rfl
@[simp] theorem append_m (v : Byte) (s : State) : (append v s).m = s.m := rfl
@[simp] theorem append_r (v : Byte) (s : State) : (append v s).r = s.r := rfl
@[simp] theorem append_ip (v : Byte) (s : State) : (append v s).ip = s.ip := rfl
@[simp] theorem append_op (v : Byte) (s : State) : (append v s).op = s.op := rfl
@[simp] theorem append_ctrl (v : Byte) (s : State) : (append v s).ctrl = s.ctrl := rfl
@[simp] theorem append_tok (v : Byte) (s : State) : (append v s).tok = s.tok := rfl
@[simp] theorem append_bit (v : Byte) (s : State) : (append v s).bit = s.bit := rfl
@[simp] theorem append_plen (v : Byte) (s : State) : (append v s).plen = s.plen := rfl
@[simp] theorem append_ws (v : Byte) (s : State) : (append v s).ws = s.ws := rfl
@[simp] theorem append_wlen (v : Byte) (s : State) : (append v s).wlen = s.wlen := rfl
@[simp] theorem append_clen (v : Byte) (s : State) : (append v s).clen = s.clen := rfl
@[simp] theorem append_found (v : Byte) (s : State) : (append v s).found = s.found := rfl
@[simp] theorem append_boff (v : Byte) (s : State) : (append v s).boff = s.boff := rfl
@[simp] theorem append_blen (v : Byte) (s : State) : (append v s).blen = s.blen := rfl
@[simp] theorem append_off (v : Byte) (s : State) : (append v s).off = s.off := rfl
@[simp] theorem append_len (v : Byte) (s : State) : (append v s).len = s.len := rfl
@[simp] theorem append_i (v : Byte) (s : State) : (append v s).i = s.i := rfl
@[simp] theorem append_pbuf (v : Byte) (s : State) : (append v s).pbuf = s.pbuf := rfl
@[simp] theorem append_src (v : Byte) (s : State) : (append v s).src = s.src := rfl
@[simp] theorem append_dst (v : Byte) (s : State) : (append v s).dst = s.dst.write s.dstLen v := rfl
@[simp] theorem append_host (v : Byte) (s : State) : (append v s).host = s.host := rfl
@[simp] theorem append_free (v : Byte) (s : State) : (append v s).free = s.free := rfl

/-! ### enterError -/

@[simp] theorem enterError_caps (code : FailCode) (s : State) : (enterError code s).caps = s.caps := rfl
@[simp] theorem enterError_status (code : FailCode) (s : State) : (enterError code s).status = .error := rfl
@[simp] theorem enterError_err (code : FailCode) (s : State) : (enterError code s).err = errOf code := rfl
@[simp] theorem enterError_srcLen (code : FailCode) (s : State) : (enterError code s).srcLen = s.srcLen := rfl
@[simp] theorem enterError_dstLen (code : FailCode) (s : State) : (enterError code s).dstLen = 0 := rfl
@[simp] theorem enterError_ph (code : FailCode) (s : State) : (enterError code s).ph = .halt := rfl
@[simp] theorem enterError_n (code : FailCode) (s : State) : (enterError code s).n = s.n := rfl
@[simp] theorem enterError_m (code : FailCode) (s : State) : (enterError code s).m = s.m := rfl
@[simp] theorem enterError_r (code : FailCode) (s : State) : (enterError code s).r = s.r := rfl
@[simp] theorem enterError_ip (code : FailCode) (s : State) : (enterError code s).ip = s.ip := rfl
@[simp] theorem enterError_op (code : FailCode) (s : State) : (enterError code s).op = s.op := rfl
@[simp] theorem enterError_ctrl (code : FailCode) (s : State) : (enterError code s).ctrl = s.ctrl := rfl
@[simp] theorem enterError_tok (code : FailCode) (s : State) : (enterError code s).tok = s.tok := rfl
@[simp] theorem enterError_bit (code : FailCode) (s : State) : (enterError code s).bit = s.bit := rfl
@[simp] theorem enterError_plen (code : FailCode) (s : State) : (enterError code s).plen = s.plen := rfl
@[simp] theorem enterError_ws (code : FailCode) (s : State) : (enterError code s).ws = s.ws := rfl
@[simp] theorem enterError_wlen (code : FailCode) (s : State) : (enterError code s).wlen = s.wlen := rfl
@[simp] theorem enterError_clen (code : FailCode) (s : State) : (enterError code s).clen = s.clen := rfl
@[simp] theorem enterError_found (code : FailCode) (s : State) : (enterError code s).found = s.found := rfl
@[simp] theorem enterError_boff (code : FailCode) (s : State) : (enterError code s).boff = s.boff := rfl
@[simp] theorem enterError_blen (code : FailCode) (s : State) : (enterError code s).blen = s.blen := rfl
@[simp] theorem enterError_off (code : FailCode) (s : State) : (enterError code s).off = s.off := rfl
@[simp] theorem enterError_len (code : FailCode) (s : State) : (enterError code s).len = s.len := rfl
@[simp] theorem enterError_i (code : FailCode) (s : State) : (enterError code s).i = s.i := rfl
@[simp] theorem enterError_pbuf (code : FailCode) (s : State) : (enterError code s).pbuf = s.pbuf := rfl
@[simp] theorem enterError_src (code : FailCode) (s : State) : (enterError code s).src = s.src := rfl
@[simp] theorem enterError_dst (code : FailCode) (s : State) : (enterError code s).dst = s.dst := rfl
@[simp] theorem enterError_host (code : FailCode) (s : State) : (enterError code s).host = s.host := rfl
@[simp] theorem enterError_free (code : FailCode) (s : State) : (enterError code s).free = s.free := rfl

/-! ### complete -/

@[simp] theorem complete_caps (s : State) : (complete s).caps = s.caps := rfl
@[simp] theorem complete_status (s : State) : (complete s).status = .done := rfl
@[simp] theorem complete_err (s : State) : (complete s).err = s.err := rfl
@[simp] theorem complete_srcLen (s : State) : (complete s).srcLen = s.srcLen := rfl
@[simp] theorem complete_dstLen (s : State) : (complete s).dstLen = s.dstLen := rfl
@[simp] theorem complete_ph (s : State) : (complete s).ph = .halt := rfl
@[simp] theorem complete_n (s : State) : (complete s).n = s.n := rfl
@[simp] theorem complete_m (s : State) : (complete s).m = s.m := rfl
@[simp] theorem complete_r (s : State) : (complete s).r = s.r := rfl
@[simp] theorem complete_ip (s : State) : (complete s).ip = s.ip := rfl
@[simp] theorem complete_op (s : State) : (complete s).op = s.op := rfl
@[simp] theorem complete_ctrl (s : State) : (complete s).ctrl = s.ctrl := rfl
@[simp] theorem complete_tok (s : State) : (complete s).tok = s.tok := rfl
@[simp] theorem complete_bit (s : State) : (complete s).bit = s.bit := rfl
@[simp] theorem complete_plen (s : State) : (complete s).plen = s.plen := rfl
@[simp] theorem complete_ws (s : State) : (complete s).ws = s.ws := rfl
@[simp] theorem complete_wlen (s : State) : (complete s).wlen = s.wlen := rfl
@[simp] theorem complete_clen (s : State) : (complete s).clen = s.clen := rfl
@[simp] theorem complete_found (s : State) : (complete s).found = s.found := rfl
@[simp] theorem complete_boff (s : State) : (complete s).boff = s.boff := rfl
@[simp] theorem complete_blen (s : State) : (complete s).blen = s.blen := rfl
@[simp] theorem complete_off (s : State) : (complete s).off = s.off := rfl
@[simp] theorem complete_len (s : State) : (complete s).len = s.len := rfl
@[simp] theorem complete_i (s : State) : (complete s).i = s.i := rfl
@[simp] theorem complete_pbuf (s : State) : (complete s).pbuf = s.pbuf := rfl
@[simp] theorem complete_src (s : State) : (complete s).src = s.src := rfl
@[simp] theorem complete_dst (s : State) : (complete s).dst = s.dst := rfl
@[simp] theorem complete_host (s : State) : (complete s).host = s.host := rfl
@[simp] theorem complete_free (s : State) : (complete s).free = s.free := rfl

/-! ### popHost -/

@[simp] theorem popHost_caps (s : State) : (popHost s).caps = s.caps := rfl
@[simp] theorem popHost_status (s : State) : (popHost s).status = s.status := rfl
@[simp] theorem popHost_err (s : State) : (popHost s).err = s.err := rfl
@[simp] theorem popHost_srcLen (s : State) : (popHost s).srcLen = s.srcLen := rfl
@[simp] theorem popHost_dstLen (s : State) : (popHost s).dstLen = s.dstLen := rfl
@[simp] theorem popHost_ph (s : State) : (popHost s).ph = s.ph := rfl
@[simp] theorem popHost_n (s : State) : (popHost s).n = s.n := rfl
@[simp] theorem popHost_m (s : State) : (popHost s).m = s.m := rfl
@[simp] theorem popHost_r (s : State) : (popHost s).r = s.r := rfl
@[simp] theorem popHost_ip (s : State) : (popHost s).ip = s.ip := rfl
@[simp] theorem popHost_op (s : State) : (popHost s).op = s.op := rfl
@[simp] theorem popHost_ctrl (s : State) : (popHost s).ctrl = s.ctrl := rfl
@[simp] theorem popHost_tok (s : State) : (popHost s).tok = s.tok := rfl
@[simp] theorem popHost_bit (s : State) : (popHost s).bit = s.bit := rfl
@[simp] theorem popHost_plen (s : State) : (popHost s).plen = s.plen := rfl
@[simp] theorem popHost_ws (s : State) : (popHost s).ws = s.ws := rfl
@[simp] theorem popHost_wlen (s : State) : (popHost s).wlen = s.wlen := rfl
@[simp] theorem popHost_clen (s : State) : (popHost s).clen = s.clen := rfl
@[simp] theorem popHost_found (s : State) : (popHost s).found = s.found := rfl
@[simp] theorem popHost_boff (s : State) : (popHost s).boff = s.boff := rfl
@[simp] theorem popHost_blen (s : State) : (popHost s).blen = s.blen := rfl
@[simp] theorem popHost_off (s : State) : (popHost s).off = s.off := rfl
@[simp] theorem popHost_len (s : State) : (popHost s).len = s.len := rfl
@[simp] theorem popHost_i (s : State) : (popHost s).i = s.i := rfl
@[simp] theorem popHost_pbuf (s : State) : (popHost s).pbuf = s.pbuf := rfl
@[simp] theorem popHost_src (s : State) : (popHost s).src = s.src := rfl
@[simp] theorem popHost_dst (s : State) : (popHost s).dst = s.dst := rfl
@[simp] theorem popHost_host (s : State) : (popHost s).host = s.host.tail := rfl
@[simp] theorem popHost_free (s : State) : (popHost s).free = s.free := rfl

/-! ### forgetWorking -/

@[simp] theorem forgetWorking_caps (s : State) : (forgetWorking s).caps = s.caps := rfl
@[simp] theorem forgetWorking_status (s : State) : (forgetWorking s).status = s.status := rfl
@[simp] theorem forgetWorking_err (s : State) : (forgetWorking s).err = s.err := rfl
@[simp] theorem forgetWorking_srcLen (s : State) : (forgetWorking s).srcLen = s.srcLen := rfl
@[simp] theorem forgetWorking_dstLen (s : State) : (forgetWorking s).dstLen = s.dstLen := rfl
@[simp] theorem forgetWorking_ph (s : State) : (forgetWorking s).ph = s.ph := rfl
@[simp] theorem forgetWorking_n (s : State) : (forgetWorking s).n = s.draw 32 0 := rfl
@[simp] theorem forgetWorking_m (s : State) : (forgetWorking s).m = s.draw 32 1 := rfl
@[simp] theorem forgetWorking_r (s : State) : (forgetWorking s).r = s.draw 32 2 := rfl
@[simp] theorem forgetWorking_ip (s : State) : (forgetWorking s).ip = s.draw 32 3 := rfl
@[simp] theorem forgetWorking_op (s : State) : (forgetWorking s).op = s.draw 32 4 := rfl
@[simp] theorem forgetWorking_ctrl (s : State) : (forgetWorking s).ctrl = Config.freeWord 8 (s.free + 5) := rfl
@[simp] theorem forgetWorking_tok (s : State) : (forgetWorking s).tok = s.draw 4 6 := rfl
@[simp] theorem forgetWorking_bit (s : State) : (forgetWorking s).bit = s.draw 4 7 := rfl
@[simp] theorem forgetWorking_plen (s : State) : (forgetWorking s).plen = s.draw 5 8 := rfl
@[simp] theorem forgetWorking_ws (s : State) : (forgetWorking s).ws = s.draw 32 9 := rfl
@[simp] theorem forgetWorking_wlen (s : State) : (forgetWorking s).wlen = s.draw 12 10 := rfl
@[simp] theorem forgetWorking_clen (s : State) : (forgetWorking s).clen = s.draw 6 11 := rfl
@[simp] theorem forgetWorking_found (s : State) : (forgetWorking s).found = (Config.freeWord 1 (s.free + 12) == 1#1) := rfl
@[simp] theorem forgetWorking_boff (s : State) : (forgetWorking s).boff = s.draw 11 13 := rfl
@[simp] theorem forgetWorking_blen (s : State) : (forgetWorking s).blen = s.draw 6 14 := rfl
@[simp] theorem forgetWorking_off (s : State) : (forgetWorking s).off = s.draw 11 15 := rfl
@[simp] theorem forgetWorking_len (s : State) : (forgetWorking s).len = s.draw 6 16 := rfl
@[simp] theorem forgetWorking_i (s : State) : (forgetWorking s).i = s.draw 6 17 := rfl
@[simp] theorem forgetWorking_pbuf (s : State) : (forgetWorking s).pbuf = freePbuf (s.free + 18) := rfl
@[simp] theorem forgetWorking_src (s : State) : (forgetWorking s).src = s.src := rfl
@[simp] theorem forgetWorking_dst (s : State) : (forgetWorking s).dst = [] := rfl
@[simp] theorem forgetWorking_host (s : State) : (forgetWorking s).host = s.host := rfl
@[simp] theorem forgetWorking_free (s : State) : (forgetWorking s).free = s.free + 34 := rfl

/-! ### startCommand -/

@[simp] theorem startCommand_caps (s : State) : (startCommand s).caps = s.caps := rfl
@[simp] theorem startCommand_status (s : State) : (startCommand s).status = .busy := rfl
@[simp] theorem startCommand_err (s : State) : (startCommand s).err = .none := rfl
@[simp] theorem startCommand_srcLen (s : State) : (startCommand s).srcLen = s.srcLen := rfl
@[simp] theorem startCommand_dstLen (s : State) : (startCommand s).dstLen = 0 := rfl
@[simp] theorem startCommand_ph (s : State) : (startCommand s).ph = s.ph := rfl
@[simp] theorem startCommand_n (s : State) : (startCommand s).n = s.draw 32 0 := rfl
@[simp] theorem startCommand_m (s : State) : (startCommand s).m = s.draw 32 1 := rfl
@[simp] theorem startCommand_r (s : State) : (startCommand s).r = s.draw 32 2 := rfl
@[simp] theorem startCommand_ip (s : State) : (startCommand s).ip = s.draw 32 3 := rfl
@[simp] theorem startCommand_op (s : State) : (startCommand s).op = s.draw 32 4 := rfl
@[simp] theorem startCommand_ctrl (s : State) : (startCommand s).ctrl = Config.freeWord 8 (s.free + 5) := rfl
@[simp] theorem startCommand_tok (s : State) : (startCommand s).tok = s.draw 4 6 := rfl
@[simp] theorem startCommand_bit (s : State) : (startCommand s).bit = s.draw 4 7 := rfl
@[simp] theorem startCommand_plen (s : State) : (startCommand s).plen = s.draw 5 8 := rfl
@[simp] theorem startCommand_ws (s : State) : (startCommand s).ws = s.draw 32 9 := rfl
@[simp] theorem startCommand_wlen (s : State) : (startCommand s).wlen = s.draw 12 10 := rfl
@[simp] theorem startCommand_clen (s : State) : (startCommand s).clen = s.draw 6 11 := rfl
@[simp] theorem startCommand_found (s : State) : (startCommand s).found = (Config.freeWord 1 (s.free + 12) == 1#1) := rfl
@[simp] theorem startCommand_boff (s : State) : (startCommand s).boff = s.draw 11 13 := rfl
@[simp] theorem startCommand_blen (s : State) : (startCommand s).blen = s.draw 6 14 := rfl
@[simp] theorem startCommand_off (s : State) : (startCommand s).off = s.draw 11 15 := rfl
@[simp] theorem startCommand_len (s : State) : (startCommand s).len = s.draw 6 16 := rfl
@[simp] theorem startCommand_i (s : State) : (startCommand s).i = s.draw 6 17 := rfl
@[simp] theorem startCommand_pbuf (s : State) : (startCommand s).pbuf = freePbuf (s.free + 18) := rfl
@[simp] theorem startCommand_src (s : State) : (startCommand s).src = s.src := rfl
@[simp] theorem startCommand_dst (s : State) : (startCommand s).dst = [] := rfl
@[simp] theorem startCommand_host (s : State) : (startCommand s).host = s.host := rfl
@[simp] theorem startCommand_free (s : State) : (startCommand s).free = s.free + 34 := rfl

/-- `Append` of a list is one write of the list at `DST_LEN` (R68). -/
theorem appendAll_eq (vs : List Byte) (s : State) :
    appendAll vs s = { s with dst := s.dst.writeAll s.dstLen vs, dstLen := s.dstLen + vs.length } := by
  induction vs generalizing s with
  | nil => rfl
  | cons v vs ih => simp [appendAll, ih, append, Memory.writeAll, Nat.add_assoc, Nat.add_comm 1]

end Sys2Proof.Machine
end

