-- ==== Sys2Proof/Laws/Ops.lean ====
section
/-! SUPPORT. What each shared operation can do, said once: from an answer `next t`, what held and what `t` is; and when it
answers `next`. -/

namespace Sys2Proof.Machine

open Sys2Proof

theorem storeDst_next {a : Nat} {v : Byte} {s t : State} {f : State → State} (h : storeDst a v s f = .next t) :
    a < s.caps.dst ∧ t = f { s with dst := s.dst.write a v } := by
  unfold storeDst at h
  split at h
  · cases h; exact ⟨‹_›, rfl⟩
  · cases h

theorem storeDst_of_lt {a : Nat} (v : Byte) {s : State} (f : State → State) (h : a < s.caps.dst) :
    storeDst a v s f = .next (f { s with dst := s.dst.write a v }) := if_pos h

theorem pbufSet_of_lt (p : Vector Byte 16) {k : Nat} (v : Byte) (h : k < 16) : pbufSet p k v = some (p.set k v h) :=
  dif_pos h

theorem pbufSet_some {p q : Vector Byte 16} {k : Nat} {v : Byte} (h : pbufSet p k v = some q) :
    ∃ hk : k < 16, q = p.set k v hk := by
  unfold pbufSet at h
  split at h
  · cases h; exact ⟨‹_›, rfl⟩
  · cases h

/-- The tail of E.LIT and E.MATCH as one update (R153, R154). -/
theorem tokenPut_eq (k : Nat) (s : State) :
    tokenPut k s =
      { s with
        r := s.r + k
        tok := s.tok + 1
        ph := if s.tok + 1 = 8 ∨ s.r + k = s.n then .cClose else .mStart } := by
  simp only [tokenPut]; split <;> simp_all

/-- D.HEADER after its length test (R181): the header is taken, or it announces more than `DST` can hold. -/
theorem takeHeader_eq (n : Nat) (s : State) :
    takeHeader n s =
      if s.caps.dst < n then enterError .capacity { s with n := n, ip := 4, op := 0 }
      else { s with n := n, ip := 4, op := 0, ph := .dCtrl } := rfl

/-- D.PAIR after its length test (R185): the registers are written and then the checks decide. -/
theorem takePair_eq (o l : Nat) (s : State) :
    takePair o l s =
      match checkPair { s with ip := s.ip + 2, off := o, len := l, ws := winStart s.op } with
      | some code => enterError code { s with ip := s.ip + 2, off := o, len := l, ws := winStart s.op }
      | none => { s with ip := s.ip + 2, off := o, len := l, ws := winStart s.op, i := 0, ph := .dCopy } := by
  unfold takePair
  rfl

/-- A pair passes the checks exactly when its ranges fit and it starts in the window (R104, R186). -/
theorem checkPair_eq_none {s : State} :
    checkPair s = none ↔ s.op + s.len ≤ s.n ∧ s.ws + s.off + s.len ≤ s.n ∧ s.off < s.op - s.ws := by
  unfold checkPair
  split
  · simp; omega
  · split
    · simp; omega
    · split
      · simp; omega
      · simp; omega

theorem putHeader_eq (n : Nat) (s : State) :
    putHeader n s =
      if s.caps.dst < 4 then enterError .capacity s
      else { s with dst := s.dst.writeAll s.dstLen (bytes32 n), dstLen := s.dstLen + 4, ph := .cOpen } := by
  simp only [putHeader, appendAll_eq]; rfl

theorem putLiteral_next {b : Byte} {s t : State} (h : putLiteral b s = .next t) :
    ∃ hp : s.plen < 16, t = tokenPut 1 { s with pbuf := s.pbuf.set s.plen b hp, plen := s.plen + 1 } := by
  unfold putLiteral at h
  split at h
  · cases h
  · rename_i p hp
    obtain ⟨hk, rfl⟩ := pbufSet_some hp
    cases h
    exact ⟨hk, rfl⟩

theorem putLiteral_of_lt (b : Byte) {s : State} (hp : s.plen < 16) :
    putLiteral b s = .next (tokenPut 1 { s with pbuf := s.pbuf.set s.plen b hp, plen := s.plen + 1 }) := by
  simp only [putLiteral, pbufSet_of_lt s.pbuf b hp]

theorem putPair_of_lt (o l : Nat) {s : State} (hp : s.plen + 1 < 16) :
    putPair o l s =
      .next (tokenPut l
        { s with
          ctrl := setCtrlBit s.ctrl s.tok
          pbuf := (s.pbuf.set s.plen (BitVec.ofNat 8 (packPair o l &&& 0xFF)) (by omega)).set (s.plen + 1)
            (BitVec.ofNat 8 (packPair o l >>> 8)) hp
          plen := s.plen + 2 }) := by
  simp only [putPair, pbufSet_of_lt s.pbuf _ (show s.plen < 16 by omega), pbufSet_of_lt _ _ hp]

theorem putPair_next {o l : Nat} {s t : State} (h : putPair o l s = .next t) :
    ∃ hp : s.plen + 1 < 16,
      t = tokenPut l
        { s with
          ctrl := setCtrlBit s.ctrl s.tok
          pbuf := (s.pbuf.set s.plen (BitVec.ofNat 8 (packPair o l &&& 0xFF)) (by omega)).set (s.plen + 1)
            (BitVec.ofNat 8 (packPair o l >>> 8)) hp
          plen := s.plen + 2 } := by
  by_cases hp : s.plen + 1 < 16
  · rw [putPair_of_lt o l hp] at h
    cases h
    exact ⟨hp, rfl⟩
  · exfalso
    unfold putPair at h
    simp only at h
    split at h
    · cases h
    · have : ∀ p v, pbufSet p (s.plen + 1) v = none := fun p v => dif_neg hp
      simp [this] at h

theorem putControl_next {c : Byte} {s t : State} (h : putControl c s = .next t) :
    (s.caps.dst < s.dstLen + 1 + s.plen ∧ t = enterError .capacity s) ∨
      (s.dstLen + 1 + s.plen ≤ s.caps.dst ∧ s.plen ≤ 16 ∧
        t = { s with
              dst := s.dst.writeAll s.dstLen (c :: s.pbuf.toList.take s.plen)
              dstLen := s.dstLen + (1 + s.plen)
              ph := .cOpen }) := by
  unfold putControl at h
  split at h
  · cases h; exact .inl ⟨‹_›, rfl⟩
  · split at h
    · cases h
    · cases h
      have hp : s.plen ≤ 16 := by omega
      refine .inr ⟨by omega, hp, ?_⟩
      rw [appendAll_eq]
      simp [Nat.min_eq_left hp, Nat.add_comm]

theorem putControl_of_le (c : Byte) {s : State} (h : s.dstLen + 1 + s.plen ≤ s.caps.dst) (hp : s.plen ≤ 16) :
    putControl c s = .next
      { s with
        dst := s.dst.writeAll s.dstLen (c :: s.pbuf.toList.take s.plen)
        dstLen := s.dstLen + (1 + s.plen)
        ph := .cOpen } := by
  have h1 : ¬ s.caps.dst < s.dstLen + 1 + s.plen := by omega
  have h2 : ¬ 16 < s.plen := by omega
  simp only [putControl, h1, h2, if_false, appendAll_eq]
  simp [Nat.min_eq_left hp, Nat.add_comm]

end Sys2Proof.Machine
end

