-- ==== Sys2Proof/Laws/Step.lean ====
section
/-! SUPPORT. What one step can do: each micro-operation's answer `next t` taken apart once, the engine's step, and the step
with the host's move; the provers cite these and do not unfold the meanings. -/

namespace Sys2Proof.Machine

open Sys2Proof

/-! ### The arms of `exec` -/

@[simp] theorem exec_header (n : Nat) (s : State) : exec (.header n) s = execHeader n s := rfl
@[simp] theorem exec_control (mask : Byte) (s : State) : exec (.control mask) s = execControl mask s := rfl
@[simp] theorem exec_literal (b : Byte) (s : State) : exec (.literal b) s = execLiteral b s := rfl
@[simp] theorem exec_matchPair (offset : Nat) (length : Nat) (s : State) : exec (.matchPair offset length) s = execMatchPair offset length s := rfl
@[simp] theorem exec_cmdCompress (s : State) : exec .cmdCompress s = execCmdCompress s := rfl
@[simp] theorem exec_cmdDecompress (s : State) : exec .cmdDecompress s = execCmdDecompress s := rfl
@[simp] theorem exec_cmdReserved (code : BitVec 2) (s : State) : exec (.cmdReserved code) s = execCmdReserved code s := rfl
@[simp] theorem exec_mStart (s : State) : exec .mStart s = execMStart s := rfl
@[simp] theorem exec_mSearch (s : State) : exec .mSearch s = execMSearch s := rfl
@[simp] theorem exec_mExtend (s : State) : exec .mExtend s = execMExtend s := rfl
@[simp] theorem exec_eHeader (s : State) : exec .eHeader s = execEHeader s := rfl
@[simp] theorem exec_eOpen (s : State) : exec .eOpen s = execEOpen s := rfl
@[simp] theorem exec_eLit (s : State) : exec .eLit s = execELit s := rfl
@[simp] theorem exec_eMatch (s : State) : exec .eMatch s = execEMatch s := rfl
@[simp] theorem exec_eClose (s : State) : exec .eClose s = execEClose s := rfl
@[simp] theorem exec_dHeader (s : State) : exec .dHeader s = execDHeader s := rfl
@[simp] theorem exec_dCtrl (s : State) : exec .dCtrl s = execDCtrl s := rfl
@[simp] theorem exec_dEndblock (s : State) : exec .dEndblock s = execDEndblock s := rfl
@[simp] theorem exec_dLit (s : State) : exec .dLit s = execDLit s := rfl
@[simp] theorem exec_dPair (s : State) : exec .dPair s = execDPair s := rfl
@[simp] theorem exec_dCopy (s : State) : exec .dCopy s = execDCopy s := rfl
@[simp] theorem exec_dCopyend (s : State) : exec .dCopyend s = execDCopyend s := rfl
@[simp] theorem exec_xFail (code : FailCode) (s : State) : exec (.xFail code) s = execXFail code s := rfl
@[simp] theorem exec_reset (s : State) : exec .reset s = execReset s := rfl

/-! ### Answers -/

theorem execMStart_next {s t : State} (h : execMStart s = .next t) :
    s.ph = .mStart ∧
      ((s.n - s.r < 3 ∧ t = { s with found := false, ph := .cEmit }) ∨
        (3 ≤ s.n - s.r ∧
          t = { s with found := false, ws := winStart s.r, wlen := s.r - winStart s.r, clen := 3, ph := .mSearch })) := by
  unfold execMStart at h
  split at h
  · refine ⟨‹_›, ?_⟩
    split at h
    · cases h; exact .inl ⟨‹_›, rfl⟩
    · cases h; exact .inr ⟨by omega, rfl⟩
  · cases h

theorem execMSearch_next {s t : State} (h : execMSearch s = .next t) :
    s.ph = .mSearch ∧
      ((s.wlen < s.clen ∧ t = searched none s) ∨
        (s.clen ≤ s.wlen ∧ ∃ window candidate, s.src.range s.ws s.wlen = some window ∧
          s.src.range s.r s.clen = some candidate ∧ t = searched (find window candidate) s)) := by
  unfold execMSearch at h
  split at h
  · refine ⟨‹_›, ?_⟩
    split at h
    · cases h; exact .inl ⟨‹_›, rfl⟩
    · split at h
      · cases h; exact .inr ⟨by omega, _, _, ‹_›, ‹_›, rfl⟩
      · cases h
  · cases h

theorem execMExtend_next {s t : State} (h : execMExtend s = .next t) :
    s.ph = .mExtend ∧
      (((s.clen = 34 ∨ s.r + s.clen = s.n) ∧ t = { s with ph := .cEmit }) ∨
        (s.clen ≠ 34 ∧ s.r + s.clen ≠ s.n ∧ t = { s with clen := s.clen + 1, ph := .mSearch })) := by
  unfold execMExtend at h
  split at h
  · refine ⟨‹_›, ?_⟩
    split at h
    · cases h; exact .inl ⟨‹_›, rfl⟩
    · rename_i hn
      cases h; exact .inr ⟨fun h => hn (.inl h), fun h => hn (.inr h), rfl⟩
  · cases h

theorem execEHeader_next {s t : State} (h : execEHeader s = .next t) : s.ph = .cHeader ∧ t = putHeader s.n s := by
  unfold execEHeader at h
  split at h
  · cases h; exact ⟨‹_›, rfl⟩
  · cases h

theorem execEOpen_next {s t : State} (h : execEOpen s = .next t) :
    s.ph = .cOpen ∧
      ((s.r = s.n ∧ t = complete s) ∨
        (s.r ≠ s.n ∧
          t = { s with
                ctrl := 0#8, tok := 0, plen := 0, pbuf := freePbuf s.free, free := s.free + 16, ph := .mStart })) := by
  unfold execEOpen at h
  split at h
  · refine ⟨‹_›, ?_⟩
    split at h
    · cases h; exact .inl ⟨‹_›, rfl⟩
    · cases h; exact .inr ⟨‹_›, rfl⟩
  · cases h

theorem execELit_next {s t : State} (h : execELit s = .next t) :
    s.ph = .cEmit ∧ s.found = false ∧ ∃ b, s.src.read s.r = some b ∧ putLiteral b s = .next t := by
  unfold execELit at h
  split at h
  · rename_i hg
    refine ⟨hg.1, hg.2, ?_⟩
    split at h
    · cases h
    · exact ⟨_, ‹_›, h⟩
  · cases h

theorem execEMatch_next {s t : State} (h : execEMatch s = .next t) :
    s.ph = .cEmit ∧ s.found = true ∧ putPair s.boff s.blen s = .next t := by
  unfold execEMatch at h
  split at h
  · rename_i hg; exact ⟨hg.1, hg.2, h⟩
  · cases h

theorem execEClose_next {s t : State} (h : execEClose s = .next t) :
    s.ph = .cClose ∧ putControl s.ctrl s = .next t := by
  unfold execEClose at h
  split at h
  · exact ⟨‹_›, h⟩
  · cases h

theorem execDHeader_next {s t : State} (h : execDHeader s = .next t) :
    s.ph = .dHeader ∧
      ((s.m < 4 ∧ t = enterError .header s) ∨
        (4 ≤ s.m ∧ ∃ n, memRead s.src 0 4 = some n ∧ t = takeHeader n s)) := by
  unfold execDHeader at h
  split at h
  · refine ⟨‹_›, ?_⟩
    split at h
    · cases h; exact .inl ⟨‹_›, rfl⟩
    · split at h
      · cases h
      · cases h; exact .inr ⟨by omega, _, ‹_›, rfl⟩
  · cases h

theorem execDCtrl_next {s t : State} (h : execDCtrl s = .next t) :
    s.ph = .dCtrl ∧
      ((s.op = s.n ∧ t = complete { s with dstLen := s.n }) ∨
        (s.op ≠ s.n ∧ s.m ≤ s.ip ∧ t = enterError .exhausted s) ∨
        (s.op ≠ s.n ∧ s.ip < s.m ∧ ∃ c, s.src.read s.ip = some c ∧ t = takeControl c s)) := by
  unfold execDCtrl at h
  split at h
  · refine ⟨‹_›, ?_⟩
    split at h
    · cases h; exact .inl ⟨‹_›, rfl⟩
    · split at h
      · cases h; exact .inr (.inl ⟨‹_›, ‹_›, rfl⟩)
      · split at h
        · cases h
        · cases h; exact .inr (.inr ⟨‹_›, by omega, _, ‹_›, rfl⟩)
  · cases h

theorem execDEndblock_next {s t : State} (h : execDEndblock s = .next t) :
    s.ph = .dToken ∧ (s.bit = 8 ∨ s.op = s.n) ∧ t = { s with ph := .dCtrl } := by
  unfold execDEndblock at h
  split at h
  · rename_i hg; cases h; exact ⟨hg.1, hg.2, rfl⟩
  · cases h

theorem execDLit_next {s t : State} (h : execDLit s = .next t) :
    s.ph = .dToken ∧ s.bit < 8 ∧ s.op < s.n ∧ ctrlBit s.ctrl s.bit = false ∧
      ((s.m ≤ s.ip ∧ t = enterError .exhausted s) ∨
        (s.ip < s.m ∧ s.op < s.caps.dst ∧ ∃ b, s.src.read s.ip = some b ∧
          t = { s with dst := s.dst.write s.op b, ip := s.ip + 1, op := s.op + 1, bit := s.bit + 1 })) := by
  unfold execDLit at h
  split at h
  · rename_i hg
    refine ⟨hg.1, hg.2.1, hg.2.2.1, hg.2.2.2, ?_⟩
    split at h
    · cases h; exact .inl ⟨‹_›, rfl⟩
    · split at h
      · cases h
      · obtain ⟨hlt, rfl⟩ := storeDst_next h
        exact .inr ⟨by omega, hlt, _, ‹_›, rfl⟩
  · cases h

theorem execDPair_next {s t : State} (h : execDPair s = .next t) :
    s.ph = .dToken ∧ s.bit < 8 ∧ s.op < s.n ∧ ctrlBit s.ctrl s.bit = true ∧
      ((s.m - s.ip < 2 ∧ t = enterError .exhausted s) ∨
        (2 ≤ s.m - s.ip ∧ ∃ pair, memRead s.src s.ip 2 = some pair ∧
          t = takePair (pairOffset pair) (pairLength pair) s)) := by
  unfold execDPair at h
  split at h
  · rename_i hg
    refine ⟨hg.1, hg.2.1, hg.2.2.1, hg.2.2.2, ?_⟩
    split at h
    · cases h; exact .inl ⟨‹_›, rfl⟩
    · split at h
      · cases h
      · cases h; exact .inr ⟨by omega, _, ‹_›, rfl⟩
  · cases h

theorem execDCopy_next {s t : State} (h : execDCopy s = .next t) :
    s.ph = .dCopy ∧ s.i < s.len ∧ copyTarget s < s.caps.dst ∧ ∃ b, s.dst.read (copySource s) = some b ∧
      t = { s with dst := s.dst.write (copyTarget s) b, i := s.i + 1 } := by
  unfold execDCopy at h
  split at h
  · rename_i hg
    refine ⟨hg.1, hg.2, ?_⟩
    split at h
    · cases h
    · obtain ⟨hlt, rfl⟩ := storeDst_next h
      exact ⟨hlt, _, ‹_›, rfl⟩
  · cases h

theorem execDCopyend_next {s t : State} (h : execDCopyend s = .next t) :
    s.ph = .dCopy ∧ s.i = s.len ∧ t = { s with op := s.op + s.len, bit := s.bit + 1, ph := .dToken } := by
  unfold execDCopyend at h
  split at h
  · rename_i hg; cases h; exact ⟨hg.1, hg.2, rfl⟩
  · cases h

theorem execCmdCompress_next {s t : State} (h : execCmdCompress s = .next t) :
    (s.status = .busy ∧ t = s) ∨
      (s.status ≠ .busy ∧ s.srcLen ≤ s.caps.src.toNat ∧
        t = { startCommand s with n := s.srcLen, r := 0, ph := .cHeader }) := by
  unfold execCmdCompress at h
  split at h
  · cases h; exact .inl ⟨‹_›, rfl⟩
  · split at h
    · cases h
    · cases h; exact .inr ⟨‹_›, by omega, rfl⟩

theorem execCmdDecompress_next {s t : State} (h : execCmdDecompress s = .next t) :
    (s.status = .busy ∧ t = s) ∨
      (s.status ≠ .busy ∧ s.srcLen ≤ s.caps.src.toNat ∧
        t = { startCommand s with m := s.srcLen, ip := 0, op := 0, ph := .dHeader }) := by
  unfold execCmdDecompress at h
  split at h
  · cases h; exact .inl ⟨‹_›, rfl⟩
  · split at h
    · cases h
    · cases h; exact .inr ⟨‹_›, by omega, rfl⟩

theorem execCmdReserved_next {code : BitVec 2} {s t : State} (h : execCmdReserved code s = .next t) :
    s.status = .busy ∧ t = s := by
  unfold execCmdReserved at h
  split at h
  · cases h; exact ⟨‹_›, rfl⟩
  · cases h

theorem hostWriteSrcLen_next {v : BitVec 32} {s t : State} (h : hostWriteSrcLen v s = .next t) :
    (s.status = .busy ∧ t = s) ∨
      (s.status ≠ .busy ∧ v.toNat ≤ s.caps.src.toNat ∧ t = { s with srcLen := v.toNat }) := by
  unfold hostWriteSrcLen at h
  split at h
  · cases h; exact .inl ⟨‹_›, rfl⟩
  · split at h
    · cases h
    · cases h; exact .inr ⟨‹_›, by omega, rfl⟩

theorem hostWriteSrc_next {a : Nat} {b : Byte} {s t : State} (h : hostWriteSrc a b s = .next t) :
    s.status ≠ .busy ∧ a < s.caps.src.toNat ∧ t = { s with src := s.src.write a b } := by
  unfold hostWriteSrc at h
  split at h
  · cases h
  · split at h
    · cases h; exact ⟨‹_›, ‹_›, rfl⟩
    · cases h

/-- The engine's step: idle in `HALT`, or the selected micro-operation (R30, R265). -/
theorem engineStep_next {s t : State} (h : engineStep s = .next t) :
    (s.ph = .halt ∧ t = s) ∨ ∃ i, selectOp s = some i ∧ exec i s = .next t := by
  unfold engineStep at h
  split at h
  · exact .inr ⟨_, ‹_›, h⟩
  · split at h
    · cases h; exact .inl ⟨‹_›, rfl⟩
    · cases h

/-- What R30 selects is one of its fifteen micro-operations, whose meaning is one of these (a case each). -/
theorem selectOp_some {s : State} {i : Instr} (h : selectOp s = some i) :
    (i = .eHeader ∧ s.ph = .cHeader) ∨ (i = .eOpen ∧ s.ph = .cOpen) ∨ (i = .mStart ∧ s.ph = .mStart) ∨
      (i = .mSearch ∧ s.ph = .mSearch) ∨ (i = .mExtend ∧ s.ph = .mExtend) ∨
      (i = .eLit ∧ s.ph = .cEmit ∧ s.found = false) ∨ (i = .eMatch ∧ s.ph = .cEmit ∧ s.found = true) ∨
      (i = .eClose ∧ s.ph = .cClose) ∨ (i = .dHeader ∧ s.ph = .dHeader) ∨ (i = .dCtrl ∧ s.ph = .dCtrl) ∨
      (i = .dEndblock ∧ s.ph = .dToken ∧ (s.bit = 8 ∨ s.op = s.n)) ∨
      (i = .dLit ∧ s.ph = .dToken ∧ s.bit < 8 ∧ s.op < s.n ∧ ctrlBit s.ctrl s.bit = false) ∨
      (i = .dPair ∧ s.ph = .dToken ∧ s.bit < 8 ∧ s.op < s.n ∧ ctrlBit s.ctrl s.bit = true) ∨
      (i = .dCopy ∧ s.ph = .dCopy ∧ s.i < s.len) ∨ (i = .dCopyend ∧ s.ph = .dCopy ∧ s.i = s.len) := by
  unfold selectOp at h
  cases hph : s.ph <;> simp only [hph] at h
  case halt => cases h
  case cEmit => split at h <;> cases h <;> simp_all
  case dToken =>
    split at h
    · cases h; simp_all
    · split at h
      · split at h <;> cases h <;> simp_all
      · cases h
  case dCopy =>
    split at h
    · cases h; simp_all
    · split at h
      · cases h; simp_all
      · cases h
  all_goals cases h; simp

/-- One step, by the host's next move. -/
theorem step_cases (s : State) :
    (s.host = [] ∧ step s = engineStep s) ∨
      (s.host.head? = some .engine ∧ step s = engineStep (popHost s)) ∨
      (∃ code, s.host.head? = some (.cmd code) ∧ step s = exec (commandOf code) (popHost s)) ∨
      (s.host.head? = some .reset ∧ step s = exec .reset (popHost s)) ∨
      (∃ v, s.host.head? = some (.writeSrcLen v) ∧ step s = hostWriteSrcLen v (popHost s)) ∨
      ∃ a b, s.host.head? = some (.writeSrc a b) ∧ step s = hostWriteSrc a b (popHost s) := by
  unfold step
  split <;> rename_i h <;> simp [h]

end Sys2Proof.Machine
end

