-- ==== Sys2Proof/Laws/Parse.lean ====
section
/-! SUPPORT. How the encoder's steps extend the parse behind its output (30_encoding.md R108, R110): one more token for the open
block, and a block closed; and the output's closed form with the open block. -/

namespace Sys2Proof.Machine

open Sys2Proof

/-! ### Control bytes and block bytes -/

/-- One more token of a block: bit `i + |ts|` is set when it is a Match, and no other changes (R110, R154). -/
theorem controlByte_snoc (ts : List Token) (t : Token) (i : Nat) (c : Byte) :
    controlByte (ts ++ [t]) i c =
      if t.isPair then setCtrlBit (controlByte ts i c) (i + ts.length) else controlByte ts i c := by
  induction ts generalizing i c with
  | nil => simp [controlByte]
  | cons u us ih => simp [controlByte, ih, Nat.add_comm, Nat.add_left_comm]

/-- The bytes of one block. -/
theorem blockBytes_one {fuel : Nat} {us : List Token} (h1 : us ≠ []) (h8 : us.length ≤ 8) :
    blockBytes (fuel + 1) us = controlByte us 0 0#8 :: us.flatMap Token.payload := by
  cases us with
  | nil => exact absurd rfl h1
  | cons u us =>
    have ht : (u :: us).take 8 = u :: us := List.take_of_length_le h8
    have hd : (u :: us).drop 8 = [] := List.drop_of_length_le h8
    simp only [blockBytes, List.isEmpty_cons, Bool.false_eq_true, if_false, ht, hd]
    cases fuel <;> simp [blockBytes]

/-- More fuel than tokens changes nothing. -/
theorem blockBytes_fuel {f g : Nat} {ts : List Token} (hf : ts.length ≤ f) (hg : ts.length ≤ g) :
    blockBytes f ts = blockBytes g ts := by
  induction f generalizing g ts with
  | zero =>
    have : ts = [] := List.length_eq_zero_iff.mp (by omega)
    subst this
    cases g <;> simp [blockBytes]
  | succ f ih =>
    cases ts with
    | nil => cases g <;> simp [blockBytes]
    | cons t ts =>
      cases g with
      | zero => simp at hg
      | succ g =>
        have hl : ((t :: ts).drop 8).length ≤ ts.length := by rw [List.length_drop, List.length_cons]; omega
        simp only [List.length_cons] at hf hg
        simp only [blockBytes, List.isEmpty_cons, Bool.false_eq_true, if_false]
        rw [ih (g := g) (by omega) (by omega)]

/-- Closing a block behind full blocks appends its control byte and its payload (R110, R155). -/
theorem blockBytes_append {ts us : List Token} (hd : 8 ∣ ts.length) (h1 : us ≠ []) (h8 : us.length ≤ 8) :
    blockBytes (ts ++ us).length (ts ++ us) =
      blockBytes ts.length ts ++ (controlByte us 0 0#8 :: us.flatMap Token.payload) := by
  obtain ⟨q, hq⟩ := hd
  induction q generalizing ts with
  | zero =>
    have : ts = [] := List.length_eq_zero_iff.mp (by omega)
    subst this
    have hu : us.length = us.length - 1 + 1 := by
      have := List.length_pos_iff.mpr h1
      omega
    rw [List.nil_append, hu, blockBytes_one h1 h8]
    rfl
  | succ q ih =>
    have hdrop : (ts.drop 8).length = 8 * q := by rw [List.length_drop]; omega
    have h := ih hdrop
    have ht : (ts ++ us).take 8 = ts.take 8 := List.take_append_of_le_length (by omega)
    have hd8 : (ts ++ us).drop 8 = ts.drop 8 ++ us := List.drop_append_of_le_length (by omega)
    obtain ⟨f, hf⟩ : ∃ f, ts.length = f + 1 := ⟨ts.length - 1, by omega⟩
    have he : ts.isEmpty = false := by cases ts <;> simp_all
    have he' : (ts ++ us).isEmpty = false := by cases ts <;> simp_all
    have hlen : (ts ++ us).length = (f + us.length) + 1 := by rw [List.length_append]; omega
    rw [hlen, hf]
    simp only [blockBytes, he, he', Bool.false_eq_true, if_false, ht, hd8]
    rw [blockBytes_fuel (f := f + us.length) (g := (ts.drop 8 ++ us).length)
        (by rw [List.length_append]; omega) (Nat.le_refl _), h,
      blockBytes_fuel (f := f) (g := (ts.drop 8).length) (by omega) (Nat.le_refl _)]
    simp

/-! ### One more token of a parse -/

/-- A literal of the byte after the source so far (R108, R153). -/
theorem ValidParse.snoc_literal {X : List Byte} {p : Nat} {ts : List Token} (b : Byte) (h : ValidParse X p ts) :
    ValidParse (X ++ [b]) p (ts ++ [.literal b]) := by
  induction ts generalizing p with
  | nil => simp only [ValidParse] at h; subst h; simp [ValidParse]
  | cons t ts ih =>
    cases t with
    | literal c =>
      obtain ⟨hc, hr⟩ := h
      refine ⟨?_, ih hr⟩
      rw [List.getElem?_append_left (List.getElem?_eq_some_iff.mp hc).1]
      exact hc
    | pair o l =>
      obtain ⟨⟨h3, h34, ho, hp, hw, hk⟩, hr⟩ := h
      refine ⟨⟨h3, h34, ho, by simp; omega, hw, fun k hkl => ?_⟩, ih hr⟩
      rw [List.getElem?_append_left (by omega), List.getElem?_append_left (by omega)]
      exact hk k hkl

/-- A match of the bytes after the source so far, wholly before the cursor (R108, R131, R154). -/
theorem ValidParse.snoc_pair {X Y : List Byte} {p o : Nat} {ts : List Token} (h3 : 3 ≤ Y.length) (h34 : Y.length ≤ 34)
    (ho : o ≤ 2047) (hw : winStart X.length + o + Y.length ≤ X.length)
    (hY : ∀ k, k < Y.length → X[winStart X.length + o + k]? = Y[k]?) (h : ValidParse X p ts) :
    ValidParse (X ++ Y) p (ts ++ [.pair o Y.length]) := by
  induction ts generalizing p with
  | nil =>
    simp only [ValidParse] at h
    subst h
    refine ⟨⟨h3, h34, ho, by simp, by omega, fun k hk => ?_⟩, by simp [ValidParse]⟩
    rw [List.getElem?_append_left (by omega), List.getElem?_append_right (by omega), hY k hk]
    simp
  | cons t ts ih =>
    cases t with
    | literal c =>
      obtain ⟨hc, hr⟩ := h
      refine ⟨?_, ih hr⟩
      rw [List.getElem?_append_left (List.getElem?_eq_some_iff.mp hc).1]
      exact hc
    | pair o' l =>
      obtain ⟨⟨h3', h34', ho', hp, hw', hk⟩, hr⟩ := h
      refine ⟨⟨h3', h34', ho', by simp; omega, hw', fun k hkl => ?_⟩, ih hr⟩
      rw [List.getElem?_append_left (by omega), List.getElem?_append_left (by omega)]
      exact hk k hkl

/-! ### The output so far -/

/-- The output so far and the open block are the byte form of all the tokens so far (R36, R110). -/
theorem State.ParsedAs.append_openBlock {s : State} {X : List Byte} {closed opened : List Token}
    (h : s.ParsedAs X closed opened) (h8 : s.ph.inBlock = true → s.tok ≤ 8) :
    blockBytes closed.length closed ++ s.openBlock =
      blockBytes (closed ++ opened).length (closed ++ opened) := by
  unfold State.openBlock
  split
  · rename_i hb
    have hne : opened ≠ [] := by
      intro h0
      have := h.count hb.1
      simp [h0] at this
      omega
    rw [blockBytes_append (h.full (.inl hb.1)) hne (by rw [h.count hb.1]; exact h8 hb.1), h.control hb.1, h.payload hb.1]
  · rename_i hb
    have : opened = [] := by
      cases hi : s.ph.inBlock with
      | false => exact h.unopened hi
      | true =>
        have := h.count hi
        exact List.length_eq_zero_iff.mp (by have : ¬ 0 < s.tok := fun ht => hb ⟨hi, ht⟩; omega)
    simp [this]

/-- The source so far is as long as the cursor says. -/
theorem State.ParsedAs.length_eq {s : State} {X : List Byte} {closed opened : List Token}
    (h : s.ParsedAs X closed opened) : X.length = s.r :=
  (Memory.range_eq_some.mp h.source).1

/-! ### The steps that extend the parse -/

/-- One more payload byte (R153). -/
theorem take_set_one {l : List Byte} {k : Nat} (b : Byte) (h : k < l.length) :
    (l.set k b).take (k + 1) = l.take k ++ [b] := by
  rw [List.take_add_one, List.take_set_of_le (Nat.le_refl k)]
  simp [h]

/-- Two more payload bytes (R154). -/
theorem take_set_two {l : List Byte} {k : Nat} (b c : Byte) (h : k + 1 < l.length) :
    ((l.set k b).set (k + 1) c).take (k + 2) = l.take k ++ [b, c] := by
  rw [take_set_one c (by simpa using h), take_set_one b (by omega)]
  simp

/-- The second byte of a pair's payload is all that is left of it (R98, R154). -/
theorem ofNat_byte_shift (v : Nat) : BitVec.ofNat 8 ((v >>> 8) &&& 0xFF) = BitVec.ofNat 8 (v >>> 8) := by
  apply BitVec.eq_of_toNat_eq
  have : (0xFF : Nat) = 2 ^ 8 - 1 := rfl
  rw [BitVec.toNat_ofNat, BitVec.toNat_ofNat, this, Nat.and_two_pow_sub_one_eq_mod, Nat.mod_mod]

/-- E.LIT and E.MATCH: one more token. -/
theorem State.ParsedAs.tokenPut {s : State} {X Y : List Byte} {closed opened : List Token} (tk : Token) (c : Byte)
    (p : Vector Byte 16) (k l : Nat) (h : s.ParsedAs X closed opened) (hph : s.ph = .cEmit)
    (hY : s.src.range s.r l = some Y)
    (hv : ValidParse (X ++ Y) 0 ((closed ++ opened) ++ [tk]))
    (hc : c = if tk.isPair then setCtrlBit s.ctrl s.tok else s.ctrl)
    (hp : p.toList.take k = s.pbuf.toList.take s.plen ++ tk.payload) :
    (Machine.tokenPut l { s with ctrl := c, pbuf := p, plen := k }).ParsedAs (X ++ Y) closed (opened ++ [tk]) := by
  have hb : s.ph.inBlock = true := by rw [hph]; rfl
  have hx := h.count hb
  have hct := h.control hb
  rw [tokenPut_eq]
  refine ⟨?_, h.output, by rw [← List.append_assoc]; exact hv, fun _ => h.full (.inl hb), fun _ => by simp [hx],
    fun _ => ?_, fun _ => ?_, fun hi => ?_⟩
  · have := Memory.range_append h.source (by simpa using hY)
    simpa using this
  · rw [controlByte_snoc, hct, hx, hc]; simp
  · simp [h.payload hb, hp]
  · exfalso
    revert hi
    dsimp only
    split <;> simp [Phase.inBlock]

/-- E.LIT (R153). -/
theorem State.ParsedAs.eLit {s t : State} {X : List Byte} {closed opened : List Token}
    (h : s.ParsedAs X closed opened) (he : execELit s = .next t) :
    ∃ b, t.ParsedAs (X ++ [b]) closed (opened ++ [.literal b]) := by
  obtain ⟨hph, -, b, hb, hput⟩ := execELit_next he
  obtain ⟨hp, rfl⟩ := putLiteral_next hput
  refine ⟨b, ?_⟩
  refine State.ParsedAs.tokenPut (Y := [b]) (.literal b) s.ctrl _ _ 1 h hph (by simp [Memory.range, hb])
    (ValidParse.snoc_literal b h.valid) (by simp [Token.isPair]) ?_
  rw [Vector.toList_set, take_set_one b (by simpa using hp)]
  rfl

/-- E.MATCH (R154). -/
theorem State.ParsedAs.eMatch {s t : State} {X : List Byte} {closed opened : List Token}
    (h : s.ParsedAs X closed opened) (hinv : s.EncoderInv) (he : execEMatch s = .next t) :
    ∃ Y, Y.length = s.blen ∧ t.ParsedAs (X ++ Y) closed (opened ++ [.pair s.boff s.blen]) := by
  obtain ⟨hph, hf, hput⟩ := execEMatch_next he
  obtain ⟨hp, rfl⟩ := putPair_next hput
  obtain ⟨h3, h34, hn, hw, heq⟩ := hinv.best (.inr (.inr hph)) hf
  obtain ⟨hws, hwl, -, -, -⟩ := hinv.window (.inr (.inr ⟨hph, by omega⟩))
  have hX := h.length_eq
  have hsub := sub_winStart_le s.r
  have hle := winStart_le s.r
  obtain ⟨-, hsrc⟩ := Memory.range_eq_some.mp h.source
  simp only [Nat.zero_add] at hsrc
  have hread : ∀ k, k < s.blen → s.src.read (s.r + k) = X[s.ws + s.boff + k]? := fun k hk => by
    rw [← heq k hk, hsrc _ (by omega)]
  obtain ⟨Y, hY⟩ : ∃ Y, s.src.range s.r s.blen = some Y := by
    refine Memory.range_isSome fun j hj => ?_
    rw [hread j hj]
    simp; omega
  obtain ⟨hYl, hYr⟩ := Memory.range_eq_some.mp hY
  refine ⟨Y, hYl, ?_⟩
  refine State.ParsedAs.tokenPut (.pair s.boff s.blen) (setCtrlBit s.ctrl s.tok) _ _ _ h hph hY ?_ (by simp [Token.isPair]) ?_
  · rw [← hYl]
    refine ValidParse.snoc_pair (by omega) (by omega) (by omega) (by rw [hX]; omega) (fun k hk => ?_) h.valid
    rw [hX, ← hws, ← hread k (by omega), hYr k (by omega)]
  · rw [Vector.toList_set, Vector.toList_set, take_set_two _ _ (by simpa using hp)]
    simp only [Token.payload, bytes16, ofNat_byte_shift]

/-- E.CLOSE (R155). -/
theorem State.ParsedAs.eClose {s t : State} {X : List Byte} {closed opened : List Token}
    (h : s.ParsedAs X closed opened) (hinv : s.EncoderInv) (he : execEClose s = .next t) :
    t.status = .error ∨ t.ParsedAs X (closed ++ opened) [] := by
  obtain ⟨hph, hput⟩ := execEClose_next he
  rcases putControl_next hput with ⟨-, rfl⟩ | ⟨-, hp, rfl⟩
  · exact .inl rfl
  · right
    have hb : s.ph.inBlock = true := by rw [hph]; rfl
    have ht := hinv.closing hph
    have hne : opened ≠ [] := by
      intro h0
      have := h.count hb
      simp [h0] at this
      omega
    have h8 : opened.length ≤ 8 := by rw [h.count hb]; exact (hinv.counts (.inl hb)).1
    have h4 := (hinv.output (by rw [hph]; decide)).1
    refine ⟨h.source, ?_, by simpa using h.valid, fun hr => ?_, nofun, nofun, nofun, fun _ => rfl⟩
    · rw [blockBytes_append (h.full (.inl hb)) hne h8, h.control hb, h.payload hb]
      have hl : (s.pbuf.toList.take s.plen).length = s.plen := by simp; omega
      have e : s.dstLen + (1 + s.plen) - 4 = (s.dstLen - 4) + (1 + s.plen) := by omega
      dsimp only
      rw [e]
      refine Memory.range_append (Memory.range_eq_some.mpr ?_) (Memory.range_eq_some.mpr ?_)
      · obtain ⟨a1, a2⟩ := Memory.range_eq_some.mp h.output
        refine ⟨a1, fun j hj => ?_⟩
        rw [Memory.read_writeAll_outside _ _ (by omega), a2 j hj]
      · refine ⟨by simp [hl]; omega, fun j hj => ?_⟩
        have e2 : 4 + (s.dstLen - 4) + j = s.dstLen + j := by omega
        rw [e2, Memory.read_writeAll_inside _ _ _ _ (by simp [hl]; omega)]
    · rcases hr with hr | hr
      · exact absurd hr (by simp [Phase.inBlock])
      · rcases ht.2 with h8' | hrn
        · rw [List.length_append, h.count hb, h8']
          exact Nat.dvd_add (h.full (.inl hb)) (by decide)
        · dsimp only at hr; omega

end Sys2Proof.Machine
end

