-- ==== Sys2Proof/Laws/PerInstr.lean ====
section
/-! SUPPORT. What holds of every instruction as syntax, one lemma per constructor: an encoding has the number of bytes the
opcode table gives its row. -/

namespace Sys2Proof.Laws.EncodeWidth

open Sys2Proof

/-- The encoding of `i`, if it has one, is as many bytes as its place reads (opcode table, `width_bytes`). -/
def Statement (i : Instr) : Prop := ∀ slot bytes, encode i = some (slot, bytes) → bytes.length = slot.width

theorem header (n : Nat) : Statement (.header n) := by intro slot bytes h; cases h; rfl
theorem control (mask : Byte) : Statement (.control mask) := by intro slot bytes h; cases h; rfl
theorem literal (b : Byte) : Statement (.literal b) := by intro slot bytes h; cases h; rfl
theorem matchPair (offset : Nat) (length : Nat) : Statement (.matchPair offset length) := by intro slot bytes h; cases h; rfl
theorem cmdCompress : Statement .cmdCompress := by intro slot bytes h; cases h; rfl
theorem cmdDecompress : Statement .cmdDecompress := by intro slot bytes h; cases h; rfl
theorem cmdReserved (code : BitVec 2) : Statement (.cmdReserved code) := by intro slot bytes h; cases h; rfl
theorem mStart : Statement .mStart := by intro slot bytes h; cases h
theorem mSearch : Statement .mSearch := by intro slot bytes h; cases h
theorem mExtend : Statement .mExtend := by intro slot bytes h; cases h
theorem eHeader : Statement .eHeader := by intro slot bytes h; cases h
theorem eOpen : Statement .eOpen := by intro slot bytes h; cases h
theorem eLit : Statement .eLit := by intro slot bytes h; cases h
theorem eMatch : Statement .eMatch := by intro slot bytes h; cases h
theorem eClose : Statement .eClose := by intro slot bytes h; cases h
theorem dHeader : Statement .dHeader := by intro slot bytes h; cases h
theorem dCtrl : Statement .dCtrl := by intro slot bytes h; cases h
theorem dEndblock : Statement .dEndblock := by intro slot bytes h; cases h
theorem dLit : Statement .dLit := by intro slot bytes h; cases h
theorem dPair : Statement .dPair := by intro slot bytes h; cases h
theorem dCopy : Statement .dCopy := by intro slot bytes h; cases h
theorem dCopyend : Statement .dCopyend := by intro slot bytes h; cases h
theorem xFail (code : FailCode) : Statement (.xFail code) := by intro slot bytes h; cases h
theorem reset : Statement .reset := by intro slot bytes h; cases h

end Sys2Proof.Laws.EncodeWidth
end

