-- ==== Sys2Proof/Tests/Slice0.lean ====
section
/-! SUPPORT. Tests: the ill-formed terms that WellFormed refuses, words written out from the spec's encodings, one step of
each instruction on a small state (the examples of spec/40 to 43 and the vectors of spec/95), and a witness for the
hypotheses of each statement. Every expected value is the spec's. -/

namespace Sys2Proof.Tests

open Sys2Proof Sys2Proof.Machine

/-! ### Well-formedness: an ill-formed term for each check -/

theorem test_wf_header_too_long : (Instr.header 4294967296).wf = false := by decide
theorem test_wf_pair_offset_2048 : (Instr.matchPair 2048 3).wf = false := by decide
theorem test_wf_pair_length_2 : (Instr.matchPair 0 2).wf = false := by decide
theorem test_wf_pair_length_35 : (Instr.matchPair 0 35).wf = false := by decide
theorem test_wf_reserved_code_1 : (Instr.cmdReserved 1#2).wf = false := by decide
theorem test_wf_reserved_code_2 : (Instr.cmdReserved 2#2).wf = false := by decide
theorem test_wf_bounds : (Instr.header 4294967295).wf = true ∧ (Instr.matchPair 2047 34).wf = true ∧
    (Instr.matchPair 0 3).wf = true ∧ (Instr.cmdReserved 3#2).wf = true := by decide

/-! ### Decoding: words from R91 to R94, R98, R110, R221, R222, R224 -/

/-- R91: `N[7:0]` first; N = 0x0834 = 2100 (spec/95 E2). -/
theorem test_decode_header : decode .header [0x34#8, 0x08#8, 0x00#8, 0x00#8] = .ok (.header 2100, []) := by decide
/-- R91: the last byte has weight 2^24. -/
theorem test_decode_header_high : decode .header [0x00#8, 0x00#8, 0x00#8, 0x80#8] = .ok (.header 2147483648, []) := by decide
/-- R92. -/
theorem test_decode_control : decode .control [0x50#8, 0x61#8] = .ok (.control 0x50#8, [0x61#8]) := by decide
/-- R93. -/
theorem test_decode_literal : decode .literal [0x7A#8] = .ok (.literal 0x7A#8, []) := by decide
/-- R94, bit by bit: lm3 = 00001, offset = 00000000100; pair 0000100000000100 = 0x0804 (R98's example). -/
theorem test_decode_pair : decode .pair [0b00000100#8, 0b00001000#8] = .ok (.matchPair 4 4, []) := by decide
/-- R94, bit by bit: lm3 = 10101, offset = 10011000111 = 1223; pair 1010110011000111. -/
theorem test_decode_pair_mixed : decode .pair [0b11000111#8, 0b10101100#8] = .ok (.matchPair 1223 24, []) := by decide
/-- R99: pair 0xFFFF. -/
theorem test_decode_pair_max : decode .pair [0xFF#8, 0xFF#8] = .ok (.matchPair 2047 34, []) := by decide
theorem test_decode_pair_truncated : decode .pair [0x00#8] = .error .truncated := by decide
theorem test_decode_compress : decode .command [0x01#8] = .ok (.cmdCompress, []) := by decide
theorem test_decode_decompress : decode .command [0x02#8] = .ok (.cmdDecompress, []) := by decide
theorem test_decode_reserved : decode .command [0x00#8] = .ok (.cmdReserved 0#2, []) ∧
    decode .command [0x03#8] = .ok (.cmdReserved 3#2, []) := by decide
/-- R151's example: `E.HEADER` of N = 48. -/
theorem test_encode_header : encode (.header 48) = some (.header, [0x30#8, 0x00#8, 0x00#8, 0x00#8]) := by decide
/-- spec/95 S20: `Pack(0, 34)` is `00 F8`. -/
theorem test_encode_pair : encode (.matchPair 0 34) = some (.pair, [0x00#8, 0xF8#8]) := by decide
theorem test_table_words : decodeTableWord 8 1 = some .cmdCompress ∧ decodeTableWord 8 2 = some .cmdDecompress ∧
    decodeTableWord 16 0x0804 = some (.matchPair 4 4) ∧ decodeTableWord 32 2100 = some (.header 2100) := by decide

/-- R30, every row: the micro-operations have no bits, and PH and a condition are what is decoded. -/
def withPhase (p : Phase) : State := { State.reset with caps := ⟨0xFFFFFFFF#32, 1000⟩, status := .busy, ph := p }

theorem test_select_encoder : selectOp (withPhase .cHeader) = some .eHeader ∧ selectOp (withPhase .cOpen) = some .eOpen ∧
    selectOp (withPhase .mStart) = some .mStart ∧ selectOp (withPhase .mSearch) = some .mSearch ∧
    selectOp (withPhase .mExtend) = some .mExtend ∧ selectOp (withPhase .cEmit) = some .eLit ∧
    selectOp { withPhase .cEmit with found := true } = some .eMatch ∧
    selectOp (withPhase .cClose) = some .eClose := by decide
theorem test_select_decoder : selectOp (withPhase .halt) = none ∧ selectOp (withPhase .dHeader) = some .dHeader ∧
    selectOp (withPhase .dCtrl) = some .dCtrl ∧ selectOp { withPhase .dToken with n := 1, bit := 8 } = some .dEndblock ∧
    selectOp (withPhase .dToken) = some .dEndblock ∧ selectOp { withPhase .dToken with n := 1 } = some .dLit ∧
    selectOp { withPhase .dToken with n := 1, ctrl := 8#8, bit := 3 } = some .dPair ∧
    selectOp { withPhase .dCopy with len := 3 } = some .dCopy ∧
    selectOp { withPhase .dCopy with len := 3, i := 3 } = some .dCopyend := by decide

/-! ### One step of each instruction -/

/-- What a field is after an answer `next`. -/
def after {α : Type} (f : State → α) : Result → Option α
  | .next t => some (f t)
  | .fault _ => none
  | .refused _ => none

def faultOf : Result → Option Fault
  | .fault f => some f
  | .next _ => none
  | .refused _ => none

def refusalOf : Result → Option Refusal
  | .refused r => some r
  | .next _ => none
  | .fault _ => none

/-- Bytes at addresses 0, 1, …. -/
def bytesAt (bs : List Byte) : Memory := Memory.writeAll [] 0 bs

/-- "abcxabcdabcd" (spec/95 P3). -/
def sourceP3 : List Byte :=
  [0x61#8, 0x62#8, 0x63#8, 0x78#8, 0x61#8, 0x62#8, 0x63#8, 0x64#8, 0x61#8, 0x62#8, 0x63#8, 0x64#8]

/-- A compression of P3 at cursor 8 (spec/95 P3, R121's example). -/
def atEight : State :=
  { withPhase .mStart with
    srcLen := 12, n := 12, r := 8, src := bytesAt sourceP3, ctrl := 0x10#8, tok := 6, plen := 7, dstLen := 4,
    dst := bytesAt (bytes32 12) }

/-- R121's example. -/
theorem test_mStart : after (fun t => (t.found, t.ws, t.wlen, t.clen, t.ph)) (exec .mStart atEight) =
    some (false, 0, 8, 3, .mSearch) := by decide
/-- R121: R = 2049 gives WS = 1, WLEN = 2048. -/
theorem test_mStart_window : after (fun t => (t.ws, t.wlen)) (exec .mStart { atEight with r := 2049, n := 3000 }) =
    some (1, 2048) := by decide

def searching : State := { atEight with ws := 0, wlen := 8, clen := 3, ph := .mSearch }

/-- R122's example: "abc" at 0. -/
theorem test_mSearch : after (fun t => (t.found, t.boff, t.blen, t.ph)) (exec .mSearch searching) =
    some (true, 0, 3, .mExtend) := by decide
/-- R128: "abcd" at 4. -/
theorem test_mSearch_moves : after (fun t => (t.found, t.boff, t.blen, t.ph))
    (exec .mSearch { searching with clen := 4 }) = some (true, 4, 4, .mExtend) := by decide

/-- R124's example. -/
theorem test_mExtend : after (fun t => (t.clen, t.ph)) (exec .mExtend { searching with ph := .mExtend }) =
    some (4, .mSearch) := by decide
/-- R124: R + CLEN = N stops. -/
theorem test_mExtend_end : after (fun t => (t.clen, t.ph)) (exec .mExtend { searching with ph := .mExtend, clen := 4 }) =
    some (4, .cEmit) := by decide

/-- R151's example: N = 48 writes `30 00 00 00`, DST_LEN = 4. -/
theorem test_eHeader : after (fun t => (t.dst.range 0 4, t.dstLen, t.ph)) (exec .eHeader { withPhase .cHeader with n := 48 }) =
    some (some [0x30#8, 0x00#8, 0x00#8, 0x00#8], 4, .cOpen) := by decide
/-- spec/95 K3: DST_CAP = 3. -/
theorem test_eHeader_capacity : after (fun t => (t.status, t.err, t.dstLen, t.ph))
    (exec .eHeader { withPhase .cHeader with caps := ⟨9#32, 3⟩ }) = some (.error, .capacity, 0, .halt) := by decide

/-- R152's example. -/
theorem test_eOpen : after (fun t => (t.ctrl, t.tok, t.plen, t.ph))
    (exec .eOpen { withPhase .cOpen with r := 8, n := 9, ctrl := 7#8, tok := 8, plen := 9 }) =
    some (0#8, 0, 0, .mStart) := by decide
/-- R152: N = 0 completes at once with DST_LEN = 4. -/
theorem test_eOpen_done : after (fun t => (t.status, t.dstLen, t.ph)) (exec .eOpen { withPhase .cOpen with dstLen := 4 }) =
    some (.done, 4, .halt) := by decide

/-- R153's example: SRC = "a". -/
theorem test_eLit : after (fun t => (t.pbuf[0], t.plen, t.r, t.tok, t.ph))
    (exec .eLit { withPhase .cEmit with src := bytesAt [0x61#8], srcLen := 1, n := 1 }) =
    some (0x61#8, 1, 1, 1, .cClose) := by decide

/-- R154's example. -/
def matched : State := { atEight with found := true, boff := 4, blen := 4, ws := 0, ph := .cEmit }

theorem test_eMatch : after (fun t => (t.ctrl, t.pbuf[7], t.pbuf[8], t.plen)) (exec .eMatch matched) =
    some (0x50#8, 0x04#8, 0x08#8, 9) := by decide
theorem test_eMatch_advances : after (fun t => (t.r, t.tok, t.ph)) (exec .eMatch matched) =
    some (12, 7, .cClose) := by decide

/-- R155's example. -/
def closing : State :=
  { withPhase .cClose with
    ctrl := 0x50#8, tok := 7, plen := 9, dstLen := 4, r := 12, n := 12, srcLen := 12, src := bytesAt sourceP3,
    dst := bytesAt (bytes32 12),
    pbuf := #v[0x61#8, 0x62#8, 0x63#8, 0x78#8, 0x00#8, 0x00#8, 0x64#8, 0x04#8, 0x08#8, 0#8, 0#8, 0#8, 0#8, 0#8, 0#8, 0#8] }

theorem test_eClose : after (fun t => (t.dst.range 4 10, t.dstLen, t.ph)) (exec .eClose closing) =
    some (some [0x50#8, 0x61#8, 0x62#8, 0x63#8, 0x78#8, 0x00#8, 0x00#8, 0x64#8, 0x04#8, 0x08#8], 14, .cOpen) := by decide
/-- spec/95 K1: `4 + 1 + 3 = 8 > 7`. -/
theorem test_eClose_capacity : after (fun t => (t.err, t.dstLen, t.dst.read 4))
    (exec .eClose { closing with caps := ⟨9#32, 7⟩, plen := 3 }) = some (.capacity, 0, none) := by decide

/-- A decompression of spec/95 P1 in a given phase. -/
def streamP1 : List Byte := [0x06#8, 0x00#8, 0x00#8, 0x00#8, 0x08#8, 0x61#8, 0x62#8, 0x63#8, 0x00#8, 0x00#8]

def decodingP1 (p : Phase) : State := { withPhase p with srcLen := 10, m := 10, src := bytesAt streamP1 }

/-- R181's example. -/
theorem test_dHeader : after (fun t => (t.n, t.ip, t.op, t.ph)) (exec .dHeader (decodingP1 .dHeader)) =
    some (6, 4, 0, .dCtrl) := by decide
/-- spec/95 K4: `N = 6 > 5`. -/
theorem test_dHeader_capacity : after (fun t => (t.status, t.err)) (exec .dHeader
    { decodingP1 .dHeader with caps := ⟨99#32, 5⟩ }) = some (.error, .capacity) := by decide

/-- R182's example. -/
theorem test_dCtrl : after (fun t => (t.ctrl, t.ip, t.bit, t.ph)) (exec .dCtrl { decodingP1 .dCtrl with n := 6, ip := 4 }) =
    some (0x08#8, 5, 0, .dToken) := by decide
/-- spec/95 X18: control byte missing. -/
theorem test_dCtrl_exhausted : after (fun t => t.err) (exec .dCtrl { decodingP1 .dCtrl with n := 1, ip := 4, m := 4 }) =
    some .exhausted := by decide

/-- R183's example. -/
theorem test_dEndblock : after (fun t => t.ph) (exec .dEndblock { decodingP1 .dToken with bit := 4, op := 6, n := 6 }) =
    some .dCtrl := by decide

def tokenZero : State := { decodingP1 .dToken with ctrl := 0x08#8, bit := 0, ip := 5, n := 6 }

/-- R184's example. -/
theorem test_dLit : after (fun t => (t.dst.read 0, t.ip, t.op, t.bit)) (exec .dLit tokenZero) =
    some (some 0x61#8, 6, 1, 1) := by decide

def tokenThree : State :=
  { decodingP1 .dToken with
    ctrl := 0x08#8, bit := 3, ip := 8, op := 3, n := 6, dst := bytesAt [0x61#8, 0x62#8, 0x63#8] }

/-- R185's example. -/
theorem test_dPair : after (fun t => (t.ip, t.off, t.len, t.ws, t.i, t.ph)) (exec .dPair tokenThree) =
    some (10, 0, 3, 0, 0, .dCopy) := by decide
/-- spec/95 P4: `Match(1, 10)` at `OP = 1` is WINDOW, with `IP = 8`, `OFF = 1`, `LEN = 10` left. -/
def tokenP4 : State :=
  { withPhase .dToken with
    srcLen := 8, m := 8, ip := 6, op := 1, n := 11, ctrl := 0x02#8, bit := 1, dst := bytesAt [0x7A#8],
    src := bytesAt [0x0B#8, 0x00#8, 0x00#8, 0x00#8, 0x02#8, 0x7A#8, 0x01#8, 0x38#8] }

theorem test_dPair_window : after (fun t => (t.status, t.err, t.ip, t.off, t.len)) (exec .dPair tokenP4) =
    some (.error, .window, 8, 1, 10) := by decide

def copying : State :=
  { decodingP1 .dCopy with
    ctrl := 0x08#8, bit := 3, ip := 10, op := 3, n := 6, len := 3, dst := bytesAt [0x61#8, 0x62#8, 0x63#8] }

/-- R187's example. -/
theorem test_dCopy : after (fun t => (t.dst.read 3, t.i, t.op)) (exec .dCopy copying) = some (some 0x61#8, 1, 3) := by decide
/-- R188's example. -/
theorem test_dCopyend : after (fun t => (t.op, t.bit, t.ph)) (exec .dCopyend { copying with i := 3 }) =
    some (6, 4, .dToken) := by decide

def waiting : State := { withPhase .halt with status := .idle, srcLen := 6, src := bytesAt streamP1 }

/-- R221's example. -/
theorem test_cmdCompress : after (fun t => (t.n, t.r, t.status, t.ph)) (exec .cmdCompress waiting) =
    some (6, 0, .busy, .cHeader) := by decide
/-- R222's example. -/
theorem test_cmdDecompress : after (fun t => (t.m, t.ip, t.op, t.status, t.ph)) (exec .cmdDecompress
    { waiting with srcLen := 10, err := .window, status := .error }) = some (10, 0, 0, .busy, .dHeader) := by decide
/-- R224, U7. -/
theorem test_cmdReserved : refusalOf (exec (.cmdReserved 3#2) waiting) = some .reservedCommand := by decide
/-- R246. -/
theorem test_xFail : after (fun t => (hostErr t, hostStatus t, t.dstLen, t.ph)) (exec (.xFail .window) tokenP4) =
    some (4#3, 3#2, 0, .halt) := by decide
/-- R271, U16: RESET while BUSY. -/
theorem test_reset : after (fun t => (t.status, t.err, t.ph, t.srcLen, t.dst.read 0)) (exec .reset copying) =
    some (.idle, .none, .halt, 0, none) := by decide

/-- The elements of P1 as instructions, in the states where they are taken. -/
theorem test_elements_taken : after (fun t => (t.n, t.ip, t.ph)) (exec (.header 6) (decodingP1 .dHeader)) = some (6, 4, .dCtrl) ∧
    after (fun t => (t.ctrl, t.ip, t.ph)) (exec (.control 0x08#8) { decodingP1 .dCtrl with n := 6, ip := 4 }) =
      some (0x08#8, 5, .dToken) ∧
    after (fun t => (t.dst.read 0, t.op)) (exec (.literal 0x61#8) tokenZero) = some (some 0x61#8, 1) ∧
    after (fun t => (t.off, t.len, t.ph)) (exec (.matchPair 0 3) tokenThree) = some (0, 3, .dCopy) := by decide
/-- The elements at the decoder's cursor (R96, R109). -/
theorem test_elementAt : elementAt (decodingP1 .dHeader) = some (.header 6) ∧
    elementAt { decodingP1 .dCtrl with n := 6, ip := 4 } = some (.control 0x08#8) ∧
    elementAt tokenZero = some (.literal 0x61#8) ∧ elementAt tokenThree = some (.matchPair 0 3) := by decide
/-- The elements the encoder puts (R109). -/
theorem test_elementPut : elementPut { withPhase .cHeader with n := 48 } = some (.header 48) ∧
    elementPut closing = some (.control 0x50#8) ∧ elementPut { closing with ph := .cEmit, r := 3 } = some (.literal 0x78#8) ∧
    elementPut matched = some (.matchPair 4 4) := by decide

/-! ### The step, the host's moves, and a word placed for the next step -/

theorem test_step_idle : after (fun t => (t.status, t.ph)) (step State.reset) = some (.idle, .halt) := by decide
theorem test_step_word_compress : after (fun t => (t.status, t.ph)) (step (State.reset.withFetchWord 8 1)) =
    some (.busy, .cHeader) := by decide
theorem test_step_word_decompress : after (fun t => (t.status, t.ph)) (step (State.reset.withFetchWord 8 2)) =
    some (.busy, .dHeader) := by decide
theorem test_step_word_header : after (fun t => (t.n, t.ip)) (step (State.reset.withFetchWord 32 0)) = some (0, 4) := by decide
theorem test_step_word_pair : after (fun t => (t.ip, t.off, t.len, t.err)) (step (State.reset.withFetchWord 16 0x0804)) =
    some (2, 4, 4, .range) := by decide
/-- R225. -/
theorem test_step_command_while_busy : after (fun t => (t.ph, t.host)) (step { copying with host := [.cmd 1#2] }) =
    some (.dCopy, []) := by decide
/-- R273, R225. -/
theorem test_step_host_writes : after (fun t => t.src.read 9) (step { waiting with host := [.writeSrc 9 0x21#8] }) =
      some (some 0x21#8) ∧
    after (fun t => t.srcLen) (step { waiting with host := [.writeSrcLen 7#32] }) = some 7 ∧
    after (fun t => t.srcLen) (step { copying with host := [.writeSrcLen 7#32] }) = some 10 := by decide
/-- R63, R277, U12. -/
theorem test_step_host_refusals :
    faultOf (step { waiting with caps := ⟨9#32, 9⟩, host := [.writeSrc 9 0#8] }) = some .srcAddress ∧
    refusalOf (step { copying with host := [.writeSrc 20 0#8] }) = some .srcWriteWhileBusy ∧
    refusalOf (step { waiting with caps := ⟨9#32, 9⟩, host := [.writeSrcLen 10#32] }) = some .srcLenAboveCap := by decide

/-! ### The functions (spec/95 sections 2 and 3) -/

/-- R132. -/
theorem test_findMatch : findMatch sourceP3 4 = some (0, 3) ∧ findMatch sourceP3 8 = some (4, 4) ∧
    findMatch sourceP3 7 = none ∧ findMatch (List.replicate 4 0x61#8) 2 = none := by decide
/-- spec/95 S1, S2, S10a. -/
theorem test_compress : compress [] = [0#8, 0#8, 0#8, 0#8] ∧ compress [0x61#8] = [1#8, 0#8, 0#8, 0#8, 0#8, 0x61#8] ∧
    compress [0x61#8, 0x62#8, 0x63#8, 0x61#8, 0x62#8, 0x63#8] = streamP1 := by decide
/-- spec/95 X12, X6, X28, X24. -/
theorem test_decompress : decompress streamP1 = .ok [0x61#8, 0x62#8, 0x63#8, 0x61#8, 0x62#8, 0x63#8] ∧
    decompress [6#8, 0#8, 0#8, 0#8, 8#8, 0x61#8, 0x62#8, 0x63#8, 1#8, 0#8] =
      .ok [0x61#8, 0x62#8, 0x63#8, 0x62#8, 0x63#8, 0x62#8] ∧
    decompress [6#8, 0#8, 0#8, 0#8, 8#8, 0x61#8, 0x62#8, 0x63#8, 3#8, 0#8] = .error .window ∧
    decompress [5#8, 0#8, 0#8, 0#8, 8#8, 0x61#8, 0x62#8, 0x63#8, 0#8, 0#8] = .error .range := by decide
/-- spec/95 K4, K5. -/
theorem test_decompressWithin : decompressWithin 5 streamP1 = .error .capacity ∧
    decompressWithin 6 streamP1 = .ok [0x61#8, 0x62#8, 0x63#8, 0x61#8, 0x62#8, 0x63#8] := by decide

/-! ### Witnesses for the hypotheses of the statements

One theorem for each statement with hypotheses, at boundary values where clauses meet. -/

theorem witness_DecodeUndoesEncode : (Instr.matchPair 2047 34).wf = true ∧
    encode (.matchPair 2047 34) = some (.pair, [0xFF#8, 0xFF#8]) ∧ (Instr.cmdReserved 3#2).wf = true ∧
    encode (.cmdReserved 3#2) = some (.command, [3#8]) := by decide
theorem witness_EncodeUndoesDecode : Slot.pair ≠ Slot.command ∧ [0#8].length < Slot.pair.width ∧
    Slot.pair.width ≤ [0#8, 1#8].length := by decide
theorem witness_UnpackUndoesPack : (2047 ≤ 2047 ∧ 3 ≤ 3 ∧ 3 ≤ 34) ∧ 3 ≤ 34 ∧ 34 ≤ 34 ∧ 0xFFFF ≤ 0xFFFF := by decide
theorem witness_LittleEndianInverse : 65535 < 2 ^ 16 ∧ 4294967295 < 2 ^ 32 := by decide
theorem witness_StepRunsFetchedInstruction : fetch tokenThree = some .dPair ∧
    fetch { waiting with host := [.cmd 1#2] } = some .cmdCompress ∧
    fetch { tokenThree with host := [.engine] } = some .dPair ∧ fetch { waiting with host := [.reset] } = some .reset ∧
    waiting.ph = .halt ∧ waiting.host = [] ∧ ({ waiting with host := [.writeSrc 0 0#8] } : State).host ≠ [] ∧
    { copying with i := 4 }.host = [] ∧ { copying with i := 4 }.ph ≠ .halt ∧
    selectOp { copying with i := 4 } = none := by decide
theorem witness_StepRunsDecodedElement : elementAt tokenThree = some (.matchPair 0 3) ∧ tokenThree.host = [] := by decide
theorem witness_StepPutsProducedElement : elementPut closing = some (.control 0x50#8) ∧ closing.host = [] := by decide
/-- `D_COPY`, the end of a block in `D_TOKEN`, and a phase in which `BIT`, `OP` and `I` are out of all ranges. -/
theorem witness_ExactlyOneOperationEnabled : (copying.ph = .dCopy ∧ copying.i ≤ copying.len) ∧
    ({ tokenZero with bit := 8 }.ph = .dToken ∧ { tokenZero with bit := 8 }.bit ≤ 8 ∧ tokenZero.op ≤ tokenZero.n) ∧
    { closing with bit := 15, op := 99, i := 63 }.ph = .cClose ∧ waiting.ph = .halt := by decide
theorem witness_PhasesFollowTransitionTable : tokenThree.ph ≠ .halt ∧
    after (fun t => t.ph) (engineStep tokenThree) = some .dCopy ∧
    after (fun t => t.ph) (engineStep tokenP4) = some .halt := by decide
theorem witness_OnlyHostWritesSource : after (fun t => t.src == copying.src) (exec .dCopy copying) = some true ∧
    Instr.dCopy ≠ Instr.reset := by decide
theorem witness_CompressOnlyAppends : closing.ph.compressing = true ∧
    after (fun t => t.dstLen) (engineStep closing) = some 14 := by decide
theorem witness_CompressCommandStarts : waiting.status ≠ .busy ∧ waiting.srcLen ≤ waiting.caps.src.toNat ∧
    copying.status = .busy ∧ ({ waiting with caps := ⟨6#32, 0⟩ } : State).srcLen ≤ 6 ∧
    ({ waiting with caps := ⟨5#32, 0⟩ } : State).caps.src.toNat < waiting.srcLen := by decide
theorem witness_DecompressCommandStarts : { waiting with srcLen := 10 }.status ≠ .busy ∧
    { waiting with srcLen := 10 }.srcLen ≤ { waiting with srcLen := 10 }.caps.src.toNat ∧ tokenZero.status = .busy ∧
    { waiting with caps := ⟨5#32, 0⟩ }.caps.src.toNat < waiting.srcLen := by decide
theorem witness_WritesWhileBusyIgnored : copying.status = .busy ∧
    { copying with host := [.cmd 0#2] }.host = .cmd 0#2 :: [] ∧
    { copying with host := [.writeSrcLen 7#32] }.host = .writeSrcLen 7#32 :: [] := by decide
theorem witness_ReservedCodeRefused : ((0#2 : BitVec 2) = 0#2 ∨ (0#2 : BitVec 2) = 3#2) ∧
    ((3#2 : BitVec 2) = 0#2 ∨ (3#2 : BitVec 2) = 3#2) ∧ copying.status = .busy ∧ waiting.status ≠ .busy := by decide
theorem witness_HostWritesLoadSource : waiting.status ≠ .busy ∧ 4294967294 < waiting.caps.src.toNat ∧
    waiting.caps.src.toNat ≤ 4294967295 ∧ copying.status = .busy ∧ (9#32).toNat ≤ (9#32).toNat ∧
    (9#32).toNat < (10#32).toNat := by decide
theorem witness_MStartBeginsSearch : atEight.ph = .mStart ∧ 3 ≤ atEight.n - atEight.r ∧
    { atEight with r := 9 }.n - { atEight with r := 9 }.r = 3 ∧ { atEight with r := 10 }.n - { atEight with r := 10 }.r < 3 := by
  decide
theorem witness_MSearchFindsLeftmost : searching.ph = .mSearch ∧ 0 < searching.clen ∧
    (∀ a, searching.ws ≤ a → a < searching.ws + searching.wlen → searching.src.read a ≠ none) ∧
    (∀ a, searching.r ≤ a → a < searching.r + searching.clen → searching.src.read a ≠ none) := by decide
theorem witness_MSearchFindsLeftmost_at : { searching with clen := 4 }.OccursAt 4 ∧
    (∀ k, k < 4 → ¬ { searching with clen := 4 }.OccursAt k) ∧ { searching with wlen := 2 }.wlen < searching.clen := by
  unfold State.OccursAt; decide
theorem witness_MSearchFindsLeftmost_none : { searching with wlen := 3, r := 7 }.ph = .mSearch ∧
    ∀ j, ¬ { searching with wlen := 3, r := 7 }.OccursAt j := by
  refine ⟨rfl, fun j h => ?_⟩
  have hj : j = 0 := by have := h.1; simp [searching] at this; omega
  subst hj
  have := h.2 0 (by decide)
  revert this
  decide
theorem witness_MExtendGrowsCandidate : { searching with ph := .mExtend }.ph = .mExtend ∧ searching.clen ≠ 34 ∧
    searching.r + searching.clen ≠ searching.n ∧ { searching with clen := 4 }.r + 4 = searching.n ∧
    { searching with clen := 34 }.clen = 34 := by decide
theorem witness_MatcherComputesFindMatch : atEight.ph = .mStart ∧ atEight.n = sourceP3.length ∧ atEight.r < atEight.n ∧
    (∀ a, a < sourceP3.length → atEight.src.read a = sourceP3[a]?) ∧ findMatch sourceP3 atEight.r = some (4, 4) ∧
    findMatch sourceP3 7 = none := by decide
theorem witness_FindMatchIsLongestLeftmost : 8 < sourceP3.length := by decide
theorem witness_FindMatchIsValid : 8 < sourceP3.length ∧ findMatch sourceP3 8 = some (4, 4) := by decide
theorem witness_LongerCandidateNotFurtherLeft : find (sourceP3.take 8) [0x61#8, 0x62#8, 0x63#8] = some 0 ∧
    find (sourceP3.take 8) ([0x61#8, 0x62#8, 0x63#8] ++ [0x64#8]) = some 4 := by decide
theorem witness_EHeaderWritesLength : (withPhase .cHeader).ph = .cHeader ∧ 4 ≤ (withPhase .cHeader).caps.dst ∧
    4 ≤ { withPhase .cHeader with caps := ⟨9#32, 4⟩ }.caps.dst ∧
    { withPhase .cHeader with caps := ⟨9#32, 3⟩ }.caps.dst < 4 := by decide
theorem witness_EOpenOpensOrCompletes : (withPhase .cOpen).ph = .cOpen ∧ (withPhase .cOpen).r = (withPhase .cOpen).n ∧
    { withPhase .cOpen with n := 1 }.r ≠ { withPhase .cOpen with n := 1 }.n := by decide
theorem witness_ELitEmitsLiteral : { closing with ph := .cEmit, r := 3, plen := 15 }.ph = .cEmit ∧ closing.found = false ∧
    closing.src.read 3 = some 0x78#8 ∧ { closing with ph := .cEmit, r := 3, plen := 15 }.plen < 16 := by decide
theorem witness_EMatchEmitsPair : matched.ph = .cEmit ∧ matched.found = true ∧ matched.tok < 8 ∧ matched.plen + 1 < 16 ∧
    matched.boff ≤ 2047 ∧ 3 ≤ matched.blen ∧ matched.blen ≤ 34 := by decide
theorem witness_ECloseWritesBlock : closing.ph = .cClose ∧ closing.plen ≤ 16 ∧
    closing.dstLen + 1 + closing.plen ≤ closing.caps.dst ∧
    closing.dstLen + 1 + closing.plen ≤ { closing with caps := ⟨9#32, 14⟩ }.caps.dst ∧
    { closing with caps := ⟨9#32, 13⟩ }.caps.dst < closing.dstLen + 1 + closing.plen := by decide
theorem witness_DHeaderReadsLength : (decodingP1 .dHeader).ph = .dHeader ∧ 4 ≤ (decodingP1 .dHeader).m ∧
    { decodingP1 .dHeader with m := 4 }.m = 4 ∧ { decodingP1 .dHeader with m := 3 }.m < 4 ∧
    (decodingP1 .dHeader).src.read 0 = some 6#8 ∧ (decodingP1 .dHeader).src.read 1 = some 0#8 ∧
    (decodingP1 .dHeader).src.read 2 = some 0#8 ∧ (decodingP1 .dHeader).src.read 3 = some 0#8 ∧
    6 = (6#8).toNat + 256 * (0#8).toNat + 65536 * (0#8).toNat + 16777216 * (0#8).toNat ∧
    6 ≤ { decodingP1 .dHeader with caps := ⟨99#32, 6⟩ }.caps.dst ∧
    { decodingP1 .dHeader with caps := ⟨99#32, 5⟩ }.caps.dst < 6 := by decide
theorem witness_DCtrlReadsControlByte : (decodingP1 .dCtrl).ph = .dCtrl ∧ (decodingP1 .dCtrl).op = (decodingP1 .dCtrl).n ∧
    { decodingP1 .dCtrl with n := 6, ip := 10 }.op ≠ 6 ∧ { decodingP1 .dCtrl with n := 6, ip := 10 }.m ≤ 10 ∧
    { decodingP1 .dCtrl with n := 6, ip := 9 }.ip < (decodingP1 .dCtrl).m ∧
    (decodingP1 .dCtrl).src.read 9 = some 0#8 := by decide
theorem witness_DEndblockLeavesBlock : tokenZero.ph = .dToken ∧ ({ tokenZero with bit := 8 }.bit = 8) ∧
    { tokenZero with op := 6 }.op = tokenZero.n := by decide
theorem witness_DLitCopiesByte : tokenZero.ph = .dToken ∧ tokenZero.bit < 8 ∧ tokenZero.op < tokenZero.n ∧
    ctrlBit tokenZero.ctrl tokenZero.bit = false ∧ tokenZero.ip < tokenZero.m ∧
    tokenZero.src.read tokenZero.ip = some 0x61#8 ∧ tokenZero.op < tokenZero.caps.dst ∧
    { tokenZero with ip := 10 }.m ≤ { tokenZero with ip := 10 }.ip := by decide
theorem witness_DPairStartsCopy : tokenThree.ph = .dToken ∧ tokenThree.bit < 8 ∧ tokenThree.op < tokenThree.n ∧
    ctrlBit tokenThree.ctrl tokenThree.bit = true ∧ tokenThree.ip + 2 ≤ tokenThree.m ∧
    tokenThree.src.read tokenThree.ip = some 0#8 ∧ tokenThree.src.read (tokenThree.ip + 1) = some 0#8 ∧
    0 = (0#8).toNat + 256 * ((0#8).toNat % 8) ∧ 3 = (0#8).toNat / 8 + 3 ∧ tokenThree.op + 3 ≤ tokenThree.n ∧
    tokenThree.op - 2048 + 0 + 3 ≤ tokenThree.n ∧ 0 < tokenThree.op - (tokenThree.op - 2048) := by decide
/-- X24 (destination), X23 (source), X28 (window), X20 (half a pair): the boundaries of the checks. -/
theorem witness_DPairRejectsInOrder : tokenThree.ph = .dToken ∧ tokenThree.bit < 8 ∧ tokenThree.op < tokenThree.n ∧
    ctrlBit tokenThree.ctrl tokenThree.bit = true ∧ { tokenThree with m := 9 }.m - tokenThree.ip < 2 ∧
    2 ≤ tokenThree.m - tokenThree.ip ∧ { tokenThree with n := 5 }.n < tokenThree.op + 3 ∧
    tokenThree.op + 3 ≤ tokenThree.n ∧ tokenThree.n < tokenThree.op - 2048 + 4 + 3 ∧
    tokenThree.op - 2048 + 3 + 3 ≤ tokenThree.n ∧ tokenThree.op - (tokenThree.op - 2048) ≤ 3 ∧
    3 = (3#8).toNat + 256 * ((0#8).toNat % 8) ∧
    { tokenThree with src := tokenThree.src.write 8 3#8 }.src.read 8 = some 3#8 ∧
    tokenThree.src.read 9 = some 0#8 := by decide
theorem witness_DCopyCopiesOneByte : copying.ph = .dCopy ∧ copying.i < copying.len ∧
    copying.dst.read (copying.ws + copying.off + copying.i) = some 0x61#8 ∧ copyTarget copying < copying.caps.dst := by decide
theorem witness_DCopyendFinishesMatch : { copying with i := 3 }.ph = .dCopy ∧ { copying with i := 3 }.i = copying.len := by decide
/-- X6: `Match(1, 3)` at `OP = 3`, `d = 2`, overlapping. -/
theorem witness_MatchCopyIsPeriodic : { copying with off := 1 }.ph = .dCopy ∧ copying.i = 0 ∧
    copying.ws + 1 < copying.op ∧ 2 = copying.op - (copying.ws + 1) ∧ copying.op + copying.len ≤ copying.caps.dst ∧
    ∀ a, a < copying.op → copying.dst.read a ≠ none := by decide
theorem witness_Holds : waiting.status ≠ .busy ∧
    ({ waiting with srcLen := 10 } : State).Holds streamP1 ∧ decompressWithin 6 streamP1 =
      .ok [0x61#8, 0x62#8, 0x63#8, 0x61#8, 0x62#8, 0x63#8] ∧ decompressWithin 5 streamP1 = .error .capacity := by
  unfold State.Holds; decide
/-- The hypotheses of CompressCommandComputesCompress, at the boundary of the capacity (K1, K2). -/
theorem witness_CompressCommandComputesCompress : waiting.status ≠ .busy ∧
    ({ waiting with srcLen := 3, src := bytesAt [0x61#8, 0x62#8, 0x63#8] } : State).Holds [0x61#8, 0x62#8, 0x63#8] ∧
    (compress [0x61#8, 0x62#8, 0x63#8]).length ≤ 8 ∧ 7 < (compress [0x61#8, 0x62#8, 0x63#8]).length := by
  unfold State.Holds; decide
theorem witness_ValidParseDecodes : [0x61#8, 0x62#8, 0x61#8, 0x62#8, 0x61#8].length < 2 ^ 32 ∧
    ValidParse [0x61#8, 0x62#8, 0x61#8, 0x62#8, 0x61#8] 0 [.literal 0x61#8, .literal 0x62#8, .pair 0 3] := by
  simp only [ValidParse]; decide
theorem witness_DecompressUndoesCompress : [0x61#8].length < 2 ^ 32 := by decide
theorem witness_TruncatedStreamRejected : [0x61#8].length < 2 ^ 32 ∧ 1 ≤ [0x61#8].length ∧ ([] : List Byte).length = 0 := by decide
theorem witness_TrailingBytesIgnored : decompress [1#8, 0#8, 0#8, 0#8, 0#8, 0x61#8] = .ok [0x61#8] := by decide
/-- X7: control byte FE against 00, one token used. -/
theorem witness_UnusedControlBitsIgnored : 1 ≤ 8 ∧ (∀ k, k < 1 → ctrlBit 0x00#8 k = ctrlBit 0xFE#8 k) ∧
    decodeTokens 1 0x00#8 1 0 [0x61#8] [] = .ok ([], [0x61#8]) ∧ 1 ≤ [0x61#8].length := by decide
theorem witness_HeaderElementTakenOrPut : (decodingP1 .dHeader).ph = .dHeader ∧ 4 ≤ { decodingP1 .dHeader with m := 4 }.m ∧
    1000 ≤ (decodingP1 .dHeader).caps.dst ∧ (withPhase .cHeader).ph = .cHeader ∧
    4 ≤ { withPhase .cHeader with caps := ⟨9#32, 4⟩ }.caps.dst := by decide
theorem witness_ControlElementTakenOrPut : { decodingP1 .dCtrl with n := 6, ip := 9 }.ph = .dCtrl ∧
    { decodingP1 .dCtrl with n := 6, ip := 9 }.op ≠ 6 ∧ { decodingP1 .dCtrl with n := 6, ip := 9 }.ip < 10 ∧
    closing.ph = .cClose ∧ closing.plen ≤ 16 ∧
    closing.dstLen + 1 + closing.plen ≤ { closing with caps := ⟨9#32, 14⟩ }.caps.dst := by decide
theorem witness_LiteralElementTakenOrPut : tokenZero.ph = .dToken ∧ tokenZero.bit < 8 ∧ tokenZero.op < tokenZero.n ∧
    ctrlBit tokenZero.ctrl tokenZero.bit = false ∧ tokenZero.ip < tokenZero.m ∧ tokenZero.op < tokenZero.caps.dst ∧
    { closing with ph := .cEmit, plen := 15 }.ph = .cEmit ∧ closing.found = false ∧
    { closing with ph := .cEmit, plen := 15 }.plen < 16 := by decide
theorem witness_MatchElementTakenOrPut : tokenThree.ph = .dToken ∧ tokenThree.bit < 8 ∧ tokenThree.op < tokenThree.n ∧
    ctrlBit tokenThree.ctrl tokenThree.bit = true ∧ tokenThree.ip + 2 ≤ tokenThree.m ∧ tokenThree.op + 3 ≤ tokenThree.n ∧
    tokenThree.op - 2048 + 2 + 3 ≤ tokenThree.n ∧ 2 < tokenThree.op - (tokenThree.op - 2048) ∧ matched.ph = .cEmit ∧
    matched.found = true ∧ { matched with tok := 7, plen := 14 }.tok < 8 ∧
    { matched with tok := 7, plen := 14 }.plen + 1 < 16 := by decide

/-- P1 in the middle of its copy is a sound state whose source is written, on the engine's turn. -/
theorem witness_inv_decoding : copying.Inv where
  widths := by constructor <;> decide
  stores := by constructor <;> decide
  port := by constructor <;> decide
  encoder h := absurd h (by decide)
  decoder _ := by constructor <;> decide

/-- P1 in `D_CTRL` after its block, at the bound of `BIT` (R37). -/
theorem witness_inv_after_block : { copying with ph := .dCtrl, bit := 8 }.Inv where
  widths := by constructor <;> decide
  stores := by constructor <;> decide
  port := by constructor <;> decide
  encoder h := absurd h (by decide)
  decoder _ := by constructor <;> decide

/-- P3 in the middle of a search is a sound state whose source is written, on the engine's turn. -/
def searchingP3 : State :=
  { searching with
    tok := 6, ctrl := 0x10#8, plen := 7, dstLen := 4, r := 8, found := false, pbuf := closing.pbuf }

/-- The tokens of P3 before cursor 8 (spec/95 P3). -/
def openedP3 : List Token :=
  [.literal 0x61#8, .literal 0x62#8, .literal 0x63#8, .literal 0x78#8, .pair 0 3, .literal 0x64#8]

theorem witness_parsedP3 : searchingP3.ParsedAs (sourceP3.take 8) [] openedP3 where
  source := by decide
  output := by decide
  valid := by simp only [List.nil_append, openedP3, ValidParse]; decide
  full _ := by decide
  count _ := by decide
  control _ := by decide
  payload _ := by decide
  unopened h := absurd h (by decide)

/-- Eight of P3's twelve bytes stand in the open block (R36). -/
theorem witness_decodesP3 : searchingP3.OutputDecodes := ⟨sourceP3.take 8, [], by decide, by decide, by decide⟩

theorem witness_inv_encoding : searchingP3.Inv where
  widths := by constructor <;> decide
  stores := by constructor <;> decide
  port := by constructor <;> decide
  encoder _ :=
    { n_eq := by decide
      r_le := by decide
      start := by decide
      output := by decide
      opening := by decide
      counts := by decide
      block := fun _ => by
        refine ⟨by decide, by decide, fun k hk => ?_⟩
        by_cases h8 : 8 ≤ k
        · exact ctrlBit_of_ge _ h8
        · have hk' : k = 6 ∨ k = 7 := by
            have : 6 ≤ k := hk
            omega
          rcases hk' with rfl | rfl <;> decide
      cursor := by decide
      closing := by decide
      window := by decide
      best := by decide
      searching := by decide
      extending := by decide
      parsed := fun _ => ⟨_, _, _, witness_parsedP3⟩
      decodes := fun _ => witness_decodesP3 }
  decoder h := absurd h (by decide)

theorem witness_StepKeepsMachineInvariant : copying.Inv ∧ after (fun t => t.i) (step copying) = some 1 ∧ searchingP3.Inv ∧
    after (fun t => t.ph) (step searchingP3) = some .mExtend :=
  ⟨witness_inv_decoding, by decide, witness_inv_encoding, by decide⟩
theorem witness_RunningEngineNeverStops : copying.Inv ∧ copying.SourceWritten ∧ copying.EngineTurn ∧ searchingP3.Inv ∧
    searchingP3.SourceWritten ∧ searchingP3.EngineTurn :=
  ⟨witness_inv_decoding, by unfold State.SourceWritten; decide, .inl rfl, witness_inv_encoding,
    by unfold State.SourceWritten; decide, .inl rfl⟩
/-- A byte beyond `SRC_LEN` differs. -/
theorem witness_EngineReadsOnlyValidSource : copying.Inv ∧ copying.SourceWritten ∧
    (∀ a, a < copying.srcLen → (copying.src.write 10 0xFF#8).read a = copying.src.read a) ∧
    (copying.src.write 10 0xFF#8).read 10 ≠ copying.src.read 10 :=
  ⟨witness_inv_decoding, by unfold State.SourceWritten; decide, by decide, by decide⟩
/-- Two histories, one input (P7): both end with the empty stream of R271's example. -/
theorem witness_ResultDependsOnlyOnInput :
    { waiting with srcLen := 0 }.status ≠ .busy ∧ { tokenP4 with status := .error, srcLen := 0 }.status ≠ .busy ∧
    (∀ a, a < { waiting with srcLen := 0 }.srcLen → waiting.src.read a = tokenP4.src.read a ∧ waiting.src.read a ≠ none) ∧
    after (fun t => (t.ph, t.dstLen)) (runCommand .cmdCompress 2 { waiting with srcLen := 0 }) = some (.halt, 4) ∧
    after (fun t => (t.ph, t.dstLen)) (runCommand .cmdCompress 3 { tokenP4 with status := .error, srcLen := 0 }) =
      some (.halt, 4) ∧ waiting.caps.dst = tokenP4.caps.dst := by decide

end Sys2Proof.Tests
end

/-! PROOFS. The window string's leftmost occurrences (00_scope.md R13, 40_matcher.md R128) and little-endian assembly
(00_scope.md R12, 20_memory.md R64): byte lists of any length first, then the two and four bytes of the format. -/

namespace Sys2Proof.Machine

open Sys2Proof

/-! ### Leftmost occurrences -/

/-- The answer of `Find` is not to the right of any occurrence (R13). -/
theorem find_le_of_occurs {w p : List Byte} {i j : Nat} (h : find w p = some i) (hp : p <+: w.drop j)
    (hj : j + p.length ≤ w.length) : i ≤ j := by
  obtain ⟨k, hk, hkj⟩ := find_least hp hj
  have : i = k := Option.some.inj (h.symm.trans hk)
  omega

/-- Settles O25: where `P ++ Q` occurs `P` occurs too, and the first occurrence of `P` is not to the right of that. -/
theorem longerCandidateNotFurtherLeft : Obligations.LongerCandidateNotFurtherLeft := by
  intro Wd P Q i j hi hj
  obtain ⟨hocc, hfits⟩ := find_some_spec hj
  rw [List.length_append] at hfits
  exact find_le_of_occurs hi ((List.prefix_append P Q).trans hocc) (by omega)

/-! ### Little-endian assembly -/

/-- The low `k` bytes of `w` assemble to `w` modulo `256 ^ k` (R12, R64). -/
theorem littleEndian_lowBytes (k w : Nat) : littleEndian (lowBytes k w) = w % 256 ^ k := by
  induction k generalizing w with
  | zero => simp [lowBytes, littleEndian, Nat.mod_one]
  | succ k ih =>
    have hbyte : (BitVec.ofNat 8 (w % 256)).toNat = w % 256 := by simp
    rw [lowBytes, littleEndian, ih, hbyte, Nat.pow_succ', Nat.mod_mul]

/-- The bytes of what a byte list assembles to are that list (R12, R64). -/
theorem lowBytes_littleEndian (bs : List Byte) : lowBytes bs.length (littleEndian bs) = bs := by
  induction bs with
  | nil => rfl
  | cons b bs ih =>
    have hb := b.isLt
    have hlow : (b.toNat + 256 * littleEndian bs) % 256 = b.toNat := by omega
    have hhigh : (b.toNat + 256 * littleEndian bs) / 256 = littleEndian bs := by omega
    rw [List.length_cons, littleEndian, lowBytes, hlow, hhigh, ih, BitVec.ofNat_toNat, BitVec.setWidth_eq]

/-- The low byte as R12 writes it, `v & 0xFF`. -/
theorem and_low_byte (v : Nat) : v &&& 0xFF = v % 256 := Nat.and_two_pow_sub_one_eq_mod v 8

/-- `Bytes16(v)` (R12). -/
theorem bytes16_eq_lowBytes (v : Nat) : bytes16 v = lowBytes 2 v := by
  simp only [bytes16, lowBytes, and_low_byte, Nat.shiftRight_eq_div_pow, Nat.reducePow]

/-- `Bytes32(v)` (R12). -/
theorem bytes32_eq_lowBytes (v : Nat) : bytes32 v = lowBytes 4 v := by
  simp only [bytes32, lowBytes, and_low_byte, Nat.shiftRight_eq_div_pow, Nat.div_div_eq_div_mul, Nat.reducePow,
    Nat.reduceMul]

theorem littleEndian_bytes16 {v : Nat} (h : v < 2 ^ 16) : littleEndian (bytes16 v) = v := by
  rw [bytes16_eq_lowBytes, littleEndian_lowBytes]
  exact Nat.mod_eq_of_lt h

theorem littleEndian_bytes32 {v : Nat} (h : v < 2 ^ 32) : littleEndian (bytes32 v) = v := by
  rw [bytes32_eq_lowBytes, littleEndian_lowBytes]
  exact Nat.mod_eq_of_lt h

theorem bytes16_le16 (b0 b1 : Byte) : bytes16 (le16 b0 b1) = [b0, b1] := by
  rw [bytes16_eq_lowBytes, ← littleEndian_two]
  exact lowBytes_littleEndian [b0, b1]

theorem bytes32_le32 (b0 b1 b2 b3 : Byte) : bytes32 (le32 b0 b1 b2 b3) = [b0, b1, b2, b3] := by
  rw [bytes32_eq_lowBytes, ← littleEndian_four]
  exact lowBytes_littleEndian [b0, b1, b2, b3]

/-- Settles O4: the two round trips of byte lists, at two and four bytes. -/
theorem littleEndianInverse : Obligations.LittleEndianInverse := by
  refine ⟨fun v hv => ⟨_, _, rfl, ?_⟩, fun v hv => ⟨_, _, _, _, rfl, ?_⟩,
    fun b0 b1 => ⟨le16_lt b0 b1, bytes16_le16 b0 b1⟩,
    fun b0 b1 b2 b3 => ⟨le32_lt b0 b1 b2 b3, bytes32_le32 b0 b1 b2 b3⟩⟩
  · rw [← littleEndian_two]
    exact littleEndian_bytes16 hv
  · rw [← littleEndian_four]
    exact littleEndian_bytes32 hv

end Sys2Proof.Machine

/-! PROOFS. Why the clause of R36 on decoding holds: the decoder takes the byte form of a valid parse back to the source it
parses (10_state.md R36, 30_encoding.md R108, R110). The encoder's output is such a byte form at every step. -/

namespace Sys2Proof.Machine

open Sys2Proof

/-! ### A pair's fields in its payload -/

/-- `Pack` as a sum (R98): the two fields share no bit. -/
theorem packPair_eq_add {o l : Nat} (ho : o ≤ 2047) : packPair o l = o + 2048 * (l - 3) := by
  have h := Nat.shiftLeft_add_eq_or_of_lt (show o < 2 ^ 11 by omega) (l - 3)
  rw [Nat.shiftLeft_eq] at h
  simp only [packPair, Config.minMatch, Config.lengthBits, Nat.lor_comm o, Nat.reduceSub, ← h, Nat.shiftLeft_eq]
  omega

theorem pairOffset_eq_mod (pair : Nat) : pairOffset pair = pair % 2048 := Nat.and_two_pow_sub_one_eq_mod pair 11

theorem pairLength_eq_div (pair : Nat) : pairLength pair = pair / 2048 + 3 := by
  simp only [pairLength, Config.windowBits, Config.minMatch, Nat.shiftRight_eq_div_pow, Nat.reducePow]

theorem pairOffset_packPair {o l : Nat} (ho : o ≤ 2047) : pairOffset (packPair o l) = o := by
  rw [pairOffset_eq_mod, packPair_eq_add ho]; omega

theorem pairLength_packPair {o l : Nat} (ho : o ≤ 2047) (hl : 3 ≤ l) : pairLength (packPair o l) = l := by
  rw [pairLength_eq_div, packPair_eq_add ho]; omega

/-- A Match's payload is two bytes that assemble to the packed pair (R94). -/
theorem payload_pair {o l : Nat} (ho : o ≤ 2047) (hl : l ≤ 34) :
    ∃ b0 b1, (Token.pair o l).payload = [b0, b1] ∧ le16 b0 b1 = packPair o l := by
  have hlt : packPair o l < 2 ^ 16 := by rw [packPair_eq_add ho]; omega
  exact ⟨_, _, rfl, by rw [← littleEndian_two]; exact littleEndian_bytes16 hlt⟩

/-! ### The bits of a control byte -/

/-- Bits below the place where a control byte is built up are left alone (R110). -/
theorem ctrlBit_controlByte_below (us : List Token) (i : Nat) (c : Byte) {j : Nat} (hj : j < i)
    (h8 : i + us.length ≤ 8) : ctrlBit (controlByte us i c) j = ctrlBit c j := by
  induction us generalizing i c with
  | nil => rfl
  | cons u us ih =>
    simp only [List.length_cons] at h8
    rw [controlByte, ih (i + 1) _ (by omega) (by omega)]
    split
    · rw [ctrlBit_setCtrlBit _ _ (by omega)]
      simp [Nat.ne_of_lt hj]
    · rfl

/-- Bit `i` of a block's control byte says whether its token `i` is a Match (R92, R110). -/
theorem ctrlBit_controlByte {us : List Token} {i k : Nat} {c : Byte} {u : Token} (hc : ∀ j, i ≤ j → ctrlBit c j = false)
    (h8 : i + us.length ≤ 8) (hu : us[k]? = some u) : ctrlBit (controlByte us i c) (i + k) = u.isPair := by
  induction us generalizing i k c with
  | nil => simp at hu
  | cons v us ih =>
    simp only [List.length_cons] at h8
    cases k with
    | zero =>
      obtain rfl : v = u := by simpa using hu
      simp only [Nat.add_zero]
      rw [controlByte, ctrlBit_controlByte_below _ _ _ (by omega) (by omega)]
      split
      · rename_i hp
        rw [ctrlBit_setCtrlBit _ _ (by omega), hp]
        simp
      · rename_i hp
        rw [hc i (Nat.le_refl i), Bool.eq_false_of_not_eq_true hp]
    | succ k =>
      have hrest : ∀ j, i + 1 ≤ j → ctrlBit (if v.isPair then setCtrlBit c i else c) j = false := fun j hj => by
        split
        · rw [ctrlBit_setCtrlBit _ _ (by omega), hc j (by omega)]
          simp; omega
        · exact hc j (by omega)
      rw [controlByte, show i + (k + 1) = i + 1 + k by omega]
      exact ih hrest (by omega) (by simpa using hu)

/-! ### The copy of a valid match -/

/-- The byte-by-byte copy of a valid match extends the output by the source's next bytes, overlap included (R187, R189). -/
theorem copyMatch_eq_take {X : List Byte} {k q p : Nat} (hq : q < p) (hp : p + k ≤ X.length)
    (hX : ∀ j, j < k → X[q + j]? = X[p + j]?) : copyMatch k q (X.take p) = X.take (p + k) := by
  induction k generalizing q p with
  | zero => rfl
  | succ k ih =>
    have hread : (X.take p)[q]? = some X[p] := by
      rw [List.getElem?_take_of_lt hq]
      simpa using (hX 0 (by omega)).trans (List.getElem?_eq_getElem (by omega))
    have hsnoc : X.take p ++ [X[p]] = X.take (p + 1) := by simp
    have hnext := ih (q := q + 1) (p := p + 1) (by omega) (by omega) fun j hj => by
      simpa only [Nat.add_assoc, Nat.add_comm 1] using hX (j + 1) (by omega)
    simp only [copyMatch, hread, hsnoc, hnext, Nat.add_assoc, Nat.add_comm 1]

/-- The conditions of a valid match are the three checks of a pair (R104, R108). -/
theorem pairError_of_valid {n p o l : Nat} (hp : p + l ≤ n) (hw : winStart p + o < p) : pairError n p o l = none := by
  have h1 : ¬ n < p + l := by omega
  have h2 : ¬ n < winStart p + o + l := by omega
  have h3 : ¬ p - winStart p ≤ o := by omega
  simp only [pairError, h1, h2, h3, if_false]

/-! ### Tokens, blocks, streams -/

/-- The decoder at a cursor inside a block takes the block's remaining tokens `us` and stands where they end. The block is
full, or they are the parse's last. -/
theorem decodeTokens_validParse {X : List Byte} {c : Byte} {us vs : List Token} {k bit p : Nat} {tail : List Byte}
    (hv : ValidParse X p (us ++ vs)) (hk : us.length = k ∨ us.length ≤ k ∧ vs = [])
    (hc : ∀ i u, us[i]? = some u → ctrlBit c (bit + i) = u.isPair) (hp : p ≤ X.length) :
    ∃ q, q ≤ X.length ∧ ValidParse X q vs ∧
      decodeTokens X.length c k bit (us.flatMap Token.payload ++ tail) (X.take p) = .ok (tail, X.take q) := by
  induction us generalizing k bit p with
  | nil =>
    refine ⟨p, hp, hv, ?_⟩
    cases k with
    | zero => rfl
    | succ k =>
      obtain rfl : vs = [] := by simpa using hk
      obtain rfl : p = X.length := hv
      simp [decodeTokens]
  | cons u us ih =>
    simp only [List.length_cons] at hk
    obtain ⟨k, rfl⟩ : ∃ k', k = k' + 1 := ⟨k - 1, by omega⟩
    have hbit : ctrlBit c bit = u.isPair := hc 0 u rfl
    have hc' : ∀ i u, us[i]? = some u → ctrlBit c (bit + 1 + i) = u.isPair := fun i u hi => by
      rw [Nat.add_assoc, Nat.add_comm 1]
      exact hc (i + 1) u (by simpa using hi)
    have hk' : us.length = k ∨ us.length ≤ k ∧ vs = [] :=
      hk.imp (by omega) (And.imp_left (by omega))
    have hlen : (X.take p).length = p := by simp [hp]
    cases u with
    | literal b =>
      obtain ⟨hb, hrest⟩ := hv
      obtain ⟨hlt, rfl⟩ := List.getElem?_eq_some_iff.mp hb
      obtain ⟨q, hq, hvq, hdec⟩ := ih hrest hk' hc' hlt
      refine ⟨q, hq, hvq, ?_⟩
      have hsnoc : X.take p ++ [X[p]] = X.take (p + 1) := by simp
      simpa [decodeTokens, hlen, hlt, hbit, Token.isPair, Token.payload, hsnoc] using hdec
    | pair o l =>
      obtain ⟨⟨h3, h34, ho, hpl, hw, hX⟩, hrest⟩ := hv
      obtain ⟨q, hq, hvq, hdec⟩ := ih hrest hk' hc' hpl
      refine ⟨q, hq, hvq, ?_⟩
      obtain ⟨b0, b1, hpay, hle⟩ := payload_pair ho h34
      have hlt : p < X.length := by omega
      have hcopy : copyMatch l (winStart p + o) (X.take p) = X.take (p + l) := copyMatch_eq_take hw hpl hX
      simpa [decodeTokens, hlen, hlt, hbit, Token.isPair, hpay, hle, pairOffset_packPair ho, pairLength_packPair ho h3,
        pairError_of_valid hpl hw, hcopy] using hdec

/-- The outer loop ends as soon as the output is complete (R191, R102). -/
theorem decodeBlocks_complete {n fuel : Nat} {rest out : List Byte} (h : n ≤ out.length) :
    decodeBlocks n fuel rest out = .ok (rest, out) := by
  have hn : ¬ out.length < n := by omega
  cases fuel <;> simp [decodeBlocks, hn]

/-- A block of the byte form: its control byte, its tokens' payloads, and the blocks after it (R110). -/
theorem blockBytes_cons (f : Nat) {ts : List Token} (h : ts ≠ []) :
    blockBytes (f + 1) ts =
      controlByte (ts.take 8) 0 0#8 :: ((ts.take 8).flatMap Token.payload ++ blockBytes f (ts.drop 8)) := by
  simp [blockBytes, h]

/-- Some token of a parse is left only before the source's end. -/
theorem ValidParse.lt_length {X : List Byte} {p : Nat} {ts : List Token} (h : ValidParse X p ts) (hts : ts ≠ []) :
    p < X.length := by
  match ts, h with
  | .literal _ :: _, ⟨hb, _⟩ => exact (List.getElem?_eq_some_iff.mp hb).1
  | .pair _ _ :: _, ⟨⟨h3, _, _, hp, _⟩, _⟩ => omega

/-- The decoder at a block boundary takes the byte form of a parse's remaining tokens to the end of the output. -/
theorem decodeBlocks_validParse {X : List Byte} {f fuel p : Nat} {ts : List Token} {tail : List Byte}
    (hv : ValidParse X p ts) (hf : ts.length ≤ f) (hfuel : (blockBytes f ts).length ≤ fuel) (hp : p ≤ X.length) :
    decodeBlocks X.length fuel (blockBytes f ts ++ tail) (X.take p) = .ok (tail, X) := by
  induction f generalizing fuel p ts with
  | zero =>
    obtain rfl : ts = [] := List.length_eq_zero_iff.mp (by omega)
    obtain rfl : p = X.length := hv
    simp [blockBytes, decodeBlocks_complete]
  | succ f ih =>
    by_cases hts : ts = []
    · subst hts
      obtain rfl : p = X.length := hv
      simp [blockBytes, decodeBlocks_complete]
    · rw [blockBytes_cons f hts, List.length_cons, List.length_append] at hfuel
      obtain ⟨fuel, rfl⟩ : ∃ g, fuel = g + 1 := ⟨fuel - 1, by omega⟩
      have hlt := hv.lt_length hts
      have hfull : (ts.take 8).length = 8 ∨ (ts.take 8).length ≤ 8 ∧ ts.drop 8 = [] := by
        rw [List.length_take, List.drop_eq_nil_iff]; omega
      have hbits : ∀ i u, (ts.take 8)[i]? = some u → ctrlBit (controlByte (ts.take 8) 0 0#8) (0 + i) = u.isPair :=
        fun i u hu => ctrlBit_controlByte (by simp) (by simp) hu
      rw [← List.take_append_drop 8 ts] at hv
      obtain ⟨q, hq, hvq, hdec⟩ :=
        decodeTokens_validParse (tail := blockBytes f (ts.drop 8) ++ tail) hv hfull hbits hp
      have hrest := ih hvq (by rw [List.length_drop]; omega) (fuel := fuel) (by omega) hq
      have hlen : (X.take p).length < X.length := by simp [hlt]
      rw [blockBytes_cons f hts, List.cons_append, decodeBlocks, if_pos hlen, List.append_assoc, hdec]
      exact hrest

/-- The byte form of a valid parse decodes to its source and leaves nothing over (R108). -/
theorem decompressRest_validParse {X : List Byte} {ts : List Token} (hX : X.length < 2 ^ 32) (hv : ValidParse X 0 ts) :
    decompressRest (streamBytes X.length ts) = .ok ([], X) := by
  have hn : littleEndian (bytes32 X.length) = X.length := littleEndian_bytes32 hX
  have hblocks := decodeBlocks_validParse (tail := []) hv (Nat.le_refl _) (Nat.le_refl _) (Nat.zero_le _)
  rw [List.append_nil, List.take_zero] at hblocks
  rw [bytes32, littleEndian_four] at hn
  simp only [streamBytes, bytes32, decompressRest, List.cons_append, List.nil_append, hn, hblocks]

/-- R36's last clause follows from the parse behind the output. -/
theorem State.ParsedAs.outputDecodes {s : State} {X : List Byte} {closed opened : List Token}
    (h : s.ParsedAs X closed opened) (h8 : s.ph.inBlock = true → s.tok ≤ 8) (hr : s.r < 2 ^ 32) : s.OutputDecodes := by
  refine ⟨X, _, h.source, h.output, ?_⟩
  rw [h.append_openBlock h8, ← h.length_eq]
  exact decompressRest_validParse (h.length_eq ▸ hr) h.valid

end Sys2Proof.Machine

/-! PROOFS. The machine invariant (10_state.md R21 to R27, R36, R37). `State.RunInv` is the invariant without the canonical form of
the two byte spaces: a command's first step establishes it from any not-BUSY state, and each micro-operation keeps it. -/

namespace Sys2Proof.Machine

open Sys2Proof

/-! ### Ranges and written bytes -/

/-- A range sees only the bytes at its own addresses. -/
theorem Memory.range_congr {m m' : Memory} {a k : Nat} (h : ∀ j, j < k → m'.read (a + j) = m.read (a + j)) :
    m'.range a k = m.range a k := by
  induction k generalizing a with
  | zero => rfl
  | succ k ih =>
    have hrest := ih (a := a + 1) fun j hj => by simpa only [Nat.add_assoc, Nat.add_comm 1] using h (j + 1) (by omega)
    have h0 := h 0 (by omega)
    rw [Nat.add_zero] at h0
    simp only [Memory.range, hrest, h0]

theorem Memory.range_writeAll_self (m : Memory) (a : Nat) (bs : List Byte) :
    (m.writeAll a bs).range a bs.length = some bs :=
  Memory.range_eq_some.mpr ⟨rfl, fun j hj => m.read_writeAll_inside a j bs hj⟩

theorem Memory.range_writeAll_below (m : Memory) {a k b : Nat} (bs : List Byte) (h : a + k ≤ b) :
    (m.writeAll b bs).range a k = m.range a k :=
  Memory.range_congr fun j hj => m.read_writeAll_outside bs (.inl (by omega))

/-- Writing a list behind written bytes makes the written part longer. -/
theorem Memory.writeAll_written {m : Memory} {n : Nat} (bs : List Byte) (h : ∀ a, a < n → m.read a ≠ none) :
    ∀ a, a < n + bs.length → (m.writeAll n bs).read a ≠ none := fun a ha => by
  by_cases hn : a < n
  · rw [Memory.read_writeAll_outside m bs (.inl hn)]
    exact h a hn
  · obtain ⟨k, rfl⟩ : ∃ k, a = n + k := ⟨a - n, by omega⟩
    rw [Memory.read_writeAll_inside m n k bs (by omega)]
    simp; omega

/-- Writing one byte behind written bytes makes the written part longer. -/
theorem Memory.write_written {m : Memory} {n : Nat} (b : Byte) (h : ∀ a, a < n → m.read a ≠ none) :
    ∀ a, a < n + 1 → (m.write n b).read a ≠ none :=
  Memory.writeAll_written [b] h

/-- What `Find` answers on two ranges of a byte space is an occurrence in that space (R13, R122). -/
theorem reads_of_find {m : Memory} {a k r l j : Nat} {window candidate : List Byte} (hw : m.range a k = some window)
    (hc : m.range r l = some candidate) (hj : find window candidate = some j) :
    j + l ≤ k ∧ ∀ i, i < l → m.read (a + j + i) = m.read (r + i) := by
  obtain ⟨hwl, hwr⟩ := Memory.range_eq_some.mp hw
  obtain ⟨hcl, hcr⟩ := Memory.range_eq_some.mp hc
  obtain ⟨⟨rest, hrest⟩, hfits⟩ := find_some_spec hj
  refine ⟨by omega, fun i hi => ?_⟩
  calc m.read (a + j + i) = window[j + i]? := by rw [Nat.add_assoc]; exact hwr _ (by omega)
    _ = (candidate ++ rest)[i]? := by rw [hrest, List.getElem?_drop]
    _ = candidate[i]? := List.getElem?_append_left (by omega)
    _ = m.read (r + i) := (hcr i hi).symm

theorem memRead_lt {m : Memory} {a k n : Nat} (h : memRead m a k = some n) : n < 256 ^ k := by
  obtain ⟨bs, hbs, rfl⟩ := Option.map_eq_some_iff.mp h
  exact (Memory.range_eq_some.mp hbs).1 ▸ littleEndian_lt bs

/-! ### The invariant of a run -/

/-- The machine invariant without the canonical form of the byte spaces. -/
structure State.RunInv (s : State) : Prop where
  widths : s.Widths
  port : s.Port
  encoder : s.ph.compressing = true → s.EncoderInv
  decoder : s.ph.decompressing = true → s.DecoderInv

theorem State.Inv.runInv {s : State} (h : s.Inv) : s.RunInv := ⟨h.widths, h.port, h.encoder, h.decoder⟩

theorem State.RunInv.inv {s : State} (h : s.RunInv) (hst : s.Stores) : s.Inv :=
  ⟨h.widths, hst, h.port, h.encoder, h.decoder⟩

/-- What no step inside a command changes of what the host sees: all but `DST_LEN` and the phase. -/
def State.KeepsPort (s t : State) : Prop :=
  t.status = s.status ∧ t.err = s.err ∧ t.srcLen = s.srcLen ∧ t.caps = s.caps

theorem State.Port.keep {s t : State} (h : s.Port) (hk : s.KeepsPort t) (hs : s.ph ≠ .halt) (ht : t.ph ≠ .halt)
    (hd : t.dstLen ≤ s.caps.dst) : t.Port := by
  obtain ⟨hstatus, herr, hsrc, hcaps⟩ := hk
  have hbusy : t.status = .busy := hstatus.trans (h.busy_iff.mpr hs)
  have hnone : t.err = .none := herr.trans (h.err_iff.mpr (by rw [← hstatus, hbusy]; nofun))
  constructor <;> simp [hbusy, hnone, ht, hsrc, hcaps, h.srcLen_le, hd]

/-- A step of an encoder that stays in the command. -/
theorem State.RunInv.encode {s t : State} (h : s.RunInv) (hs : s.ph ≠ .halt) (hw : t.Widths) (hk : s.KeepsPort t)
    (hd : t.dstLen ≤ s.caps.dst) (hp : t.ph.compressing = true) (he : t.EncoderInv) : t.RunInv where
  widths := hw
  port := h.port.keep hk hs (fun ht => by simp [ht, Phase.compressing] at hp) hd
  encoder _ := he
  decoder hdec := by cases hph : t.ph <;> simp [hph, Phase.compressing, Phase.decompressing] at hp hdec

/-- A step of the decoder that stays in the command. -/
theorem State.RunInv.decode {s t : State} (h : s.RunInv) (hs : s.ph ≠ .halt) (hw : t.Widths) (hk : s.KeepsPort t)
    (hp : t.ph.decompressing = true) (he : t.DecoderInv) : t.RunInv where
  widths := hw
  port := h.port.keep hk hs (fun ht => by simp [ht, Phase.decompressing] at hp) (by rw [he.len_zero]; omega)
  encoder henc := by cases hph : t.ph <;> simp [hph, Phase.compressing, Phase.decompressing] at hp henc
  decoder _ := he

/-- Error entry (R246). -/
theorem runInv_enterError {s : State} (code : FailCode) (hw : s.Widths) (hlen : s.srcLen ≤ s.caps.src.toNat) :
    (enterError code s).RunInv where
  widths := { hw with dstLen := by simp }
  port := by cases code <;> constructor <;> simp [errOf, hlen]
  encoder := nofun
  decoder := nofun

/-- A command completes with a written result (R152, R182). -/
theorem runInv_complete {s : State} (hw : s.Widths) (herr : s.err = .none) (hlen : s.srcLen ≤ s.caps.src.toNat)
    (hdst : s.dstLen ≤ s.caps.dst) (hread : ∀ a, a < s.dstLen → s.dst.read a ≠ none) : (complete s).RunInv where
  widths := { hw with }
  port := by constructor <;> simp [herr, hlen, hdst]; exact hread
  encoder := nofun
  decoder := nofun

/-! ### The encoder's invariant by phase -/

/-- What R36 says while a block is open, whichever of the block's phases it is. -/
structure State.BlockInv (s : State) : Prop where
  n_eq : s.n = s.srcLen
  r_le : s.r ≤ s.n
  output : 4 ≤ s.dstLen ∧ (∀ a, a < s.dstLen → s.dst.read a ≠ none) ∧ s.dst.range 0 4 = some (bytes32 s.n)
  counts : s.tok ≤ 8 ∧ s.tok ≤ s.plen ∧ s.plen ≤ 2 * s.tok
  size : s.tok ≤ s.r ∧ s.dstLen + s.plen ≤ 4 + s.r + (s.r - s.tok) / 8
  control : ∀ k, s.tok ≤ k → ctrlBit s.ctrl k = false
  parsed : ∃ X closed opened, s.ParsedAs X closed opened

/-- What R36 says of the Matcher's registers. -/
structure State.MatcherInv (s : State) : Prop where
  window : s.ph = .mSearch ∨ s.ph = .mExtend ∨ (s.ph = .cEmit ∧ 3 ≤ s.n - s.r) →
    s.ws = winStart s.r ∧ s.wlen = s.r - s.ws ∧ 3 ≤ s.clen ∧ s.clen ≤ 34 ∧ s.r + s.clen ≤ s.n
  best : s.ph = .mSearch ∨ s.ph = .mExtend ∨ s.ph = .cEmit → s.found = true →
    3 ≤ s.blen ∧ s.blen ≤ 34 ∧ s.r + s.blen ≤ s.n ∧ s.boff + s.blen ≤ s.wlen ∧
      ∀ k, k < s.blen → s.src.read (s.ws + s.boff + k) = s.src.read (s.r + k)
  searching : s.ph = .mSearch → s.clen = if s.found then s.blen + 1 else 3
  extending : s.ph = .mExtend → s.found = true ∧ s.blen = s.clen

theorem State.EncoderInv.matcherInv {s : State} (h : s.EncoderInv) : s.MatcherInv :=
  ⟨h.window, h.best, h.searching, h.extending⟩

theorem State.EncoderInv.blockInv {s : State} (h : s.EncoderInv) (hb : s.ph.inBlock = true) : s.BlockInv := by
  have hph : s.ph ≠ .cHeader := fun h0 => by simp [h0, Phase.inBlock] at hb
  obtain ⟨htok, hsize, hctrl⟩ := h.block hb
  exact ⟨h.n_eq, h.r_le, h.output hph, h.counts (.inl hb), ⟨htok, hsize⟩, hctrl, h.parsed hph⟩

/-- R36 in a phase of an open block, put together from its parts. -/
theorem State.BlockInv.encoderInv {s : State} (h : s.BlockInv) (hn : s.n < 2 ^ 32) (hb : s.ph.inBlock = true)
    (hcur : s.ph.atCursor = true → s.tok < 8 ∧ s.r < s.n) (hclose : s.ph = .cClose → 1 ≤ s.tok ∧ (s.tok = 8 ∨ s.r = s.n))
    (hm : s.MatcherInv) : s.EncoderInv where
  n_eq := h.n_eq
  r_le := h.r_le
  start h0 := by simp [h0, Phase.inBlock] at hb
  output _ := h.output
  opening h0 := by simp [h0, Phase.inBlock] at hb
  counts _ := h.counts
  block _ := ⟨h.size.1, h.size.2, h.control⟩
  cursor := hcur
  closing := hclose
  window := hm.window
  best := hm.best
  searching := hm.searching
  extending := hm.extending
  parsed _ := h.parsed
  decodes _ := by
    obtain ⟨X, closed, opened, hpar⟩ := h.parsed
    exact hpar.outputDecodes (fun _ => h.counts.1) (by have := h.r_le; omega)

/-- Where no block is open and the header is out: R36 in `C_OPEN`. -/
theorem encoderInv_cOpen {s : State} (hph : s.ph = .cOpen) (hn : s.n < 2 ^ 32) (hsrc : s.n = s.srcLen) (hr : s.r ≤ s.n)
    (hout : 4 ≤ s.dstLen ∧ (∀ a, a < s.dstLen → s.dst.read a ≠ none) ∧ s.dst.range 0 4 = some (bytes32 s.n))
    (hsize : s.dstLen ≤ 4 + s.r + (s.r + 7) / 8 ∧ (s.r < s.n → s.dstLen ≤ 4 + s.r + s.r / 8))
    (hcounts : 0 < s.r → s.tok ≤ 8 ∧ s.tok ≤ s.plen ∧ s.plen ≤ 2 * s.tok)
    (hpar : ∃ X closed opened, s.ParsedAs X closed opened) : s.EncoderInv where
  n_eq := hsrc
  r_le := hr
  start h := by simp [hph] at h
  output _ := hout
  opening _ := hsize
  counts h := hcounts (by simpa [hph, Phase.inBlock] using h)
  block h := by simp [hph, Phase.inBlock] at h
  cursor h := by simp [hph, Phase.atCursor] at h
  closing h := by simp [hph] at h
  window h := by simp [hph] at h
  best h := by simp [hph] at h
  searching h := by simp [hph] at h
  extending h := by simp [hph] at h
  parsed _ := hpar
  decodes _ := by
    obtain ⟨X, closed, opened, hpar⟩ := hpar
    exact hpar.outputDecodes (fun h => by simp [hph, Phase.inBlock] at h) (by omega)

theorem Phase.inBlock_of_atCursor {p : Phase} (h : p.atCursor = true) : p.inBlock = true := by
  cases p <;> simp_all [Phase.atCursor, Phase.inBlock]

theorem Phase.compressing_of_atCursor {p : Phase} (h : p.atCursor = true) : p.compressing = true := by
  cases p <;> simp_all [Phase.atCursor, Phase.compressing]

/-- `t` differs from `s` in the phase and the Matcher's registers only (R120). -/
def State.MatcherFrame (s t : State) : Prop :=
  ∃ (p : Phase) (f : Bool) (ws wlen clen boff blen : Nat),
    t = { s with ph := p, found := f, ws := ws, wlen := wlen, clen := clen, boff := boff, blen := blen }

/-- The Matcher's registers and a move between the block's phases leave the parse alone. -/
theorem State.ParsedAs.matcherFrame {s t : State} {X : List Byte} {closed opened : List Token}
    (h : s.ParsedAs X closed opened) (hf : s.MatcherFrame t) (hs : s.ph.inBlock = true) (ht : t.ph.inBlock = true) :
    t.ParsedAs X closed opened := by
  obtain ⟨p, f, ws, wlen, clen, boff, blen, rfl⟩ := hf
  exact { h with
    full := fun _ => h.full (.inl hs)
    count := fun _ => h.count hs
    control := fun _ => h.control hs
    payload := fun _ => h.payload hs
    unopened := fun hn => by rw [ht] at hn; cases hn }

/-- A step of the Matcher keeps R36 when it keeps the clauses on its own registers. -/
theorem State.EncoderInv.matcherFrame {s t : State} (h : s.EncoderInv) (hn : s.n < 2 ^ 32) (hf : s.MatcherFrame t)
    (hs : s.ph.atCursor = true) (ht : t.ph.atCursor = true) (hm : t.MatcherInv) : t.EncoderInv := by
  have hb := h.blockInv (Phase.inBlock_of_atCursor hs)
  obtain ⟨X, closed, opened, hpar⟩ := hb.parsed
  have hpar' := hpar.matcherFrame hf (Phase.inBlock_of_atCursor hs) (Phase.inBlock_of_atCursor ht)
  obtain ⟨p, f, ws, wlen, clen, boff, blen, rfl⟩ := hf
  refine State.BlockInv.encoderInv { hb with parsed := ⟨X, closed, opened, hpar'⟩ } hn (Phase.inBlock_of_atCursor ht)
    (fun _ => h.cursor hs) (fun hclose => ?_) hm
  rw [hclose] at ht
  cases ht

/-- A step of the Matcher keeps the invariant of a run when it keeps the clauses on its own registers. -/
theorem State.RunInv.matcherFrame {s t : State} (h : s.RunInv) (hf : s.MatcherFrame t) (hs : s.ph.atCursor = true)
    (ht : t.ph.atCursor = true) (hw : t.Widths) (hm : t.MatcherInv) : t.RunInv := by
  have he := (h.encoder (Phase.compressing_of_atCursor hs)).matcherFrame h.widths.n hf hs ht hm
  refine h.encode (fun h0 => by rw [h0] at hs; cases hs) hw ?_ ?_ (Phase.compressing_of_atCursor ht) he
  · obtain ⟨p, f, ws, wlen, clen, boff, blen, rfl⟩ := hf
    exact ⟨rfl, rfl, rfl, rfl⟩
  · obtain ⟨p, f, ws, wlen, clen, boff, blen, rfl⟩ := hf
    exact h.port.dstLen_le

/-! ### The Matcher's steps -/

theorem State.RunInv.mStart {s t : State} (h : s.RunInv) (he : execMStart s = .next t) : t.RunInv := by
  obtain ⟨hph, hcase⟩ := execMStart_next he
  have hr := h.widths.r
  have hcur : s.ph.atCursor = true := by rw [hph]; rfl
  rcases hcase with ⟨hfew, rfl⟩ | ⟨hmany, rfl⟩
  · refine h.matcherFrame ⟨_, _, _, _, _, _, _, rfl⟩ hcur rfl { h.widths with } ?_
    exact { window := by simp; omega, best := nofun, searching := nofun, extending := nofun }
  · have hwin := sub_winStart_le s.r
    have hws := winStart_le s.r
    refine h.matcherFrame ⟨_, _, _, _, _, _, _, rfl⟩ hcur rfl { h.widths with ws := ?_, wlen := ?_, clen := ?_ } ?_
    · dsimp only; omega
    · dsimp only; omega
    · dsimp only; omega
    · exact {
        window := fun _ => ⟨rfl, rfl, Nat.le_refl 3, show 3 ≤ 34 by decide, by dsimp only; omega⟩
        best := nofun
        searching := fun _ => rfl
        extending := nofun }

theorem State.RunInv.mSearch {s t : State} (h : s.RunInv) (he : execMSearch s = .next t) : t.RunInv := by
  obtain ⟨hph, hcase⟩ := execMSearch_next he
  have e := h.encoder (by rw [hph]; rfl)
  have hcur : s.ph.atCursor = true := by rw [hph]; rfl
  have hwindow := e.window (.inl hph)
  have hfail : (searched none s).RunInv := by
    refine h.matcherFrame ⟨_, _, _, _, _, _, _, rfl⟩ hcur rfl { h.widths with } ?_
    exact { window := fun _ => hwindow, best := fun _ => e.best (.inl hph), searching := nofun, extending := nofun }
  rcases hcase with ⟨-, rfl⟩ | ⟨-, window, candidate, hw, hc, rfl⟩
  · exact hfail
  · cases hj : find window candidate with
    | none => exact hfail
    | some j =>
      obtain ⟨hfits, heq⟩ := reads_of_find hw hc hj
      obtain ⟨hws, hwlen, h3, h34, hrn⟩ := hwindow
      have hwin := sub_winStart_le s.r
      refine h.matcherFrame ⟨_, _, _, _, _, _, _, rfl⟩ hcur rfl { h.widths with boff := ?_, blen := ?_ } ?_
      · dsimp only [searched]; omega
      · dsimp only [searched]; omega
      · exact {
          window := fun _ => ⟨hws, hwlen, h3, h34, hrn⟩
          best := fun _ _ => ⟨h3, h34, hrn, hfits, heq⟩
          searching := nofun
          extending := fun _ => ⟨rfl, rfl⟩ }

theorem State.RunInv.mExtend {s t : State} (h : s.RunInv) (he : execMExtend s = .next t) : t.RunInv := by
  obtain ⟨hph, hcase⟩ := execMExtend_next he
  have e := h.encoder (by rw [hph]; rfl)
  have hcur : s.ph.atCursor = true := by rw [hph]; rfl
  have hbest := e.best (.inr (.inl hph))
  obtain ⟨hws, hwlen, h3, h34, hrn⟩ := e.window (.inr (.inl hph))
  obtain ⟨hfound, hblen⟩ := e.extending hph
  rcases hcase with ⟨-, rfl⟩ | ⟨hmax, hend, rfl⟩
  · refine h.matcherFrame ⟨_, _, _, _, _, _, _, rfl⟩ hcur rfl { h.widths with } ?_
    exact {
      window := fun _ => ⟨hws, hwlen, h3, h34, hrn⟩
      best := fun _ => hbest
      searching := nofun
      extending := nofun }
  · refine h.matcherFrame ⟨_, _, _, _, _, _, _, rfl⟩ hcur rfl { h.widths with clen := ?_ } ?_
    · dsimp only; omega
    · exact {
        window := fun _ => ⟨hws, hwlen, by dsimp only; omega, by dsimp only; omega, by dsimp only; omega⟩
        best := fun _ => hbest
        searching := fun _ => by simp [hfound, hblen]
        extending := nofun }

/-! ### The Token Encoder's steps -/

theorem State.RunInv.eHeader {s t : State} (h : s.RunInv) (he : execEHeader s = .next t) : t.RunInv := by
  obtain ⟨hph, rfl⟩ := execEHeader_next he
  have e := h.encoder (by rw [hph]; rfl)
  have hn := h.widths.n
  obtain ⟨hr0, hd0⟩ := e.start hph
  rw [putHeader_eq]
  split
  · exact runInv_enterError _ h.widths h.port.srcLen_le
  · have hwritten := Memory.writeAll_written (m := s.dst) (n := s.dstLen) (bytes32 s.n) (by simp [hd0])
    have hheader := Memory.range_writeAll_self s.dst s.dstLen (bytes32 s.n)
    rw [bytes32_length] at hwritten hheader
    refine h.encode (by rw [hph]; nofun) { h.widths with dstLen := ?_ } ⟨rfl, rfl, rfl, rfl⟩ ?_ rfl
      (encoderInv_cOpen rfl hn e.n_eq e.r_le ⟨?_, hwritten, ?_⟩ ⟨?_, fun _ => ?_⟩ (fun h0 => ?_) ⟨[], [], [], ?_⟩)
    · dsimp only; omega
    · dsimp only; omega
    · dsimp only; omega
    · dsimp only; rwa [hd0] at hheader ⊢
    · dsimp only; omega
    · dsimp only; omega
    · dsimp only at h0; omega
    · exact {
        source := by dsimp only; rw [hr0]; rfl
        output := by dsimp only; rw [hd0]; rfl
        valid := rfl
        full := fun _ => Nat.dvd_zero 8
        count := nofun
        control := nofun
        payload := nofun
        unopened := fun _ => rfl }

theorem State.RunInv.eOpen {s t : State} (h : s.RunInv) (he : execEOpen s = .next t) : t.RunInv := by
  obtain ⟨hph, hcase⟩ := execEOpen_next he
  have hs : s.ph ≠ .halt := by rw [hph]; nofun
  have e := h.encoder (by rw [hph]; rfl)
  have hout := e.output (by rw [hph]; nofun)
  rcases hcase with ⟨-, rfl⟩ | ⟨hrn, rfl⟩
  · have hbusy := h.port.busy_iff.mpr hs
    have herr := h.port.err_iff.mpr (by rw [hbusy]; nofun)
    exact runInv_complete h.widths herr h.port.srcLen_le h.port.dstLen_le hout.2.1
  · have hn := h.widths.n
    have hr := e.r_le
    have hsize := (e.opening hph).2 (by omega)
    obtain ⟨X, closed, opened, hpar⟩ := e.parsed (by rw [hph]; nofun)
    obtain rfl := hpar.unopened (by rw [hph]; rfl)
    have hpar' : ({ s with
        ctrl := 0#8, tok := 0, plen := 0, pbuf := freePbuf s.free, free := s.free + 16, ph := .mStart } :
        State).ParsedAs X closed [] :=
      { hpar with
        full := fun _ => hpar.full (.inr (by omega))
        count := fun _ => rfl
        control := fun _ => rfl
        payload := fun _ => rfl
        unopened := fun _ => rfl }
    refine h.encode hs { h.widths with tok := Nat.two_pow_pos 4, plen := Nat.two_pow_pos 5 } ⟨rfl, rfl, rfl, rfl⟩ h.port.dstLen_le rfl
      (State.BlockInv.encoderInv ⟨e.n_eq, hr, hout, ?_, ?_, fun k _ => ctrlBit_zero k, X, closed, [], hpar'⟩ hn rfl
        (fun _ => ?_) nofun ⟨nofun, nofun, nofun, nofun⟩)
    · exact ⟨Nat.zero_le _, Nat.le_refl _, Nat.le_refl _⟩
    · exact ⟨Nat.zero_le _, by dsimp only; omega⟩
    · exact ⟨Nat.zero_lt_succ 7, by dsimp only; omega⟩

/-- One more token in the open block, of `k - PLEN` payload bytes and `l` source bytes (R153, R154). -/
theorem State.RunInv.tokenPut {s : State} {c : Byte} {p : Vector Byte 16} {k l : Nat} (h : s.RunInv) (hph : s.ph = .cEmit)
    (hk : s.plen + 1 ≤ k ∧ k ≤ s.plen + 2) (hl : k ≤ s.plen + l) (hr : s.r + l ≤ s.n)
    (hc : ∀ j, s.tok + 1 ≤ j → ctrlBit c j = false)
    (hpar : ∃ X closed opened,
      (Machine.tokenPut l { s with ctrl := c, pbuf := p, plen := k }).ParsedAs X closed opened) :
    (Machine.tokenPut l { s with ctrl := c, pbuf := p, plen := k }).RunInv := by
  have e := h.encoder (by rw [hph]; rfl)
  have hb := e.blockInv (by rw [hph]; rfl)
  have hn := h.widths.n
  obtain ⟨htok, htp, hpt⟩ := hb.counts
  obtain ⟨htr, hsize⟩ := hb.size
  have htok8 := (e.cursor (by rw [hph]; rfl)).1
  have hw : (Machine.tokenPut l { s with ctrl := c, pbuf := p, plen := k }).Widths := by
    rw [tokenPut_eq]
    exact { h.widths with r := by dsimp only; omega, tok := by dsimp only; omega, plen := by dsimp only; omega }
  have hblock : (Machine.tokenPut l { s with ctrl := c, pbuf := p, plen := k }).BlockInv := by
    refine { n_eq := ?_, r_le := ?_, output := ?_, counts := ?_, size := ?_, control := ?_, parsed := hpar } <;>
      rw [tokenPut_eq] <;> dsimp only
    · exact hb.n_eq
    · exact hr
    · exact hb.output
    · omega
    · omega
    · exact hc
  rw [tokenPut_eq] at hw hblock ⊢
  have hs : s.ph ≠ .halt := by rw [hph]; nofun
  dsimp only at hw hblock ⊢
  by_cases hlast : s.tok + 1 = 8 ∨ s.r + l = s.n
  · rw [if_pos hlast] at hw hblock ⊢
    exact h.encode hs hw ⟨rfl, rfl, rfl, rfl⟩ h.port.dstLen_le rfl
      (hblock.encoderInv hn rfl nofun (fun _ => ⟨Nat.le_add_left 1 _, hlast⟩) ⟨nofun, nofun, nofun, nofun⟩)
  · rw [if_neg hlast] at hw hblock ⊢
    exact h.encode hs hw ⟨rfl, rfl, rfl, rfl⟩ h.port.dstLen_le rfl
      (hblock.encoderInv hn rfl (fun _ => by dsimp only; omega) nofun ⟨nofun, nofun, nofun, nofun⟩)

theorem State.RunInv.eLit {s t : State} (h : s.RunInv) (he : execELit s = .next t) : t.RunInv := by
  obtain ⟨hph, -, b, -, hput⟩ := execELit_next he
  have e := h.encoder (by rw [hph]; rfl)
  have hb := e.blockInv (by rw [hph]; rfl)
  have hcur := (e.cursor (by rw [hph]; rfl)).2
  obtain ⟨X, closed, opened, hpar⟩ := hb.parsed
  obtain ⟨_, hpar'⟩ := hpar.eLit he
  obtain ⟨hp, rfl⟩ := putLiteral_next hput
  exact h.tokenPut (c := s.ctrl) hph (by omega) (by omega) (by omega) (fun j hj => hb.control j (by omega))
    ⟨_, _, _, hpar'⟩

theorem State.RunInv.eMatch {s t : State} (h : s.RunInv) (he : execEMatch s = .next t) : t.RunInv := by
  obtain ⟨hph, hfound, hput⟩ := execEMatch_next he
  have e := h.encoder (by rw [hph]; rfl)
  have hb := e.blockInv (by rw [hph]; rfl)
  have htok := (e.cursor (by rw [hph]; rfl)).1
  obtain ⟨h3, h34, hrn, -⟩ := e.best (.inr (.inr hph)) hfound
  obtain ⟨X, closed, opened, hpar⟩ := hb.parsed
  obtain ⟨Y, -, hpar'⟩ := hpar.eMatch e he
  obtain ⟨hp, rfl⟩ := putPair_next hput
  refine h.tokenPut hph (by omega) (by omega) hrn (fun j hj => ?_) ⟨_, _, _, hpar'⟩
  rw [ctrlBit_setCtrlBit _ _ htok, hb.control j (by omega)]
  simp; omega

theorem State.RunInv.eClose {s t : State} (h : s.RunInv) (he : execEClose s = .next t) : t.RunInv := by
  obtain ⟨hph, hput⟩ := execEClose_next he
  have e := h.encoder (by rw [hph]; rfl)
  have hb := e.blockInv (by rw [hph]; rfl)
  obtain ⟨X, closed, opened, hpar⟩ := hb.parsed
  have hclosed := hpar.eClose e he
  rcases putControl_next hput with ⟨-, rfl⟩ | ⟨hfits, hp, rfl⟩
  · exact runInv_enterError _ h.widths h.port.srcLen_le
  · have hn := h.widths.n
    have hr := h.widths.r
    obtain ⟨htok, htp, hpt⟩ := hb.counts
    obtain ⟨htr, hsize⟩ := hb.size
    obtain ⟨ht1, ht8⟩ := e.closing hph
    obtain ⟨h4, hread, hheader⟩ := hb.output
    have hbusy := h.port.busy_iff.mpr (by rw [hph]; nofun)
    have hpar' := hclosed.resolve_left (by dsimp only; rw [hbusy]; nofun)
    have hwritten := Memory.writeAll_written (s.ctrl :: s.pbuf.toList.take s.plen) hread
    have hlen : (s.ctrl :: s.pbuf.toList.take s.plen).length = 1 + s.plen := by simp; omega
    rw [hlen] at hwritten
    refine h.encode (by rw [hph]; nofun) { h.widths with dstLen := ?_ } ⟨rfl, rfl, rfl, rfl⟩ ?_ rfl
      (encoderInv_cOpen rfl hn hb.n_eq hb.r_le ⟨?_, hwritten, ?_⟩ ?_ (fun _ => hb.counts) ⟨_, _, _, hpar'⟩)
    · dsimp only; omega
    · dsimp only; omega
    · dsimp only; omega
    · exact (Memory.range_writeAll_below s.dst _ (by omega)).trans hheader
    · dsimp only; omega

/-! ### The Stream Decoder's steps -/

theorem State.RunInv.dHeader {s t : State} (h : s.RunInv) (he : execDHeader s = .next t) : t.RunInv := by
  obtain ⟨hph, ⟨-, rfl⟩ | ⟨hm, n, hread, rfl⟩⟩ := execDHeader_next he
  · exact runInv_enterError _ h.widths h.port.srcLen_le
  · have d := h.decoder (by rw [hph]; rfl)
    have hn : n < 2 ^ 32 := memRead_lt hread
    rw [takeHeader_eq]
    split
    · exact runInv_enterError _ { h.widths with n := hn, ip := by dsimp only; omega, op := Nat.two_pow_pos 32 }
        h.port.srcLen_le
    · exact h.decode (by rw [hph]; nofun)
        { h.widths with n := hn, ip := by dsimp only; omega, op := Nat.two_pow_pos 32 } ⟨rfl, rfl, rfl, rfl⟩ rfl
        { m_eq := d.m_eq
          len_zero := d.len_zero
          start := nofun
          cursors := fun _ => ⟨Nat.le_refl 4, hm, Nat.zero_le n, by dsimp only; omega, hread, nofun⟩
          bits := by simp
          copy := nofun }

theorem State.RunInv.dCtrl {s t : State} (h : s.RunInv) (he : execDCtrl s = .next t) : t.RunInv := by
  obtain ⟨hph, hcase⟩ := execDCtrl_next he
  have hs : s.ph ≠ .halt := by rw [hph]; nofun
  have d := h.decoder (by rw [hph]; rfl)
  obtain ⟨h4, him, hon, hncap, hhead, hwritten⟩ := d.cursors (by rw [hph]; nofun)
  have hn := h.widths.n
  have hm := h.widths.m
  rcases hcase with ⟨hend, rfl⟩ | ⟨-, -, rfl⟩ | ⟨-, hip, c, -, rfl⟩
  · have hbusy := h.port.busy_iff.mpr hs
    have herr := h.port.err_iff.mpr (by rw [hbusy]; nofun)
    exact runInv_complete { h.widths with dstLen := by dsimp only; omega } herr h.port.srcLen_le hncap (hend ▸ hwritten)
  · exact runInv_enterError _ h.widths h.port.srcLen_le
  · exact h.decode hs { h.widths with ip := by dsimp only [takeControl]; omega, bit := Nat.two_pow_pos 4 }
      ⟨rfl, rfl, rfl, rfl⟩ rfl
      { m_eq := d.m_eq
        len_zero := d.len_zero
        start := nofun
        cursors := fun _ =>
          ⟨by dsimp only [takeControl]; omega, by dsimp only [takeControl]; omega, hon, hncap, hhead, hwritten⟩
        bits := fun _ => Nat.zero_le 8
        copy := nofun }

theorem State.RunInv.dEndblock {s t : State} (h : s.RunInv) (he : execDEndblock s = .next t) : t.RunInv := by
  obtain ⟨hph, -, rfl⟩ := execDEndblock_next he
  have d := h.decoder (by rw [hph]; rfl)
  exact h.decode (by rw [hph]; nofun) { h.widths with } ⟨rfl, rfl, rfl, rfl⟩ rfl
    { m_eq := d.m_eq
      len_zero := d.len_zero
      start := nofun
      cursors := fun _ => d.cursors (by rw [hph]; nofun)
      bits := fun _ => d.bits (.inl hph)
      copy := nofun }

theorem State.RunInv.dLit {s t : State} (h : s.RunInv) (he : execDLit s = .next t) : t.RunInv := by
  obtain ⟨hph, hbit, hop, -, ⟨-, rfl⟩ | ⟨hip, -, b, -, rfl⟩⟩ := execDLit_next he
  · exact runInv_enterError _ h.widths h.port.srcLen_le
  · have d := h.decoder (by rw [hph]; rfl)
    obtain ⟨h4, him, hon, hncap, hhead, hwritten⟩ := d.cursors (by rw [hph]; nofun)
    have hn := h.widths.n
    have hm := h.widths.m
    exact h.decode (by rw [hph]; nofun)
      { h.widths with ip := by dsimp only; omega, op := by dsimp only; omega, bit := by dsimp only; omega }
      ⟨rfl, rfl, rfl, rfl⟩ (by dsimp only; rw [hph]; rfl)
      { m_eq := d.m_eq
        len_zero := d.len_zero
        start := by simp [hph]
        cursors := fun _ =>
          ⟨by dsimp only; omega, hip, hop, hncap, hhead, Memory.write_written b hwritten⟩
        bits := fun _ => hbit
        copy := by simp [hph] }

theorem State.RunInv.dPair {s t : State} (h : s.RunInv) (he : execDPair s = .next t) : t.RunInv := by
  obtain ⟨hph, hbit, hop, -, ⟨-, rfl⟩ | ⟨hip, pair, hread, rfl⟩⟩ := execDPair_next he
  · exact runInv_enterError _ h.widths h.port.srcLen_le
  · have d := h.decoder (by rw [hph]; rfl)
    obtain ⟨h4, him, hon, hncap, hhead, hwritten⟩ := d.cursors (by rw [hph]; nofun)
    have hm := h.widths.m
    have hopw := h.widths.op
    have hoff := pairOffset_lt pair
    obtain ⟨hl3, hl34⟩ := pairLength_range (memRead_lt hread)
    have hws := winStart_le s.op
    have hw : ({ s with
        ip := s.ip + 2, off := pairOffset pair, len := pairLength pair, ws := winStart s.op } : State).Widths :=
      { h.widths with
        ip := by dsimp only; omega, off := hoff, len := by dsimp only; omega, ws := by dsimp only; omega }
    rw [takePair_eq]
    split
    · exact runInv_enterError _ hw h.port.srcLen_le
    · rename_i hcheck
      obtain ⟨hdst, -, hwin⟩ := checkPair_eq_none.mp hcheck
      dsimp only at hdst hwin
      exact h.decode (by rw [hph]; nofun) { hw with i := Nat.two_pow_pos 6 } ⟨rfl, rfl, rfl, rfl⟩ rfl
        { m_eq := d.m_eq
          len_zero := d.len_zero
          start := nofun
          cursors := fun _ => ⟨by dsimp only; omega, by dsimp only; omega, hon, hncap, hhead, hwritten⟩
          bits := fun _ => Nat.le_of_lt hbit
          copy := fun _ => ⟨hbit, hl3, hl34, hdst, rfl, by dsimp only; omega, Nat.zero_le _, hwritten⟩ }

theorem State.RunInv.dCopy {s t : State} (h : s.RunInv) (he : execDCopy s = .next t) : t.RunInv := by
  obtain ⟨hph, hi, -, b, -, rfl⟩ := execDCopy_next he
  have d := h.decoder (by rw [hph]; rfl)
  obtain ⟨h4, him, hon, hncap, hhead, -⟩ := d.cursors (by rw [hph]; nofun)
  obtain ⟨hbit, hl3, hl34, hdst, hws, hwin, -, hcopied⟩ := d.copy hph
  have hwritten : ∀ a, a < s.op + (s.i + 1) → (s.dst.write (copyTarget s) b).read a ≠ none :=
    Memory.write_written b hcopied
  exact h.decode (by rw [hph]; nofun) { h.widths with i := by dsimp only; omega } ⟨rfl, rfl, rfl, rfl⟩
    (by dsimp only; rw [hph]; rfl)
    { m_eq := d.m_eq
      len_zero := d.len_zero
      start := by simp [hph]
      cursors := fun _ => ⟨h4, him, hon, hncap, hhead, fun a ha => hwritten a (by dsimp only at ha; omega)⟩
      bits := fun _ => Nat.le_of_lt hbit
      copy := fun _ => ⟨hbit, hl3, hl34, hdst, hws, hwin, hi, hwritten⟩ }

theorem State.RunInv.dCopyend {s t : State} (h : s.RunInv) (he : execDCopyend s = .next t) : t.RunInv := by
  obtain ⟨hph, hi, rfl⟩ := execDCopyend_next he
  have d := h.decoder (by rw [hph]; rfl)
  obtain ⟨h4, him, -, hncap, hhead, -⟩ := d.cursors (by rw [hph]; nofun)
  obtain ⟨hbit, -, -, hdst, -, -, -, hcopied⟩ := d.copy hph
  have hn := h.widths.n
  exact h.decode (by rw [hph]; nofun) { h.widths with op := by dsimp only; omega, bit := by dsimp only; omega }
    ⟨rfl, rfl, rfl, rfl⟩ rfl
    { m_eq := d.m_eq
      len_zero := d.len_zero
      start := nofun
      cursors := fun _ => ⟨h4, him, hdst, hncap, hhead, hi ▸ hcopied⟩
      bits := fun _ => hbit
      copy := nofun }

/-! ### Every step -/

/-- The micro-operation that the sequencer selects keeps the invariant of a run. -/
theorem State.RunInv.exec {s t : State} {i : Instr} (h : s.RunInv) (hi : selectOp s = some i) (he : exec i s = .next t) :
    t.RunInv := by
  rcases selectOp_some hi with ⟨rfl, -⟩ | ⟨rfl, -⟩ | ⟨rfl, -⟩ | ⟨rfl, -⟩ | ⟨rfl, -⟩ | ⟨rfl, -⟩ | ⟨rfl, -⟩ | ⟨rfl, -⟩ |
    ⟨rfl, -⟩ | ⟨rfl, -⟩ | ⟨rfl, -⟩ | ⟨rfl, -⟩ | ⟨rfl, -⟩ | ⟨rfl, -⟩ | ⟨rfl, -⟩
  · exact h.eHeader he
  · exact h.eOpen he
  · exact h.mStart he
  · exact h.mSearch he
  · exact h.mExtend he
  · exact h.eLit he
  · exact h.eMatch he
  · exact h.eClose he
  · exact h.dHeader he
  · exact h.dCtrl he
  · exact h.dEndblock he
  · exact h.dLit he
  · exact h.dPair he
  · exact h.dCopy he
  · exact h.dCopyend he

theorem State.RunInv.engineStep {s t : State} (h : s.RunInv) (he : engineStep s = .next t) : t.RunInv := by
  rcases engineStep_next he with ⟨-, rfl⟩ | ⟨i, hi, he⟩
  · exact h
  · exact h.exec hi he

/-- A free value fits the width of the register that takes it (log 7). -/
theorem draw_lt (s : State) (w k : Nat) : s.draw w k < 2 ^ w := (Config.freeWord w (s.free + k)).isLt

theorem widths_startCommand {s : State} (hlen : s.srcLen < 2 ^ 32) : (startCommand s).Widths := by
  constructor
  case srcLen => exact hlen
  case dstLen => exact Nat.two_pow_pos 33
  all_goals exact draw_lt s _ _

/-- CMD.COMPRESS establishes the invariant, whatever ran before (R221, R35). -/
theorem runInv_startCompress {s : State} (hlen : s.srcLen ≤ s.caps.src.toNat) :
    ({ startCommand s with n := s.srcLen, r := 0, ph := .cHeader } : State).RunInv where
  widths :=
    have hw : s.srcLen < 2 ^ 32 := Nat.lt_of_le_of_lt hlen s.caps.src.isLt
    { widths_startCommand hw with n := hw, r := Nat.two_pow_pos 32 }
  port := by constructor <;> simp [hlen]
  encoder _ := by constructor <;> simp [Phase.inBlock, Phase.atCursor]
  decoder := nofun

/-- CMD.DECOMPRESS establishes the invariant, whatever ran before (R222, R35). -/
theorem runInv_startDecompress {s : State} (hlen : s.srcLen ≤ s.caps.src.toNat) :
    ({ startCommand s with m := s.srcLen, ip := 0, op := 0, ph := .dHeader } : State).RunInv where
  widths :=
    have hw : s.srcLen < 2 ^ 32 := Nat.lt_of_le_of_lt hlen s.caps.src.isLt
    { widths_startCommand hw with m := hw, ip := Nat.two_pow_pos 32, op := Nat.two_pow_pos 32 }
  port := by constructor <;> simp [hlen]
  encoder := nofun
  decoder _ := by constructor <;> simp

/-- A write of `CMD` (R221, R222, R224, R225). -/
theorem State.RunInv.command {s t : State} {code : BitVec 2} (h : s.RunInv)
    (he : Machine.exec (commandOf code) s = .next t) : t.RunInv := by
  unfold commandOf at he
  split at he
  · rcases execCmdCompress_next he with ⟨-, rfl⟩ | ⟨-, hlen, rfl⟩
    · exact h
    · exact runInv_startCompress hlen
  · split at he
    · rcases execCmdDecompress_next he with ⟨-, rfl⟩ | ⟨-, hlen, rfl⟩
      · exact h
      · exact runInv_startDecompress hlen
    · obtain ⟨-, rfl⟩ := execCmdReserved_next (code := code) he
      exact h

/-! ### What no instruction changes -/

/-- The parameters, the host's moves, `SRC` and `SRC_LEN` stay (R20, R61). -/
def State.KeepsSource (s t : State) : Prop :=
  t.caps = s.caps ∧ t.host = s.host ∧ t.src = s.src ∧ t.srcLen = s.srcLen

theorem State.KeepsSource.refl (s : State) : s.KeepsSource s := ⟨rfl, rfl, rfl, rfl⟩

theorem keepsSource_takeHeader (n : Nat) (s : State) : s.KeepsSource (takeHeader n s) := by
  rw [takeHeader_eq]; split <;> exact .refl s

theorem keepsSource_takePair (o l : Nat) (s : State) : s.KeepsSource (takePair o l s) := by
  rw [takePair_eq]; split <;> exact .refl s

theorem keepsSource_putHeader (n : Nat) (s : State) : s.KeepsSource (putHeader n s) := by
  rw [putHeader_eq]; split <;> exact .refl s

theorem keepsSource_tokenPut (k : Nat) (s : State) : s.KeepsSource (tokenPut k s) := by
  rw [tokenPut_eq]; exact .refl s

theorem keepsSource_takeLiteral {b : Byte} {s t : State} (h : takeLiteral b s = .next t) : s.KeepsSource t := by
  obtain ⟨-, rfl⟩ := storeDst_next h
  exact .refl s

theorem keepsSource_putLiteral {b : Byte} {s t : State} (h : putLiteral b s = .next t) : s.KeepsSource t := by
  obtain ⟨hp, rfl⟩ := putLiteral_next h
  exact keepsSource_tokenPut 1 { s with pbuf := s.pbuf.set s.plen b hp, plen := s.plen + 1 }

theorem keepsSource_putPair {o l : Nat} {s t : State} (h : putPair o l s = .next t) : s.KeepsSource t := by
  obtain ⟨hp, rfl⟩ := putPair_next h
  exact keepsSource_tokenPut l _

theorem keepsSource_putControl {c : Byte} {s t : State} (h : putControl c s = .next t) : s.KeepsSource t := by
  obtain ⟨-, rfl⟩ | ⟨-, -, rfl⟩ := putControl_next h <;> exact .refl s

theorem keepsSource_header {n : Nat} {s t : State} (h : execHeader n s = .next t) : s.KeepsSource t := by
  unfold execHeader at h
  split at h
  · split at h
    · cases h; exact .refl s
    · cases h; exact keepsSource_takeHeader n s
  · cases h; exact keepsSource_putHeader n s
  · cases h

theorem keepsSource_control {mask : Byte} {s t : State} (h : execControl mask s = .next t) : s.KeepsSource t := by
  unfold execControl at h
  split at h
  · split at h
    · cases h
    · split at h <;> cases h <;> exact .refl s
  · exact keepsSource_putControl h
  · cases h

theorem keepsSource_literal {b : Byte} {s t : State} (h : execLiteral b s = .next t) : s.KeepsSource t := by
  unfold execLiteral at h
  split at h
  · split at h
    · split at h
      · cases h; exact .refl s
      · exact keepsSource_takeLiteral h
    · cases h
  · split at h
    · cases h
    · exact keepsSource_putLiteral h
  · cases h

theorem keepsSource_matchPair {o l : Nat} {s t : State} (h : execMatchPair o l s = .next t) : s.KeepsSource t := by
  unfold execMatchPair at h
  split at h
  · split at h
    · split at h
      · cases h; exact .refl s
      · cases h; exact keepsSource_takePair o l s
    · cases h
  · split at h
    · exact keepsSource_putPair h
    · cases h
  · cases h

/-- Every instruction but RESET, by its answer. -/
theorem exec_keepsSource {i : Instr} {s t : State} (hi : i ≠ .reset) (h : exec i s = .next t) : s.KeepsSource t := by
  cases i with
  | header n => exact keepsSource_header h
  | control mask => exact keepsSource_control h
  | literal b => exact keepsSource_literal h
  | matchPair o l => exact keepsSource_matchPair h
  | cmdCompress => obtain ⟨-, rfl⟩ | ⟨-, -, rfl⟩ := execCmdCompress_next h <;> exact .refl _
  | cmdDecompress => obtain ⟨-, rfl⟩ | ⟨-, -, rfl⟩ := execCmdDecompress_next h <;> exact .refl _
  | cmdReserved code => obtain ⟨-, rfl⟩ := execCmdReserved_next (code := code) h; exact .refl _
  | mStart => obtain ⟨-, ⟨-, rfl⟩ | ⟨-, rfl⟩⟩ := execMStart_next h <;> exact .refl s
  | mSearch =>
    obtain ⟨-, ⟨-, rfl⟩ | ⟨-, window, candidate, -, -, rfl⟩⟩ := execMSearch_next h
    · exact .refl s
    · cases find window candidate <;> exact .refl s
  | mExtend => obtain ⟨-, ⟨-, rfl⟩ | ⟨-, -, rfl⟩⟩ := execMExtend_next h <;> exact .refl s
  | eHeader => obtain ⟨-, rfl⟩ := execEHeader_next h; exact keepsSource_putHeader s.n s
  | eOpen => obtain ⟨-, ⟨-, rfl⟩ | ⟨-, rfl⟩⟩ := execEOpen_next h <;> exact .refl s
  | eLit => obtain ⟨-, -, b, -, hput⟩ := execELit_next h; exact keepsSource_putLiteral hput
  | eMatch => obtain ⟨-, -, hput⟩ := execEMatch_next h; exact keepsSource_putPair hput
  | eClose => obtain ⟨-, hput⟩ := execEClose_next h; exact keepsSource_putControl hput
  | dHeader =>
    obtain ⟨-, ⟨-, rfl⟩ | ⟨-, n, -, rfl⟩⟩ := execDHeader_next h
    · exact .refl s
    · exact keepsSource_takeHeader n s
  | dCtrl => obtain ⟨-, ⟨-, rfl⟩ | ⟨-, -, rfl⟩ | ⟨-, -, c, -, rfl⟩⟩ := execDCtrl_next h <;> exact .refl s
  | dEndblock => obtain ⟨-, -, rfl⟩ := execDEndblock_next h; exact .refl s
  | dLit => obtain ⟨-, -, -, -, ⟨-, rfl⟩ | ⟨-, -, b, -, rfl⟩⟩ := execDLit_next h <;> exact .refl s
  | dPair =>
    obtain ⟨-, -, -, -, ⟨-, rfl⟩ | ⟨-, pair, -, rfl⟩⟩ := execDPair_next h
    · exact .refl s
    · exact keepsSource_takePair _ _ s
  | dCopy => obtain ⟨-, -, -, b, -, rfl⟩ := execDCopy_next h; exact .refl s
  | dCopyend => obtain ⟨-, -, rfl⟩ := execDCopyend_next h; exact .refl s
  | xFail code => cases h; exact .refl s
  | reset => exact absurd rfl hi

/-- Settles O11: every instruction but RESET leaves the source and the parameters alone, and RESET keeps the parameters. -/
theorem onlyHostWritesSource : Obligations.OnlyHostWritesSource := by
  intro i s t h
  by_cases hi : i = .reset
  · subst hi
    cases h
    exact ⟨rfl, rfl, fun hne => absurd rfl hne⟩
  · obtain ⟨hcaps, hhost, hsrc, hlen⟩ := exec_keepsSource hi h
    exact ⟨hcaps, hhost, fun _ => ⟨hsrc, hlen⟩⟩

theorem selectOp_ne_reset {s : State} {i : Instr} (h : selectOp s = some i) : i ≠ .reset := by
  rintro rfl
  simpa using selectOp_some h

theorem engineStep_keepsSource {s t : State} (h : engineStep s = .next t) : s.KeepsSource t := by
  rcases engineStep_next h with ⟨-, rfl⟩ | ⟨i, hi, he⟩
  · exact .refl _
  · exact exec_keepsSource (selectOp_ne_reset hi) he

/-! ### What a step writes to `DST` -/

/-- A step of the engine writes a list of bytes to `DST`, the empty one in most phases, and all of it below `DST_CAP` (R71). -/
theorem engineStep_writesDst {s t : State} (hlen : s.ph = .cHeader → s.dstLen = 0) (h : engineStep s = .next t) :
    ∃ a bs, a + bs.length ≤ s.caps.dst ∧ t.dst = s.dst.writeAll a bs := by
  have same : t.dst = s.dst → ∃ a bs, a + bs.length ≤ s.caps.dst ∧ t.dst = s.dst.writeAll a bs :=
    fun hd => ⟨0, [], Nat.zero_le _, hd⟩
  rcases engineStep_next h with ⟨-, rfl⟩ | ⟨i, hi, he⟩
  · exact same rfl
  rcases selectOp_some hi with ⟨rfl, hph⟩ | ⟨rfl, -⟩ | ⟨rfl, -⟩ | ⟨rfl, -⟩ | ⟨rfl, -⟩ | ⟨rfl, -⟩ | ⟨rfl, -⟩ | ⟨rfl, -⟩ |
    ⟨rfl, -⟩ | ⟨rfl, -⟩ | ⟨rfl, -⟩ | ⟨rfl, -⟩ | ⟨rfl, -⟩ | ⟨rfl, -⟩ | ⟨rfl, -⟩
  · obtain ⟨-, rfl⟩ := execEHeader_next he
    rw [putHeader_eq]
    split
    · exact ⟨0, [], Nat.zero_le _, rfl⟩
    · exact ⟨s.dstLen, bytes32 s.n, by rw [hlen hph, bytes32_length]; omega, rfl⟩
  · obtain ⟨-, ⟨-, rfl⟩ | ⟨-, rfl⟩⟩ := execEOpen_next he <;> exact same rfl
  · obtain ⟨-, ⟨-, rfl⟩ | ⟨-, rfl⟩⟩ := execMStart_next he <;> exact same rfl
  · obtain ⟨-, ⟨-, rfl⟩ | ⟨-, window, candidate, -, -, rfl⟩⟩ := execMSearch_next he
    · exact same rfl
    · cases find window candidate <;> exact ⟨0, [], Nat.zero_le _, rfl⟩
  · obtain ⟨-, ⟨-, rfl⟩ | ⟨-, -, rfl⟩⟩ := execMExtend_next he <;> exact same rfl
  · obtain ⟨-, -, b, -, hput⟩ := execELit_next he
    obtain ⟨hp, rfl⟩ := putLiteral_next hput
    exact same (by rw [tokenPut_eq])
  · obtain ⟨-, -, hput⟩ := execEMatch_next he
    obtain ⟨hp, rfl⟩ := putPair_next hput
    exact same (by rw [tokenPut_eq])
  · obtain ⟨-, hput⟩ := execEClose_next he
    obtain ⟨-, rfl⟩ | ⟨hfits, hp, rfl⟩ := putControl_next hput
    · exact same rfl
    · exact ⟨s.dstLen, _, by simp; omega, rfl⟩
  · obtain ⟨-, ⟨-, rfl⟩ | ⟨-, n, -, rfl⟩⟩ := execDHeader_next he
    · exact same rfl
    · exact same (by rw [takeHeader_eq]; split <;> rfl)
  · obtain ⟨-, ⟨-, rfl⟩ | ⟨-, -, rfl⟩ | ⟨-, -, c, -, rfl⟩⟩ := execDCtrl_next he <;> exact same rfl
  · obtain ⟨-, -, rfl⟩ := execDEndblock_next he
    exact same rfl
  · obtain ⟨-, -, -, -, ⟨-, rfl⟩ | ⟨-, hfits, b, -, rfl⟩⟩ := execDLit_next he
    · exact same rfl
    · exact ⟨s.op, [b], hfits, rfl⟩
  · obtain ⟨-, -, -, -, ⟨-, rfl⟩ | ⟨-, pair, -, rfl⟩⟩ := execDPair_next he
    · exact same rfl
    · exact same (by rw [takePair_eq]; split <;> rfl)
  · obtain ⟨-, -, hfits, b, -, rfl⟩ := execDCopy_next he
    exact ⟨copyTarget s, [b], hfits, rfl⟩
  · obtain ⟨-, -, rfl⟩ := execDCopyend_next he
    exact same rfl

/-- The engine's step keeps both byte spaces canonical and within their capacities (R63). -/
theorem State.Stores.engineStep {s t : State} (h : s.Stores) (hlen : s.ph = .cHeader → s.dstLen = 0)
    (he : Machine.engineStep s = .next t) : t.Stores := by
  obtain ⟨hcaps, -, hsrc, -⟩ := engineStep_keepsSource he
  obtain ⟨a, bs, hfits, hdst⟩ := engineStep_writesDst hlen he
  refine ⟨hsrc ▸ h.srcWf, hdst ▸ Memory.wf_writeAll a bs h.dstWf, hsrc ▸ hcaps ▸ h.srcBelow, fun c hc => ?_⟩
  rw [hcaps]
  rcases Memory.mem_writeAll (hdst ▸ hc) with hnew | hold
  · omega
  · exact h.dstBelow c hold

/-- The host's command empties `DST` and leaves `SRC` alone (R39). -/
theorem State.Stores.command {s t : State} {code : BitVec 2} (h : s.Stores) (he : exec (commandOf code) s = .next t) :
    t.Stores := by
  unfold commandOf at he
  split at he
  · obtain ⟨-, rfl⟩ | ⟨-, -, rfl⟩ := execCmdCompress_next he
    · exact h
    · exact ⟨h.srcWf, Memory.wf_nil, h.srcBelow, nofun⟩
  · split at he
    · obtain ⟨-, rfl⟩ | ⟨-, -, rfl⟩ := execCmdDecompress_next he
      · exact h
      · exact ⟨h.srcWf, Memory.wf_nil, h.srcBelow, nofun⟩
    · obtain ⟨-, rfl⟩ := execCmdReserved_next (code := code) he
      exact h

/-! ### The machine invariant -/

/-- A command phase's invariant is about a phase; in `HALT` there is none. -/
theorem inv_of_halt {s : State} (hw : s.Widths) (hst : s.Stores) (hp : s.Port) (hph : s.ph = .halt) : s.Inv where
  widths := hw
  stores := hst
  port := hp
  encoder h := by rw [hph] at h; cases h
  decoder h := by rw [hph] at h; cases h

theorem State.Inv.engineStep {s t : State} (h : s.Inv) (he : Machine.engineStep s = .next t) : t.Inv :=
  (h.runInv.engineStep he).inv
    (h.stores.engineStep (fun hph => ((h.encoder (by rw [hph]; rfl)).start hph).2) he)

/-- Taking the host's move off the list is not seen by the invariant (log 2). -/
theorem State.Inv.popHost {s : State} (h : s.Inv) : (popHost s).Inv where
  widths := { h.widths with }
  stores := { h.stores with }
  port := { h.port with }
  encoder hp :=
    have e := h.encoder hp
    { e with
      parsed := fun hph => by
        obtain ⟨X, closed, opened, hpar⟩ := e.parsed hph
        exact ⟨X, closed, opened, { hpar with }⟩ }
  decoder hp := { h.decoder hp with }

/-- RESET, in any state (R271). -/
theorem inv_reset (caps : Capacities) (host : List HostMove) (free : Nat) :
    ({ State.reset with caps := caps, host := host, free := free } : State).Inv := by
  refine inv_of_halt ?_ ⟨Memory.wf_nil, Memory.wf_nil, nofun, nofun⟩ ?_ rfl
  · constructor <;> simp [State.reset]
  · constructor <;> simp [State.reset]

theorem State.Inv.writeSrcLen {s t : State} {v : BitVec 32} (h : s.Inv) (he : hostWriteSrcLen v s = .next t) : t.Inv := by
  obtain ⟨-, rfl⟩ | ⟨hidle, hle, rfl⟩ := hostWriteSrcLen_next he
  · exact h
  · have hph : s.ph = .halt := Decidable.not_not.mp fun hne => hidle (h.port.busy_iff.mpr hne)
    exact inv_of_halt { h.widths with srcLen := v.isLt } { h.stores with } { h.port with srcLen_le := hle } hph

theorem State.Inv.writeSrc {s t : State} {a : Nat} {b : Byte} (h : s.Inv) (he : hostWriteSrc a b s = .next t) :
    t.Inv := by
  obtain ⟨hidle, ha, rfl⟩ := hostWriteSrc_next he
  have hph : s.ph = .halt := Decidable.not_not.mp fun hne => hidle (h.port.busy_iff.mpr hne)
  refine inv_of_halt { h.widths with } { h.stores with srcWf := Memory.wf_write a b h.stores.srcWf, srcBelow := ?_ }
    { h.port with } hph
  intro c hc
  rcases Memory.mem_write hc with rfl | hold
  · exact ha
  · exact h.stores.srcBelow c hold

/-- Settles O57: by the step's case, each micro-operation and each host move keeps every clause. -/
theorem stepKeepsMachineInvariant : Obligations.StepKeepsMachineInvariant := by
  intro s t h hstep
  rcases step_cases s with ⟨-, he⟩ | ⟨-, he⟩ | ⟨code, -, he⟩ | ⟨-, he⟩ | ⟨v, -, he⟩ | ⟨a, b, -, he⟩ <;> rw [he] at hstep
  · exact h.engineStep hstep
  · exact h.popHost.engineStep hstep
  · exact (h.popHost.runInv.command hstep).inv (h.popHost.stores.command hstep)
  · cases hstep
    exact inv_reset _ _ _
  · exact h.popHost.writeSrcLen hstep
  · exact h.popHost.writeSrc hstep

/-- Settles O58: every register is zero and both byte spaces are empty. -/
theorem resetMeetsMachineInvariant : Obligations.ResetMeetsMachineInvariant := inv_reset _ _ _

end Sys2Proof.Machine

/-! PROOFS. The sequencer and the step (10_state.md R30, R31): which micro-operation is enabled, where a step moves the phase, and
what a host's move does. -/

namespace Sys2Proof.Machine

open Sys2Proof

/-! ### One operation is enabled -/

/-- Outside `HALT`, with the registers that `D_TOKEN` and `D_COPY` look at in their ranges, the sequencer selects (R30). -/
theorem selectOp_isSome {s : State} (hph : s.ph ≠ .halt) (htoken : s.ph = .dToken → s.bit ≤ 8 ∧ s.op ≤ s.n)
    (hcopy : s.ph = .dCopy → s.i ≤ s.len) : ∃ i, selectOp s = some i := by
  cases hp : s.ph
  case halt => exact absurd hp hph
  case cEmit => cases hf : s.found <;> simp [selectOp, hp, hf]
  case dToken =>
    obtain ⟨hbit, hop⟩ := htoken hp
    by_cases hend : s.bit = 8 ∨ s.op = s.n
    · simp [selectOp, hp, hend]
    · have hmore : s.bit < 8 ∧ s.op < s.n := by omega
      cases hc : ctrlBit s.ctrl s.bit <;> simp [selectOp, hp, hend, hmore, hc]
  case dCopy =>
    rcases Nat.lt_or_eq_of_le (hcopy hp) with hi | hi <;> simp [selectOp, hp, hi]
  all_goals simp [selectOp, hp]

theorem selectOp_of_halt {s : State} (hph : s.ph = .halt) : selectOp s = none := by simp [selectOp, hph]

theorem mem_microOps_of_selectOp {s : State} {i : Instr} (h : selectOp s = some i) : i ∈ microOps := by
  rcases selectOp_some h with ⟨rfl, -⟩ | ⟨rfl, -⟩ | ⟨rfl, -⟩ | ⟨rfl, -⟩ | ⟨rfl, -⟩ | ⟨rfl, -⟩ | ⟨rfl, -⟩ | ⟨rfl, -⟩ |
    ⟨rfl, -⟩ | ⟨rfl, -⟩ | ⟨rfl, -⟩ | ⟨rfl, -⟩ | ⟨rfl, -⟩ | ⟨rfl, -⟩ | ⟨rfl, -⟩ <;> decide

/-- A meaning behind a guard is refused when the guard would make the sequencer select it and the sequencer does not. -/
theorem refused_of_not_selected {s : State} {j : Instr} {P : Prop} [Decidable P] {r : Result} (hj : selectOp s ≠ some j)
    (hguard : P → selectOp s = some j) : (if P then r else .refused .notSelected) = .refused .notSelected :=
  if_neg fun hp => hj (hguard hp)

/-- A micro-operation that R30 does not select is refused (log 1). -/
theorem exec_of_not_selected {s : State} {j : Instr} (hmem : j ∈ microOps) (hj : selectOp s ≠ some j) :
    exec j s = .refused .notSelected := by
  simp only [microOps, List.mem_cons, List.not_mem_nil, or_false] at hmem
  rcases hmem with rfl | rfl | rfl | rfl | rfl | rfl | rfl | rfl | rfl | rfl | rfl | rfl | rfl | rfl | rfl <;>
    refine refused_of_not_selected hj fun hg => ?_ <;>
    simp [selectOp, hg]
  -- D.LIT and D.PAIR: the block is not at its end
  · omega
  · omega

theorem storeDst_ne_refused (a : Nat) (v : Byte) (s : State) (f : State → State) (q : Refusal) :
    storeDst a v s f ≠ .refused q := by
  unfold storeDst; split <;> nofun

theorem putLiteral_ne_refused (b : Byte) (s : State) (q : Refusal) : putLiteral b s ≠ .refused q := by
  unfold putLiteral; split <;> nofun

theorem putPair_ne_refused (o l : Nat) (s : State) (q : Refusal) : putPair o l s ≠ .refused q := by
  unfold putPair
  dsimp only
  split
  · nofun
  · split <;> nofun

theorem putControl_ne_refused (c : Byte) (s : State) (q : Refusal) : putControl c s ≠ .refused q := by
  unfold putControl
  split
  · nofun
  · split <;> nofun

/-- The micro-operation that R30 selects is not refused: its guard holds, and nothing behind a guard refuses. -/
theorem exec_of_selected {s : State} {i : Instr} (h : selectOp s = some i) (q : Refusal) : exec i s ≠ .refused q := by
  rcases selectOp_some h with ⟨rfl, hg⟩ | ⟨rfl, hg⟩ | ⟨rfl, hg⟩ | ⟨rfl, hg⟩ | ⟨rfl, hg⟩ | ⟨rfl, hg⟩ | ⟨rfl, hg⟩ |
    ⟨rfl, hg⟩ | ⟨rfl, hg⟩ | ⟨rfl, hg⟩ | ⟨rfl, hg⟩ | ⟨rfl, hg⟩ | ⟨rfl, hg⟩ | ⟨rfl, hg⟩ | ⟨rfl, hg⟩
  · rw [exec_eHeader, execEHeader, if_pos hg]; nofun
  · rw [exec_eOpen, execEOpen, if_pos hg]; split <;> nofun
  · rw [exec_mStart, execMStart, if_pos hg]; split <;> nofun
  · rw [exec_mSearch, execMSearch, if_pos hg]
    split
    · nofun
    · split <;> nofun
  · rw [exec_mExtend, execMExtend, if_pos hg]; split <;> nofun
  · rw [exec_eLit, execELit, if_pos hg]
    split
    · nofun
    · exact putLiteral_ne_refused _ _ _
  · rw [exec_eMatch, execEMatch, if_pos hg]; exact putPair_ne_refused _ _ _ _
  · rw [exec_eClose, execEClose, if_pos hg]; exact putControl_ne_refused _ _ _
  · rw [exec_dHeader, execDHeader, if_pos hg]
    split
    · nofun
    · split <;> nofun
  · rw [exec_dCtrl, execDCtrl, if_pos hg]
    split
    · nofun
    · split
      · nofun
      · split <;> nofun
  · rw [exec_dEndblock, execDEndblock, if_pos hg]; nofun
  · rw [exec_dLit, execDLit, if_pos hg]
    split
    · nofun
    · split
      · nofun
      · exact storeDst_ne_refused _ _ _ _ _
  · rw [exec_dPair, execDPair, if_pos hg]
    split
    · nofun
    · split <;> nofun
  · rw [exec_dCopy, execDCopy, if_pos hg]
    split
    · nofun
    · exact storeDst_ne_refused _ _ _ _ _
  · rw [exec_dCopyend, execDCopyend, if_pos hg]; nofun

/-- Settles O9: what the sequencer selects runs, and everything else is refused because the sequencer selects one thing. -/
theorem exactlyOneOperationEnabled : Obligations.ExactlyOneOperationEnabled := by
  refine ⟨fun s hph htoken hcopy => ?_, fun s hph j hj => ?_⟩
  · obtain ⟨i, hi⟩ := selectOp_isSome hph htoken hcopy
    refine ⟨i, mem_microOps_of_selectOp hi, hi, exec_of_selected hi _, fun j hj hne => ?_⟩
    exact exec_of_not_selected hj fun hsel => hne (Option.some.inj (hsel.symm.trans hi))
  · exact exec_of_not_selected hj (by rw [selectOp_of_halt hph]; nofun)

/-! ### Phases -/

/-- What R31 says of a step from `s` to `t`. -/
def State.Follows (s t : State) : Prop :=
  (s.ph, t.ph) ∈ transitions ∧ (t.ph ≠ .halt → t.status = s.status ∧ t.err = s.err) ∧
    (t.ph = .halt → (t.status = .done ∧ t.err = s.err ∧ (s.ph = .cOpen ∨ s.ph = .dCtrl)) ∨
      (t.status = .error ∧ t.err ≠ .none ∧ t.dstLen = 0))

/-- A step along the row from `p` to `q` that stays in the command. -/
theorem follows_running {s t : State} {p : Phase} (q : Phase) (hs : s.ph = p) (ht : t.ph = q)
    (hrow : (p, q) ∈ transitions ∧ q ≠ .halt) (hport : t.status = s.status ∧ t.err = s.err) : s.Follows t := by
  subst hs ht
  exact ⟨hrow.1, fun _ => hport, fun h => absurd h hrow.2⟩

theorem follows_enterError {s : State} {p : Phase} (code : FailCode) (u : State) (hs : s.ph = p)
    (hrow : (p, .halt) ∈ transitions) : s.Follows (enterError code u) :=
  ⟨hs ▸ hrow, fun h => absurd rfl h, fun _ => .inr ⟨rfl, by cases code <;> nofun, rfl⟩⟩

theorem follows_complete {s : State} (u : State) (herr : u.err = s.err) (hph : s.ph = .cOpen ∨ s.ph = .dCtrl) :
    s.Follows (complete u) := by
  refine ⟨?_, fun h => absurd rfl h, fun _ => .inl ⟨rfl, herr, hph⟩⟩
  rw [complete_ph]
  rcases hph with hph | hph <;> rw [hph] <;> decide

/-- The tail of E.LIT and E.MATCH goes on in the block or closes it (R31). -/
theorem follows_tokenPut {s u : State} (k : Nat) (hph : s.ph = .cEmit) (hport : u.status = s.status ∧ u.err = s.err) :
    s.Follows (tokenPut k u) := by
  rw [tokenPut_eq]
  split
  · exact follows_running .cClose hph rfl (by decide) hport
  · exact follows_running .mStart hph rfl (by decide) hport

/-- Settles O10: by the selected micro-operation and the cases of its answer. -/
theorem phasesFollowTransitionTable : Obligations.PhasesFollowTransitionTable := by
  intro s t hhalt h
  show s.Follows t
  obtain ⟨hph, -⟩ | ⟨i, hi, he⟩ := engineStep_next h
  · exact absurd hph hhalt
  rcases selectOp_some hi with ⟨rfl, hph⟩ | ⟨rfl, hph⟩ | ⟨rfl, hph⟩ | ⟨rfl, hph⟩ | ⟨rfl, hph⟩ | ⟨rfl, hph, -⟩ |
    ⟨rfl, hph, -⟩ | ⟨rfl, hph⟩ | ⟨rfl, hph⟩ | ⟨rfl, hph⟩ | ⟨rfl, hph, -⟩ | ⟨rfl, hph, -⟩ | ⟨rfl, hph, -⟩ |
    ⟨rfl, hph, -⟩ | ⟨rfl, hph, -⟩
  · obtain ⟨-, rfl⟩ := execEHeader_next he
    rw [putHeader_eq]
    split
    · exact follows_enterError _ _ hph (by decide)
    · exact follows_running .cOpen hph rfl (by decide) ⟨rfl, rfl⟩
  · obtain ⟨-, ⟨-, rfl⟩ | ⟨-, rfl⟩⟩ := execEOpen_next he
    · exact follows_complete s rfl (.inl hph)
    · exact follows_running .mStart hph rfl (by decide) ⟨rfl, rfl⟩
  · obtain ⟨-, ⟨-, rfl⟩ | ⟨-, rfl⟩⟩ := execMStart_next he
    · exact follows_running .cEmit hph rfl (by decide) ⟨rfl, rfl⟩
    · exact follows_running .mSearch hph rfl (by decide) ⟨rfl, rfl⟩
  · obtain ⟨-, ⟨-, rfl⟩ | ⟨-, window, candidate, -, -, rfl⟩⟩ := execMSearch_next he
    · exact follows_running .cEmit hph rfl (by decide) ⟨rfl, rfl⟩
    · cases find window candidate with
      | none => exact follows_running .cEmit hph rfl (by decide) ⟨rfl, rfl⟩
      | some j => exact follows_running .mExtend hph rfl (by decide) ⟨rfl, rfl⟩
  · obtain ⟨-, ⟨-, rfl⟩ | ⟨-, -, rfl⟩⟩ := execMExtend_next he
    · exact follows_running .cEmit hph rfl (by decide) ⟨rfl, rfl⟩
    · exact follows_running .mSearch hph rfl (by decide) ⟨rfl, rfl⟩
  · obtain ⟨-, -, b, -, hput⟩ := execELit_next he
    obtain ⟨hp, rfl⟩ := putLiteral_next hput
    exact follows_tokenPut _ hph ⟨rfl, rfl⟩
  · obtain ⟨-, -, hput⟩ := execEMatch_next he
    obtain ⟨hp, rfl⟩ := putPair_next hput
    exact follows_tokenPut _ hph ⟨rfl, rfl⟩
  · obtain ⟨-, hput⟩ := execEClose_next he
    obtain ⟨-, rfl⟩ | ⟨-, -, rfl⟩ := putControl_next hput
    · exact follows_enterError _ _ hph (by decide)
    · exact follows_running .cOpen hph rfl (by decide) ⟨rfl, rfl⟩
  · obtain ⟨-, ⟨-, rfl⟩ | ⟨-, n, -, rfl⟩⟩ := execDHeader_next he
    · exact follows_enterError _ _ hph (by decide)
    · rw [takeHeader_eq]
      split
      · exact follows_enterError _ _ hph (by decide)
      · exact follows_running .dCtrl hph rfl (by decide) ⟨rfl, rfl⟩
  · obtain ⟨-, ⟨-, rfl⟩ | ⟨-, -, rfl⟩ | ⟨-, -, c, -, rfl⟩⟩ := execDCtrl_next he
    · exact follows_complete _ rfl (.inr hph)
    · exact follows_enterError _ _ hph (by decide)
    · exact follows_running .dToken hph rfl (by decide) ⟨rfl, rfl⟩
  · obtain ⟨-, -, rfl⟩ := execDEndblock_next he
    exact follows_running .dCtrl hph rfl (by decide) ⟨rfl, rfl⟩
  · obtain ⟨-, -, -, -, ⟨-, rfl⟩ | ⟨-, -, b, -, rfl⟩⟩ := execDLit_next he
    · exact follows_enterError _ _ hph (by decide)
    · exact follows_running .dToken hph hph (by decide) ⟨rfl, rfl⟩
  · obtain ⟨-, -, -, -, ⟨-, rfl⟩ | ⟨-, pair, -, rfl⟩⟩ := execDPair_next he
    · exact follows_enterError _ _ hph (by decide)
    · rw [takePair_eq]
      split
      · exact follows_enterError _ _ hph (by decide)
      · exact follows_running .dCopy hph rfl (by decide) ⟨rfl, rfl⟩
  · obtain ⟨-, -, -, b, -, rfl⟩ := execDCopy_next he
    exact follows_running .dCopy hph hph (by decide) ⟨rfl, rfl⟩
  · obtain ⟨-, -, rfl⟩ := execDCopyend_next he
    exact follows_running .dToken hph rfl (by decide) ⟨rfl, rfl⟩

/-! ### The step and the host's moves -/

theorem engineStep_of_selectOp {s : State} {i : Instr} (h : selectOp s = some i) : engineStep s = exec i s := by
  rw [engineStep, h]

/-- With nothing selected the engine waits in `HALT` and is stuck elsewhere (R265, log 11). -/
theorem engineStep_of_selectOp_none {s : State} (h : selectOp s = none) :
    engineStep s = if s.ph = .halt then .next s else .fault .nothingSelected := by
  rw [engineStep, h]

theorem engineStep_of_halt {s : State} (h : s.ph = .halt) : engineStep s = .next s := by
  rw [engineStep_of_selectOp_none (selectOp_of_halt h), if_pos h]

/-- On the engine's turn a step is the engine's, behind the host's move (log 2). -/
theorem step_of_engineTurn {s : State} (h : s.EngineTurn) : step s = engineStep (popHost s) := by
  unfold step
  rcases h with hnil | hhead
  · have hpop : popHost s = s := by unfold popHost; rw [hnil]; exact congrArg (fun l => { s with host := l }) hnil.symm
    rw [hnil, hpop]
  · obtain ⟨rest, hcons⟩ := List.head?_eq_some_iff.mp hhead
    rw [hcons]

theorem selectOp_popHost (s : State) : selectOp (popHost s) = selectOp s := rfl

/-- Settles O6: by the host's next move. -/
theorem stepRunsFetchedInstruction : Obligations.StepRunsFetchedInstruction := by
  refine ⟨fun s i hf => ?_, fun s hturn hph => ?_, fun s v rest hh => ?_, fun s a b rest hh => ?_,
    fun s hturn hph hsel => ?_⟩
  · unfold fetch at hf
    split at hf
    · rw [step_of_engineTurn (.inl ‹_›)]
      exact engineStep_of_selectOp hf
    · rename_i hh
      rw [step_of_engineTurn (.inr (by rw [hh]; rfl))]
      exact engineStep_of_selectOp hf
    · rename_i hh
      cases hf
      rw [step, hh]
    · rename_i hh
      cases hf
      rw [step, hh]
    · cases hf
    · cases hf
  · rw [step_of_engineTurn hturn]
    exact engineStep_of_halt hph
  · rw [step, hh]
  · rw [step, hh]
  · rw [step_of_engineTurn hturn, engineStep_of_selectOp_none ((selectOp_popHost s).trans hsel)]
    exact if_neg hph

/-- Settles O18: each write, by whether the engine is BUSY and by `SRC_CAP`. -/
theorem hostWritesLoadSource : Obligations.HostWritesLoadSource := by
  refine ⟨fun s a b hidle ha => ?_, fun s a b hidle ha => ?_, fun s a b hbusy => ?_, fun s v hidle hv => ?_,
    fun s v hidle hv => ?_⟩
  · refine ⟨s.src.write a b, ?_, Memory.read_write_same s.src a b, fun x hx => Memory.read_write_ne s.src b hx⟩
    rw [hostWriteSrc, if_neg hidle, if_pos ha]
  · rw [hostWriteSrc, if_neg hidle, if_neg (Nat.not_lt.mpr ha)]
  · rw [hostWriteSrc, if_pos hbusy]
  · rw [hostWriteSrcLen, if_neg hidle, if_neg (Nat.not_lt.mpr hv)]
  · rw [hostWriteSrcLen, if_neg hidle, if_pos hv]

/-- Settles O56: the fields of the reset state, and what the host reads of them. -/
theorem resetStateIsIdle : Obligations.ResetStateIsIdle :=
  ⟨rfl, rfl, rfl, rfl, rfl, Memory.read_nil, Memory.read_nil, rfl, rfl, rfl⟩

/-! ### A running engine never stops -/

theorem State.RunInv.selects {s : State} (h : s.RunInv) (hph : s.ph ≠ .halt) : ∃ i, selectOp s = some i := by
  refine selectOp_isSome hph (fun hp => ?_) fun hp => ?_
  · have d := h.decoder (by rw [hp]; rfl)
    obtain ⟨-, -, hop, -⟩ := d.cursors (by rw [hp]; nofun)
    exact ⟨d.bits (.inl hp), hop⟩
  · obtain ⟨-, -, -, -, -, -, hi, -⟩ := (h.decoder (by rw [hp]; rfl)).copy hp
    exact hi

/-- A written part of `SRC` can be read as a range (R71). -/
theorem State.SourceWritten.range_isSome {s : State} (h : s.SourceWritten) {a k : Nat} (hle : a + k ≤ s.srcLen) :
    ∃ bs, s.src.range a k = some bs :=
  Memory.range_isSome fun j hj => h (a + j) (by omega)

theorem State.SourceWritten.read_isSome {s : State} (h : s.SourceWritten) {a : Nat} (hlt : a < s.srcLen) :
    ∃ b, s.src.read a = some b :=
  Option.ne_none_iff_exists'.mp (h a hlt)

theorem State.SourceWritten.memRead_isSome {s : State} (h : s.SourceWritten) {a k : Nat} (hle : a + k ≤ s.srcLen) :
    ∃ n, memRead s.src a k = some n := by
  obtain ⟨bs, hbs⟩ := h.range_isSome hle
  exact ⟨_, by rw [memRead, hbs, Option.map_some]⟩

/-! ### The micro-operations that touch memory answer -/

theorem mSearch_answers {s : State} (h : s.RunInv) (hw : s.SourceWritten) (hph : s.ph = .mSearch) :
    ∃ t, execMSearch s = .next t := by
  have e := h.encoder (by rw [hph]; rfl)
  obtain ⟨hws, hwlen, -, -, hrn⟩ := e.window (.inl hph)
  have hn := e.n_eq
  have hle := winStart_le s.r
  obtain ⟨window, hwin⟩ := hw.range_isSome (a := s.ws) (k := s.wlen) (by omega)
  obtain ⟨candidate, hcand⟩ := hw.range_isSome (a := s.r) (k := s.clen) (by omega)
  rw [execMSearch, if_pos hph, hwin, hcand]
  split <;> exact ⟨_, rfl⟩

theorem eLit_answers {s : State} (h : s.RunInv) (hw : s.SourceWritten) (hph : s.ph = .cEmit) (hf : s.found = false) :
    ∃ t, execELit s = .next t := by
  have e := h.encoder (by rw [hph]; rfl)
  obtain ⟨htok, hr⟩ := e.cursor (by rw [hph]; rfl)
  obtain ⟨-, -, hplen⟩ := e.counts (.inl (by rw [hph]; rfl))
  obtain ⟨b, hb⟩ := hw.read_isSome (a := s.r) (by have := e.n_eq; omega)
  rw [execELit, if_pos ⟨hph, hf⟩, hb]
  exact ⟨_, putLiteral_of_lt b (by omega)⟩

theorem eMatch_answers {s : State} (h : s.RunInv) (hph : s.ph = .cEmit) (hf : s.found = true) :
    ∃ t, execEMatch s = .next t := by
  have e := h.encoder (by rw [hph]; rfl)
  obtain ⟨htok, -⟩ := e.cursor (by rw [hph]; rfl)
  obtain ⟨-, -, hplen⟩ := e.counts (.inl (by rw [hph]; rfl))
  rw [execEMatch, if_pos ⟨hph, hf⟩]
  exact ⟨_, putPair_of_lt _ _ (by omega)⟩

theorem eClose_answers {s : State} (h : s.RunInv) (hph : s.ph = .cClose) : ∃ t, execEClose s = .next t := by
  have e := h.encoder (by rw [hph]; rfl)
  obtain ⟨htok, -, hplen⟩ := e.counts (.inl (by rw [hph]; rfl))
  rw [execEClose, if_pos hph]
  by_cases hfits : s.dstLen + 1 + s.plen ≤ s.caps.dst
  · exact ⟨_, putControl_of_le _ hfits (by omega)⟩
  · exact ⟨_, if_pos (Nat.lt_of_not_le hfits)⟩

theorem dHeader_answers {s : State} (h : s.RunInv) (hw : s.SourceWritten) (hph : s.ph = .dHeader) :
    ∃ t, execDHeader s = .next t := by
  have d := h.decoder (by rw [hph]; rfl)
  rw [execDHeader, if_pos hph]
  split
  · exact ⟨_, rfl⟩
  · obtain ⟨n, hn⟩ := hw.memRead_isSome (a := 0) (k := 4) (by have := d.m_eq; omega)
    rw [hn]
    exact ⟨_, rfl⟩

theorem dCtrl_answers {s : State} (h : s.RunInv) (hw : s.SourceWritten) (hph : s.ph = .dCtrl) :
    ∃ t, execDCtrl s = .next t := by
  have d := h.decoder (by rw [hph]; rfl)
  rw [execDCtrl, if_pos hph]
  split
  · exact ⟨_, rfl⟩
  · split
    · exact ⟨_, rfl⟩
    · obtain ⟨c, hc⟩ := hw.read_isSome (a := s.ip) (by have := d.m_eq; omega)
      rw [hc]
      exact ⟨_, rfl⟩

theorem dLit_answers {s : State} (h : s.RunInv) (hw : s.SourceWritten)
    (hg : s.ph = .dToken ∧ s.bit < 8 ∧ s.op < s.n ∧ ctrlBit s.ctrl s.bit = false) : ∃ t, execDLit s = .next t := by
  have d := h.decoder (by rw [hg.1]; rfl)
  obtain ⟨-, -, -, hncap, -⟩ := d.cursors (by rw [hg.1]; nofun)
  rw [execDLit, if_pos hg]
  split
  · exact ⟨_, rfl⟩
  · obtain ⟨b, hb⟩ := hw.read_isSome (a := s.ip) (by have := d.m_eq; omega)
    rw [hb]
    exact ⟨_, storeDst_of_lt b _ (by omega)⟩

theorem dPair_answers {s : State} (h : s.RunInv) (hw : s.SourceWritten)
    (hg : s.ph = .dToken ∧ s.bit < 8 ∧ s.op < s.n ∧ ctrlBit s.ctrl s.bit = true) : ∃ t, execDPair s = .next t := by
  have d := h.decoder (by rw [hg.1]; rfl)
  rw [execDPair, if_pos hg]
  split
  · exact ⟨_, rfl⟩
  · obtain ⟨pair, hpair⟩ := hw.memRead_isSome (a := s.ip) (k := 2) (by have := d.m_eq; omega)
    rw [hpair]
    exact ⟨_, rfl⟩

theorem dCopy_answers {s : State} (h : s.RunInv) (hg : s.ph = .dCopy ∧ s.i < s.len) : ∃ t, execDCopy s = .next t := by
  have d := h.decoder (by rw [hg.1]; rfl)
  obtain ⟨-, -, -, hncap, -⟩ := d.cursors (by rw [hg.1]; nofun)
  obtain ⟨-, -, -, hdst, -, hwin, -, hcopied⟩ := d.copy hg.1
  have hsrc : copySource s = s.ws + s.off + s.i := rfl
  have htgt : copyTarget s = s.op + s.i := rfl
  obtain ⟨b, hb⟩ := Option.ne_none_iff_exists'.mp (hcopied (copySource s) (by omega))
  rw [execDCopy, if_pos hg, hb]
  exact ⟨_, storeDst_of_lt b _ (by omega)⟩

/-- Inside a command whose source is written, the selected micro-operation answers a next state (R40, R71). -/
theorem State.RunInv.answers {s : State} {i : Instr} (h : s.RunInv) (hw : s.SourceWritten) (hi : selectOp s = some i) :
    ∃ t, Machine.exec i s = .next t := by
  rcases selectOp_some hi with ⟨rfl, hg⟩ | ⟨rfl, hg⟩ | ⟨rfl, hg⟩ | ⟨rfl, hg⟩ | ⟨rfl, hg⟩ | ⟨rfl, hph, hf⟩ |
    ⟨rfl, hph, hf⟩ | ⟨rfl, hg⟩ | ⟨rfl, hg⟩ | ⟨rfl, hg⟩ | ⟨rfl, hg⟩ | ⟨rfl, hg⟩ | ⟨rfl, hg⟩ | ⟨rfl, hg⟩ | ⟨rfl, hg⟩
  · exact ⟨_, if_pos hg⟩
  · rw [exec_eOpen, execEOpen, if_pos hg]; split <;> exact ⟨_, rfl⟩
  · rw [exec_mStart, execMStart, if_pos hg]; split <;> exact ⟨_, rfl⟩
  · exact mSearch_answers h hw hg
  · rw [exec_mExtend, execMExtend, if_pos hg]; split <;> exact ⟨_, rfl⟩
  · exact eLit_answers h hw hph hf
  · exact eMatch_answers h hph hf
  · exact eClose_answers h hg
  · exact dHeader_answers h hw hg
  · exact dCtrl_answers h hw hg
  · exact ⟨_, if_pos hg⟩
  · exact dLit_answers h hw hg
  · exact dPair_answers h hw hg
  · exact dCopy_answers h hg
  · exact ⟨_, if_pos hg⟩

theorem State.Inv.engineStep_answers {s : State} (h : s.Inv) (hw : s.SourceWritten) :
    ∃ t, Machine.engineStep s = .next t := by
  by_cases hph : s.ph = .halt
  · exact ⟨s, engineStep_of_halt hph⟩
  · obtain ⟨i, hi⟩ := h.runInv.selects hph
    rw [engineStep_of_selectOp hi]
    exact h.runInv.answers hw hi

/-- Settles O59: the invariant puts every read among written bytes and every write below its bound. -/
theorem runningEngineNeverStops : Obligations.RunningEngineNeverStops := by
  intro s h hw hturn
  rw [step_of_engineTurn hturn]
  obtain ⟨t, ht⟩ := h.popHost.engineStep_answers hw
  obtain ⟨-, -, hsrc, hlen⟩ := engineStep_keepsSource ht
  refine ⟨t, ht, fun a ha => ?_, h.popHost.engineStep ht⟩
  rw [hsrc]
  exact hw a (by rwa [hlen] at ha)

end Sys2Proof.Machine

/-! PROOFS. Noninterference (10_state.md R35, R234): two runs of one command on one input, in engines with different histories, go
through the same phases and agree on every register that a later step reads. -/

namespace Sys2Proof.Machine

open Sys2Proof

/-! ### Agreement of two runs -/

/-- The two runs agree on the phase, on what the host reads, on all of `DST`, and on the input. -/
structure State.SamePort (s s' : State) : Prop where
  ph : s'.ph = s.ph
  status : s'.status = s.status
  err : s'.err = s.err
  dstLen : s'.dstLen = s.dstLen
  dst : s'.dst = s.dst
  cap : s'.caps.dst = s.caps.dst
  srcLen : s'.srcLen = s.srcLen
  source : ∀ a, a < s.srcLen → s'.src.read a = s.src.read a

/-- Two compressions agree on the registers that hold a value in use in their phase. -/
structure State.SameEncoder (s s' : State) : Prop where
  n : s'.n = s.n
  r : s'.r = s.r
  block : s.ph.inBlock = true →
    s'.ctrl = s.ctrl ∧ s'.tok = s.tok ∧ s'.plen = s.plen ∧ s'.pbuf.toList.take s.plen = s.pbuf.toList.take s.plen
  search : s.ph = .mSearch ∨ s.ph = .mExtend → s'.ws = s.ws ∧ s'.wlen = s.wlen ∧ s'.clen = s.clen
  found : s.ph = .mSearch ∨ s.ph = .mExtend ∨ s.ph = .cEmit →
    s'.found = s.found ∧ (s.found = true → s'.boff = s.boff ∧ s'.blen = s.blen)

/-- Two decompressions agree on the registers that hold a value in use in their phase. -/
structure State.SameDecoder (s s' : State) : Prop where
  m : s'.m = s.m
  ip : s'.ip = s.ip
  op : s'.op = s.op
  n : s.ph ≠ .dHeader → s'.n = s.n
  token : s.ph = .dToken ∨ s.ph = .dCopy → s'.ctrl = s.ctrl ∧ s'.bit = s.bit
  copy : s.ph = .dCopy → s'.off = s.off ∧ s'.len = s.len ∧ s'.ws = s.ws ∧ s'.i = s.i

/-- Two runs of one command on one input. -/
structure State.SameRun (s s' : State) : Prop where
  port : s.SamePort s'
  encoder : s.ph.compressing = true → s.SameEncoder s'
  decoder : s.ph.decompressing = true → s.SameDecoder s'

theorem State.SamePort.encode {s s' : State} (h : s.SamePort s') (hp : s.ph.compressing = true)
    (he : s.SameEncoder s') : s.SameRun s' where
  port := h
  encoder _ := he
  decoder hdec := by cases hph : s.ph <;> simp [hph, Phase.compressing, Phase.decompressing] at hp hdec

theorem State.SamePort.decode {s s' : State} (h : s.SamePort s') (hp : s.ph.decompressing = true)
    (he : s.SameDecoder s') : s.SameRun s' where
  port := h
  encoder henc := by cases hph : s.ph <;> simp [hph, Phase.compressing, Phase.decompressing] at hp henc
  decoder _ := he

theorem State.SamePort.enterError {s s' : State} (code : FailCode) (h : s.SamePort s') :
    (enterError code s).SameRun (enterError code s') where
  port := { h with ph := rfl, status := rfl, err := rfl, dstLen := rfl }
  encoder := nofun
  decoder := nofun

theorem State.SamePort.complete {s s' : State} (h : s.SamePort s') : (complete s).SameRun (complete s') where
  port := { h with ph := rfl, status := rfl }
  encoder := nofun
  decoder := nofun

/-- Both runs read the same bytes below `SRC_LEN` (R71). -/
theorem State.SamePort.range_eq {s s' : State} (h : s.SamePort s') {a k : Nat} (hle : a + k ≤ s.srcLen) :
    s'.src.range a k = s.src.range a k :=
  Memory.range_congr fun j hj => h.source (a + j) (by omega)

theorem State.SamePort.memRead_eq {s s' : State} (h : s.SamePort s') {a k : Nat} (hle : a + k ≤ s.srcLen) :
    memRead s'.src a k = memRead s.src a k := by
  rw [memRead, memRead, h.range_eq hle]

/-- Both runs select the same micro-operation (R30). -/
theorem State.SameRun.selectOp_eq {s s' : State} (h : s.SameRun s') : selectOp s' = selectOp s := by
  unfold selectOp
  rw [h.port.ph]
  cases hph : s.ph
  case cEmit =>
    obtain ⟨hfound, -⟩ := (h.encoder (by rw [hph]; rfl)).found (.inr (.inr hph))
    simp only [hfound]
  case dToken =>
    have d := h.decoder (by rw [hph]; rfl)
    have hn := d.n (by rw [hph]; nofun)
    obtain ⟨hctrl, hbit⟩ := d.token (.inl hph)
    simp only [d.op, hn, hctrl, hbit]
  case dCopy =>
    obtain ⟨-, hlen, -, hi⟩ := (h.decoder (by rw [hph]; rfl)).copy hph
    simp only [hlen, hi]
  all_goals rfl

/-! ### The Matcher's steps -/

theorem State.SameRun.mStart {s s' t t' : State} (h : s.SameRun s') (he : execMStart s = .next t)
    (he' : execMStart s' = .next t') : t.SameRun t' := by
  obtain ⟨hph, hcase⟩ := execMStart_next he
  obtain ⟨-, hcase'⟩ := execMStart_next he'
  have e := h.encoder (by rw [hph]; rfl)
  have hblock := e.block (by rw [hph]; rfl)
  rw [e.n, e.r] at hcase'
  rcases hcase with ⟨hfew, rfl⟩ | ⟨hmany, rfl⟩ <;> rcases hcase' with ⟨hfew', rfl⟩ | ⟨hmany', rfl⟩
  · exact State.SamePort.encode { h.port with ph := rfl } rfl
      { e with n := rfl, r := rfl, block := fun _ => hblock, search := nofun, found := fun _ => ⟨rfl, nofun⟩ }
  · omega
  · omega
  · exact State.SamePort.encode { h.port with ph := rfl } rfl
      { e with n := rfl, r := rfl, block := fun _ => hblock, search := fun _ => ⟨rfl, rfl, rfl⟩, found := fun _ => ⟨rfl, nofun⟩ }

theorem State.SameRun.mSearch {s s' t t' : State} (h : s.SameRun s') (hinv : s.RunInv) (he : execMSearch s = .next t)
    (he' : execMSearch s' = .next t') : t.SameRun t' := by
  obtain ⟨hph, hcase⟩ := execMSearch_next he
  obtain ⟨-, hcase'⟩ := execMSearch_next he'
  have e := h.encoder (by rw [hph]; rfl)
  have hblock := e.block (by rw [hph]; rfl)
  have hfound := e.found (.inl hph)
  obtain ⟨hws, hwlen, hclen⟩ := e.search (.inl hph)
  have i := hinv.encoder (by rw [hph]; rfl)
  obtain ⟨hws0, hwlen0, -, -, hrn⟩ := i.window (.inl hph)
  have hn := i.n_eq
  have hle := winStart_le s.r
  rw [hws, hwlen, hclen, e.r, h.port.range_eq (by omega), h.port.range_eq (by omega)] at hcase'
  have hfail : (searched none s).SameRun (searched none s') :=
    State.SamePort.encode { h.port with ph := rfl } rfl
      { e with block := fun _ => hblock, search := nofun, found := fun _ => hfound }
  rcases hcase with ⟨hshort, rfl⟩ | ⟨hlong, window, candidate, hw, hc, rfl⟩ <;>
    rcases hcase' with ⟨hshort', rfl⟩ | ⟨hlong', window', candidate', hw', hc', rfl⟩
  · exact hfail
  · omega
  · omega
  · obtain rfl := Option.some.inj (hw.symm.trans hw')
    obtain rfl := Option.some.inj (hc.symm.trans hc')
    cases find window candidate with
    | none => exact hfail
    | some j =>
      exact State.SamePort.encode { h.port with ph := rfl } rfl
        { e with
          block := fun _ => hblock
          search := fun _ => ⟨hws, hwlen, hclen⟩
          found := fun _ => ⟨rfl, fun _ => ⟨rfl, hclen⟩⟩ }

theorem State.SameRun.mExtend {s s' t t' : State} (h : s.SameRun s') (he : execMExtend s = .next t)
    (he' : execMExtend s' = .next t') : t.SameRun t' := by
  obtain ⟨hph, hcase⟩ := execMExtend_next he
  obtain ⟨-, hcase'⟩ := execMExtend_next he'
  have e := h.encoder (by rw [hph]; rfl)
  have hblock := e.block (by rw [hph]; rfl)
  have hfound := e.found (.inr (.inl hph))
  obtain ⟨hws, hwlen, hclen⟩ := e.search (.inr hph)
  rw [hclen, e.r, e.n] at hcase'
  rcases hcase with ⟨hstop, rfl⟩ | ⟨hmax, hend, rfl⟩ <;> rcases hcase' with ⟨hstop', rfl⟩ | ⟨hmax', hend', rfl⟩
  · exact State.SamePort.encode { h.port with ph := rfl } rfl
      { e with n := rfl, r := rfl, block := fun _ => hblock, search := nofun, found := fun _ => hfound }
  · omega
  · omega
  · exact State.SamePort.encode { h.port with ph := rfl } rfl
      { e with n := rfl, r := rfl, block := fun _ => hblock, search := fun _ => ⟨hws, hwlen, rfl⟩, found := fun _ => hfound }

/-! ### The Token Encoder's steps -/

theorem State.SameRun.eHeader {s s' t t' : State} (h : s.SameRun s') (he : execEHeader s = .next t)
    (he' : execEHeader s' = .next t') : t.SameRun t' := by
  obtain ⟨hph, rfl⟩ := execEHeader_next he
  obtain ⟨-, rfl⟩ := execEHeader_next he'
  have e := h.encoder (by rw [hph]; rfl)
  rw [putHeader_eq, putHeader_eq, h.port.cap]
  by_cases hcap : s.caps.dst < 4
  · rw [if_pos hcap, if_pos hcap]
    exact h.port.enterError _
  · rw [if_neg hcap, if_neg hcap, e.n, h.port.dst, h.port.dstLen]
    exact State.SamePort.encode { h.port with ph := rfl, dst := rfl, dstLen := rfl } rfl
      ⟨rfl, e.r, nofun, nofun, nofun⟩

theorem State.SameRun.eOpen {s s' t t' : State} (h : s.SameRun s') (he : execEOpen s = .next t)
    (he' : execEOpen s' = .next t') : t.SameRun t' := by
  obtain ⟨hph, hcase⟩ := execEOpen_next he
  obtain ⟨-, hcase'⟩ := execEOpen_next he'
  have e := h.encoder (by rw [hph]; rfl)
  rw [e.r, e.n] at hcase'
  rcases hcase with ⟨hend, rfl⟩ | ⟨hmore, rfl⟩ <;> rcases hcase' with ⟨hend', rfl⟩ | ⟨hmore', rfl⟩
  · exact h.port.complete
  · exact absurd hend hmore'
  · exact absurd hend' hmore
  · exact State.SamePort.encode { h.port with ph := rfl } rfl ⟨rfl, rfl, fun _ => ⟨rfl, rfl, rfl, rfl⟩, nofun, nofun⟩

/-- The tail of E.LIT and E.MATCH, when both runs have put the same payload (R153, R154). -/
theorem State.SameRun.tokenPut {s s' : State} {c c' : Byte} {p p' : Vector Byte 16} {k k' l l' : Nat}
    (h : s.SameRun s') (hph : s.ph = .cEmit) (hc : c' = c) (hk : k' = k) (hl : l' = l)
    (hp : p'.toList.take k = p.toList.take k) :
    (Machine.tokenPut l { s with ctrl := c, pbuf := p, plen := k }).SameRun
      (Machine.tokenPut l' { s' with ctrl := c', pbuf := p', plen := k' }) := by
  subst hc hk hl
  have e := h.encoder (by rw [hph]; rfl)
  obtain ⟨-, htok, -, -⟩ := e.block (by rw [hph]; rfl)
  rw [tokenPut_eq, tokenPut_eq]
  dsimp only
  rw [e.r, e.n, htok]
  split
  · exact State.SamePort.encode { h.port with ph := rfl } rfl ⟨rfl, rfl, fun _ => ⟨rfl, rfl, rfl, hp⟩, nofun, nofun⟩
  · exact State.SamePort.encode { h.port with ph := rfl } rfl ⟨rfl, rfl, fun _ => ⟨rfl, rfl, rfl, hp⟩, nofun, nofun⟩

theorem State.SameRun.eLit {s s' t t' : State} (h : s.SameRun s') (hinv : s.RunInv) (he : execELit s = .next t)
    (he' : execELit s' = .next t') : t.SameRun t' := by
  obtain ⟨hph, -, b, hb, hput⟩ := execELit_next he
  obtain ⟨-, -, b', hb', hput'⟩ := execELit_next he'
  have e := h.encoder (by rw [hph]; rfl)
  obtain ⟨hctrl, -, hplen, hpbuf⟩ := e.block (by rw [hph]; rfl)
  have i := hinv.encoder (by rw [hph]; rfl)
  have hrn := (i.cursor (by rw [hph]; rfl)).2
  rw [e.r, h.port.source _ (by have := i.n_eq; omega)] at hb'
  obtain rfl := Option.some.inj (hb.symm.trans hb')
  obtain ⟨hp, rfl⟩ := putLiteral_next hput
  obtain ⟨hp', rfl⟩ := putLiteral_next hput'
  refine h.tokenPut hph hctrl (congrArg (· + 1) hplen) rfl ?_
  simp only [Vector.toList_set, hplen]
  rw [take_set_one b (by simpa using hp), take_set_one b (by simpa using hp), hpbuf]

theorem State.SameRun.eMatch {s s' t t' : State} (h : s.SameRun s') (he : execEMatch s = .next t)
    (he' : execEMatch s' = .next t') : t.SameRun t' := by
  obtain ⟨hph, hf, hput⟩ := execEMatch_next he
  obtain ⟨-, -, hput'⟩ := execEMatch_next he'
  have e := h.encoder (by rw [hph]; rfl)
  obtain ⟨hctrl, htok, hplen, hpbuf⟩ := e.block (by rw [hph]; rfl)
  obtain ⟨hboff, hblen⟩ := (e.found (.inr (.inr hph))).2 hf
  obtain ⟨hp, rfl⟩ := putPair_next hput
  obtain ⟨hp', rfl⟩ := putPair_next hput'
  refine h.tokenPut hph (by rw [hctrl, htok]) (congrArg (· + 2) hplen) hblen ?_
  simp only [Vector.toList_set, hplen, hboff, hblen]
  rw [take_set_two _ _ (by simpa using hp), take_set_two _ _ (by simpa using hp), hpbuf]

theorem State.SameRun.eClose {s s' t t' : State} (h : s.SameRun s') (he : execEClose s = .next t)
    (he' : execEClose s' = .next t') : t.SameRun t' := by
  obtain ⟨hph, hput⟩ := execEClose_next he
  obtain ⟨-, hput'⟩ := execEClose_next he'
  have e := h.encoder (by rw [hph]; rfl)
  obtain ⟨hctrl, -, hplen, hpbuf⟩ := e.block (by rw [hph]; rfl)
  have hcase' := putControl_next hput'
  rw [h.port.cap, h.port.dstLen, h.port.dst, hplen, hctrl, hpbuf] at hcase'
  rcases putControl_next hput with ⟨hfull, rfl⟩ | ⟨hfits, -, rfl⟩ <;> rcases hcase' with ⟨hfull', rfl⟩ | ⟨hfits', -, rfl⟩
  · exact h.port.enterError _
  · omega
  · omega
  · exact State.SamePort.encode { h.port with ph := rfl, dst := rfl, dstLen := rfl } rfl
      ⟨e.n, e.r, nofun, nofun, nofun⟩

/-! ### The Stream Decoder's steps -/

theorem State.SameRun.dHeader {s s' t t' : State} (h : s.SameRun s') (hinv : s.RunInv) (he : execDHeader s = .next t)
    (he' : execDHeader s' = .next t') : t.SameRun t' := by
  obtain ⟨hph, hcase⟩ := execDHeader_next he
  obtain ⟨-, hcase'⟩ := execDHeader_next he'
  have d := h.decoder (by rw [hph]; rfl)
  have hm := (hinv.decoder (by rw [hph]; rfl)).m_eq
  rw [d.m] at hcase'
  rcases hcase with ⟨hshort, rfl⟩ | ⟨hlong, n, hn, rfl⟩ <;> rcases hcase' with ⟨hshort', rfl⟩ | ⟨hlong', n', hn', rfl⟩
  · exact h.port.enterError _
  · omega
  · omega
  · rw [h.port.memRead_eq (by omega)] at hn'
    obtain rfl := Option.some.inj (hn.symm.trans hn')
    rw [takeHeader_eq, takeHeader_eq, h.port.cap]
    by_cases hcap : s.caps.dst < n
    · rw [if_pos hcap, if_pos hcap]
      exact State.SamePort.enterError _ { h.port with }
    · rw [if_neg hcap, if_neg hcap]
      exact State.SamePort.decode { h.port with ph := rfl } rfl ⟨d.m, rfl, rfl, fun _ => rfl, nofun, nofun⟩

theorem State.SameRun.dCtrl {s s' t t' : State} (h : s.SameRun s') (hinv : s.RunInv) (he : execDCtrl s = .next t)
    (he' : execDCtrl s' = .next t') : t.SameRun t' := by
  obtain ⟨hph, hcase⟩ := execDCtrl_next he
  obtain ⟨-, hcase'⟩ := execDCtrl_next he'
  have d := h.decoder (by rw [hph]; rfl)
  have hn := d.n (by rw [hph]; nofun)
  have hm := (hinv.decoder (by rw [hph]; rfl)).m_eq
  rw [d.m, d.ip, d.op, hn] at hcase'
  rcases hcase with ⟨hend, rfl⟩ | ⟨hmore, hnone, rfl⟩ | ⟨hmore, hlt, c, hc, rfl⟩ <;>
    rcases hcase' with ⟨hend', rfl⟩ | ⟨hmore', hnone', rfl⟩ | ⟨hmore', hlt', c', hc', rfl⟩
  · exact State.SamePort.complete { h.port with dstLen := rfl }
  · exact absurd hend hmore'
  · exact absurd hend hmore'
  · exact absurd hend' hmore
  · exact h.port.enterError _
  · omega
  · exact absurd hend' hmore
  · omega
  · rw [h.port.source _ (by omega)] at hc'
    obtain rfl := Option.some.inj (hc.symm.trans hc')
    exact State.SamePort.decode { h.port with ph := rfl } rfl
      ⟨d.m, congrArg (· + 1) d.ip, d.op, fun _ => hn, fun _ => ⟨rfl, rfl⟩, nofun⟩

theorem State.SameRun.dEndblock {s s' t t' : State} (h : s.SameRun s') (he : execDEndblock s = .next t)
    (he' : execDEndblock s' = .next t') : t.SameRun t' := by
  obtain ⟨hph, -, rfl⟩ := execDEndblock_next he
  obtain ⟨-, -, rfl⟩ := execDEndblock_next he'
  have d := h.decoder (by rw [hph]; rfl)
  exact State.SamePort.decode { h.port with ph := rfl } rfl
    ⟨d.m, d.ip, d.op, fun _ => d.n (by rw [hph]; nofun), nofun, nofun⟩

theorem State.SameRun.dLit {s s' t t' : State} (h : s.SameRun s') (hinv : s.RunInv) (he : execDLit s = .next t)
    (he' : execDLit s' = .next t') : t.SameRun t' := by
  obtain ⟨hph, -, -, -, hcase⟩ := execDLit_next he
  obtain ⟨-, -, -, -, hcase'⟩ := execDLit_next he'
  have d := h.decoder (by rw [hph]; rfl)
  have hn := d.n (by rw [hph]; nofun)
  obtain ⟨hctrl, hbit⟩ := d.token (.inl hph)
  have hm := (hinv.decoder (by rw [hph]; rfl)).m_eq
  rw [d.m, d.ip, d.op, hbit, h.port.dst] at hcase'
  rcases hcase with ⟨hnone, rfl⟩ | ⟨hlt, -, b, hb, rfl⟩ <;> rcases hcase' with ⟨hnone', rfl⟩ | ⟨hlt', -, b', hb', rfl⟩
  · exact h.port.enterError _
  · omega
  · omega
  · rw [h.port.source _ (by omega)] at hb'
    obtain rfl := Option.some.inj (hb.symm.trans hb')
    exact State.SamePort.decode { h.port with dst := rfl } (by dsimp only; rw [hph]; rfl)
      ⟨rfl, rfl, rfl, fun _ => hn, fun _ => ⟨hctrl, rfl⟩, fun hp => by dsimp only at hp; rw [hph] at hp; cases hp⟩

theorem State.SameRun.dPair {s s' t t' : State} (h : s.SameRun s') (hinv : s.RunInv) (he : execDPair s = .next t)
    (he' : execDPair s' = .next t') : t.SameRun t' := by
  obtain ⟨hph, -, -, -, hcase⟩ := execDPair_next he
  obtain ⟨-, -, -, -, hcase'⟩ := execDPair_next he'
  have d := h.decoder (by rw [hph]; rfl)
  have hn := d.n (by rw [hph]; nofun)
  have htoken := d.token (.inl hph)
  have hm := (hinv.decoder (by rw [hph]; rfl)).m_eq
  rw [d.m, d.ip] at hcase'
  rcases hcase with ⟨hshort, rfl⟩ | ⟨hlong, pair, hpair, rfl⟩ <;>
    rcases hcase' with ⟨hshort', rfl⟩ | ⟨hlong', pair', hpair', rfl⟩
  · exact h.port.enterError _
  · omega
  · omega
  · rw [h.port.memRead_eq (by omega)] at hpair'
    obtain rfl := Option.some.inj (hpair.symm.trans hpair')
    have hcheck : ∀ o l : Nat,
        checkPair { s' with ip := s'.ip + 2, off := o, len := l, ws := winStart s'.op } =
          checkPair { s with ip := s.ip + 2, off := o, len := l, ws := winStart s.op } := fun o l => by
      simp only [checkPair, d.op, hn]
    rw [takePair_eq, takePair_eq, hcheck]
    split
    · exact State.SamePort.enterError _ { h.port with }
    · exact State.SamePort.decode { h.port with ph := rfl } rfl
        ⟨d.m, congrArg (· + 2) d.ip, d.op, fun _ => hn, fun _ => htoken,
          fun _ => ⟨rfl, rfl, congrArg winStart d.op, rfl⟩⟩

theorem State.SameRun.dCopy {s s' t t' : State} (h : s.SameRun s') (he : execDCopy s = .next t)
    (he' : execDCopy s' = .next t') : t.SameRun t' := by
  obtain ⟨hph, -, -, b, hb, rfl⟩ := execDCopy_next he
  obtain ⟨-, -, -, b', hb', rfl⟩ := execDCopy_next he'
  have d := h.decoder (by rw [hph]; rfl)
  obtain ⟨hoff, hlen, hws, hi⟩ := d.copy hph
  have hsource : copySource s' = copySource s := by simp only [copySource, hws, hoff, hi]
  have htarget : copyTarget s' = copyTarget s := by simp only [copyTarget, d.op, hi]
  rw [h.port.dst, hsource] at hb'
  obtain rfl := Option.some.inj (hb.symm.trans hb')
  exact State.SamePort.decode { h.port with dst := by dsimp only; rw [h.port.dst, htarget] }
    (by dsimp only; rw [hph]; rfl)
    ⟨d.m, d.ip, d.op, d.n, d.token, fun _ => ⟨hoff, hlen, hws, congrArg (· + 1) hi⟩⟩

theorem State.SameRun.dCopyend {s s' t t' : State} (h : s.SameRun s') (he : execDCopyend s = .next t)
    (he' : execDCopyend s' = .next t') : t.SameRun t' := by
  obtain ⟨hph, -, rfl⟩ := execDCopyend_next he
  obtain ⟨-, -, rfl⟩ := execDCopyend_next he'
  have d := h.decoder (by rw [hph]; rfl)
  obtain ⟨-, hlen, -, -⟩ := d.copy hph
  obtain ⟨hctrl, hbit⟩ := d.token (.inr hph)
  exact State.SamePort.decode { h.port with ph := rfl } rfl
    ⟨d.m, d.ip, congrArg₂ (· + ·) d.op hlen, fun _ => d.n (by rw [hph]; nofun),
      fun _ => ⟨hctrl, congrArg (· + 1) hbit⟩, nofun⟩

/-! ### The run -/

/-- One step of each run, of the micro-operation that both select. -/
theorem State.SameRun.exec {s s' t t' : State} {i : Instr} (h : s.SameRun s') (hinv : s.RunInv)
    (hi : selectOp s = some i) (he : Machine.exec i s = .next t) (he' : Machine.exec i s' = .next t') : t.SameRun t' := by
  rcases selectOp_some hi with ⟨rfl, -⟩ | ⟨rfl, -⟩ | ⟨rfl, -⟩ | ⟨rfl, -⟩ | ⟨rfl, -⟩ | ⟨rfl, -⟩ | ⟨rfl, -⟩ | ⟨rfl, -⟩ |
    ⟨rfl, -⟩ | ⟨rfl, -⟩ | ⟨rfl, -⟩ | ⟨rfl, -⟩ | ⟨rfl, -⟩ | ⟨rfl, -⟩ | ⟨rfl, -⟩
  · exact h.eHeader he he'
  · exact h.eOpen he he'
  · exact h.mStart he he'
  · exact h.mSearch hinv he he'
  · exact h.mExtend he he'
  · exact h.eLit hinv he he'
  · exact h.eMatch he he'
  · exact h.eClose he he'
  · exact h.dHeader hinv he he'
  · exact h.dCtrl hinv he he'
  · exact h.dEndblock he he'
  · exact h.dLit hinv he he'
  · exact h.dPair hinv he he'
  · exact h.dCopy he he'
  · exact h.dCopyend he he'

theorem State.SameRun.engineStep {s s' t t' : State} (h : s.SameRun s') (hinv : s.RunInv) (hph : s.ph ≠ .halt)
    (he : Machine.engineStep s = .next t) (he' : Machine.engineStep s' = .next t') : t.SameRun t' := by
  obtain ⟨i, hi⟩ := hinv.selects hph
  rw [engineStep_of_selectOp hi] at he
  rw [engineStep_of_selectOp (h.selectOp_eq.trans hi)] at he'
  exact h.exec hinv hi he he'

/-- In `HALT` a run stays where it is (R265). -/
theorem runEngine_of_halt (k : Nat) {s : State} (h : s.ph = .halt) : runEngine k s = .next s := by
  induction k with
  | zero => rfl
  | succ k ih => rw [runEngine, engineStep_of_halt h]; exact ih

/-- A run that answers has a first step that answers. -/
theorem runEngine_succ_next {k : Nat} {s t : State} (h : runEngine (k + 1) s = .next t) :
    ∃ u, engineStep s = .next u ∧ runEngine k u = .next t := by
  unfold runEngine at h
  split at h
  · exact ⟨_, ‹_›, h⟩
  · cases h
  · cases h

theorem runCommand_next {command : Instr} {k : Nat} {s t : State} (h : runCommand command k s = .next t) :
    ∃ u, exec command s = .next u ∧ runEngine k u = .next t := by
  unfold runCommand at h
  split at h
  · exact ⟨_, ‹_›, h⟩
  · cases h
  · cases h

/-- Two runs that both come to `HALT`, in however many steps each, agree there. -/
theorem State.SameRun.runEngine {k k' : Nat} {s s' t t' : State} (h : s.SameRun s') (hinv : s.RunInv)
    (hrun : Machine.runEngine k s = .next t) (ht : t.ph = .halt) (hrun' : Machine.runEngine k' s' = .next t')
    (ht' : t'.ph = .halt) : t.SameRun t' := by
  induction k generalizing s s' k' with
  | zero =>
    cases hrun
    rw [runEngine_of_halt k' (h.port.ph.trans ht)] at hrun'
    cases hrun'
    exact h
  | succ k ih =>
    by_cases hph : s.ph = .halt
    · rw [runEngine_of_halt _ hph] at hrun
      rw [runEngine_of_halt _ (h.port.ph.trans hph)] at hrun'
      cases hrun
      cases hrun'
      exact h
    · cases k' with
      | zero =>
        cases hrun'
        exact absurd (h.port.ph.symm.trans ht') hph
      | succ k' =>
        obtain ⟨u, hu, hrest⟩ := runEngine_succ_next hrun
        obtain ⟨u', hu', hrest'⟩ := runEngine_succ_next hrun'
        exact ih (h.engineStep hinv hph hu hu') (hinv.engineStep hu) hrest hrest'

/-- What the host sees of two runs in agreement is the same (R223). -/
theorem State.SamePort.result_eq {t t' : State} (h : t.SamePort t') :
    hostStatus t = hostStatus t' ∧ hostErr t = hostErr t' ∧ t.dstLen = t'.dstLen ∧ callResult t = callResult t' := by
  refine ⟨?_, ?_, h.dstLen.symm, ?_⟩
  · rw [hostStatus, hostStatus, h.status]
  · rw [hostErr, hostErr, h.err]
  · rw [callResult, callResult, h.status, h.err, h.dst, h.dstLen]

/-- A command's first step puts two engines with one input in agreement and establishes the invariant (R35, R39). -/
theorem sameRun_of_command {s s' u u' : State} {command : Instr}
    (hcommand : command = .cmdCompress ∨ command = .cmdDecompress) (hidle : s.status ≠ .busy) (hidle' : s'.status ≠ .busy)
    (hlen : s.srcLen = s'.srcLen) (hcap : s.caps.dst = s'.caps.dst)
    (hsrc : ∀ a, a < s.srcLen → s'.src.read a = s.src.read a) (hu : exec command s = .next u)
    (hu' : exec command s' = .next u') : u.SameRun u' ∧ u.RunInv := by
  rcases hcommand with rfl | rfl
  · obtain ⟨-, hle, rfl⟩ := (execCmdCompress_next hu).resolve_left fun hb => hidle hb.1
    obtain ⟨-, -, rfl⟩ := (execCmdCompress_next hu').resolve_left fun hb => hidle' hb.1
    exact ⟨State.SamePort.encode ⟨rfl, rfl, rfl, rfl, rfl, hcap.symm, hlen.symm, hsrc⟩ rfl
      ⟨hlen.symm, rfl, nofun, nofun, nofun⟩, runInv_startCompress hle⟩
  · obtain ⟨-, hle, rfl⟩ := (execCmdDecompress_next hu).resolve_left fun hb => hidle hb.1
    obtain ⟨-, -, rfl⟩ := (execCmdDecompress_next hu').resolve_left fun hb => hidle' hb.1
    exact ⟨State.SamePort.decode ⟨rfl, rfl, rfl, rfl, rfl, hcap.symm, hlen.symm, hsrc⟩ rfl
      ⟨hlen.symm, rfl, rfl, fun hp => absurd rfl hp, nofun, nofun⟩, runInv_startDecompress hle⟩

/-- Settles O60: the two runs agree after the command's first step and step by step until `HALT`. -/
theorem resultDependsOnlyOnInput : Obligations.ResultDependsOnlyOnInput := by
  intro s s' t t' command k k' hcommand hidle hidle' hlen hcap hsrc hrun ht hrun' ht'
  obtain ⟨u, hu, hrest⟩ := runCommand_next hrun
  obtain ⟨u', hu', hrest'⟩ := runCommand_next hrun'
  obtain ⟨hsame, hinv⟩ :=
    sameRun_of_command hcommand hidle hidle' hlen hcap (fun a ha => (hsrc a ha).1.symm) hu hu'
  exact (hsame.runEngine hinv hrest ht hrest' ht').port.result_eq

end Sys2Proof.Machine

/-! PROOFS. The two byte spaces during a command (20_memory.md R61, R62, R68, R71): what the encoder does to `DST` is to
append to it, and what the engine reads of `SRC` lies below `SRC_LEN`. -/

namespace Sys2Proof.Machine

open Sys2Proof

/-! ### The encoder appends -/

/-- From `s` to `t` bytes were appended to `DST`, perhaps none (R68). -/
def State.AppendsTo (s t : State) : Prop :=
  ∃ bs, t.dst = s.dst.writeAll s.dstLen bs ∧ t.dstLen = s.dstLen + bs.length

theorem State.AppendsTo.of_eq {s t : State} (hdst : t.dst = s.dst) (hlen : t.dstLen = s.dstLen) : s.AppendsTo t :=
  ⟨[], hdst, hlen⟩

/-- Every byte but the appended ones reads as before. -/
theorem State.AppendsTo.append_only {s t : State} (h : s.AppendsTo t) :
    s.dstLen ≤ t.dstLen ∧ ∀ a, a < s.dstLen ∨ t.dstLen ≤ a → t.dst.read a = s.dst.read a := by
  obtain ⟨bs, hdst, hlen⟩ := h
  rw [hdst, hlen]
  exact ⟨Nat.le_add_right _ _, fun a ha => Memory.read_writeAll_outside s.dst bs ha⟩

theorem appendsTo_searched (j : Option Nat) (s : State) : s.AppendsTo (searched j s) := by
  cases j <;> exact .of_eq rfl rfl

/-- A micro-operation selected in a phase of COMPRESS enters an error or appends (R62, R151 to R155). -/
theorem exec_appendsTo {s t : State} {i : Instr} (hc : s.ph.compressing = true) (hi : selectOp s = some i)
    (he : exec i s = .next t) : t.status = .error ∨ s.AppendsTo t := by
  have encoding : s.ph.decompressing = false := by
    cases hph : s.ph <;> simp [hph, Phase.compressing, Phase.decompressing] at hc ⊢
  rcases selectOp_some hi with ⟨rfl, -⟩ | ⟨rfl, -⟩ | ⟨rfl, -⟩ | ⟨rfl, -⟩ | ⟨rfl, -⟩ | ⟨rfl, -⟩ | ⟨rfl, -⟩ | ⟨rfl, -⟩ |
    ⟨-, hph⟩ | ⟨-, hph⟩ | ⟨-, hph, -⟩ | ⟨-, hph, -⟩ | ⟨-, hph, -⟩ | ⟨-, hph, -⟩ | ⟨-, hph, -⟩
  · obtain ⟨-, rfl⟩ := execEHeader_next he
    rw [putHeader_eq]
    split
    · exact .inl rfl
    · exact .inr ⟨bytes32 s.n, rfl, rfl⟩
  · obtain ⟨-, ⟨-, rfl⟩ | ⟨-, rfl⟩⟩ := execEOpen_next he <;> exact .inr (.of_eq rfl rfl)
  · obtain ⟨-, ⟨-, rfl⟩ | ⟨-, rfl⟩⟩ := execMStart_next he <;> exact .inr (.of_eq rfl rfl)
  · obtain ⟨-, ⟨-, rfl⟩ | ⟨-, window, candidate, -, -, rfl⟩⟩ := execMSearch_next he <;>
      exact .inr (appendsTo_searched _ s)
  · obtain ⟨-, ⟨-, rfl⟩ | ⟨-, -, rfl⟩⟩ := execMExtend_next he <;> exact .inr (.of_eq rfl rfl)
  · obtain ⟨-, -, b, -, hput⟩ := execELit_next he
    obtain ⟨hp, rfl⟩ := putLiteral_next hput
    rw [tokenPut_eq]
    exact .inr (.of_eq rfl rfl)
  · obtain ⟨-, -, hput⟩ := execEMatch_next he
    obtain ⟨hp, rfl⟩ := putPair_next hput
    rw [tokenPut_eq]
    exact .inr (.of_eq rfl rfl)
  · obtain ⟨-, hput⟩ := execEClose_next he
    obtain ⟨-, rfl⟩ | ⟨-, hp, rfl⟩ := putControl_next hput
    · exact .inl rfl
    · exact .inr ⟨s.ctrl :: s.pbuf.toList.take s.plen, rfl, by simp; omega⟩
  all_goals
    rw [hph] at encoding
    cases encoding

/-- Settles O12: the header and each closed block are written at `DST_LEN`, and nothing else is written. -/
theorem compressOnlyAppends : Obligations.CompressOnlyAppends := by
  intro s t hc h
  obtain ⟨hph, -⟩ | ⟨i, hi, he⟩ := engineStep_next h
  · rw [hph] at hc
    cases hc
  · exact (exec_appendsTo hc hi he).imp id State.AppendsTo.append_only

/-! ### A state with other contents of `SRC` -/

/-- `s` with `m` for `SRC`. -/
def State.withSrc (m : Memory) (s : State) : State := { s with src := m }

/-- The same answer, with `m` for `SRC` in the next state. -/
def answerWithSrc (m : Memory) : Result → Result
  | .next t => .next (t.withSrc m)
  | .fault f => .fault f
  | .refused q => .refused q

/-- A test on the registers decides alike, whatever `SRC` holds. -/
theorem answerWithSrc_ite {m : Memory} {P : Prop} [Decidable P] {x x' y y' : Result} (hx : P → x' = answerWithSrc m x)
    (hy : ¬ P → y' = answerWithSrc m y) : (if P then x' else y') = answerWithSrc m (if P then x else y) := by
  split
  · exact hx ‹_›
  · exact hy ‹_›

/-! ### Operations that do not look at `SRC` -/

section
variable (m : Memory) (s : State)

theorem selectOp_withSrc : selectOp (s.withSrc m) = selectOp s := rfl

theorem tokenPut_withSrc (k : Nat) : tokenPut k (s.withSrc m) = (tokenPut k s).withSrc m := by
  rw [tokenPut_eq, tokenPut_eq]; rfl

theorem searched_withSrc (j : Option Nat) : searched j (s.withSrc m) = (searched j s).withSrc m := by
  cases j <;> rfl

theorem putHeader_withSrc (n : Nat) : putHeader n (s.withSrc m) = (putHeader n s).withSrc m := by
  rw [putHeader_eq, putHeader_eq, apply_ite (State.withSrc m)]; rfl

theorem takeHeader_withSrc (n : Nat) : takeHeader n (s.withSrc m) = (takeHeader n s).withSrc m := by
  rw [takeHeader_eq, takeHeader_eq, apply_ite (State.withSrc m)]; rfl

theorem checkPair_withSrc : checkPair (s.withSrc m) = checkPair s := rfl

theorem takePair_withSrc (o l : Nat) : takePair o l (s.withSrc m) = (takePair o l s).withSrc m := by
  have hcheck := checkPair_withSrc m { s with ip := s.ip + 2, off := o, len := l, ws := winStart s.op }
  rw [takePair_eq, takePair_eq]
  split <;> rename_i hc <;> rw [hcheck.symm.trans hc] <;> rfl

theorem storeDst_withSrc (a : Nat) (v : Byte) {f : State → State}
    (hf : ∀ u : State, f (u.withSrc m) = (f u).withSrc m) :
    storeDst a v (s.withSrc m) f = answerWithSrc m (storeDst a v s f) :=
  answerWithSrc_ite (fun _ => congrArg _ (hf { s with dst := s.dst.write a v })) fun _ => rfl

theorem putLiteral_withSrc (b : Byte) : putLiteral b (s.withSrc m) = answerWithSrc m (putLiteral b s) := by
  simp only [putLiteral, State.withSrc, tokenPut_eq]
  split <;> rfl

theorem putPair_withSrc (o l : Nat) : putPair o l (s.withSrc m) = answerWithSrc m (putPair o l s) := by
  simp only [putPair, State.withSrc, tokenPut_eq]
  split
  · rfl
  · split <;> rfl

theorem putControl_withSrc (c : Byte) : putControl c (s.withSrc m) = answerWithSrc m (putControl c s) :=
  answerWithSrc_ite (fun _ => rfl) fun _ => answerWithSrc_ite (fun _ => rfl) fun _ => by
    rw [appendAll_eq, appendAll_eq]; rfl

theorem execMStart_withSrc : execMStart (s.withSrc m) = answerWithSrc m (execMStart s) :=
  answerWithSrc_ite (fun _ => answerWithSrc_ite (fun _ => rfl) fun _ => rfl) fun _ => rfl

theorem execMExtend_withSrc : execMExtend (s.withSrc m) = answerWithSrc m (execMExtend s) :=
  answerWithSrc_ite (fun _ => answerWithSrc_ite (fun _ => rfl) fun _ => rfl) fun _ => rfl

theorem execEHeader_withSrc : execEHeader (s.withSrc m) = answerWithSrc m (execEHeader s) :=
  answerWithSrc_ite (fun _ => congrArg _ (putHeader_withSrc m s s.n)) fun _ => rfl

theorem execEOpen_withSrc : execEOpen (s.withSrc m) = answerWithSrc m (execEOpen s) :=
  answerWithSrc_ite (fun _ => answerWithSrc_ite (fun _ => rfl) fun _ => rfl) fun _ => rfl

theorem execEMatch_withSrc : execEMatch (s.withSrc m) = answerWithSrc m (execEMatch s) :=
  answerWithSrc_ite (fun _ => putPair_withSrc m s s.boff s.blen) fun _ => rfl

theorem execEClose_withSrc : execEClose (s.withSrc m) = answerWithSrc m (execEClose s) :=
  answerWithSrc_ite (fun _ => putControl_withSrc m s s.ctrl) fun _ => rfl

theorem execDEndblock_withSrc : execDEndblock (s.withSrc m) = answerWithSrc m (execDEndblock s) :=
  answerWithSrc_ite (fun _ => rfl) fun _ => rfl

theorem execDCopy_withSrc : execDCopy (s.withSrc m) = answerWithSrc m (execDCopy s) := by
  refine answerWithSrc_ite (fun _ => ?_) fun _ => rfl
  have hread : (s.withSrc m).dst.read (copySource (s.withSrc m)) = s.dst.read (copySource s) := rfl
  rw [hread]
  split
  · rfl
  · exact storeDst_withSrc m s (copyTarget s) _ fun _ => rfl

theorem execDCopyend_withSrc : execDCopyend (s.withSrc m) = answerWithSrc m (execDCopyend s) :=
  answerWithSrc_ite (fun _ => rfl) fun _ => rfl

end

/-! ### Operations that look at `SRC`, below `SRC_LEN` -/

section
variable {m : Memory} {s : State} (h : s.RunInv) (hm : ∀ a, a < s.srcLen → m.read a = s.src.read a)
include hm

theorem range_below_srcLen {a k : Nat} (hle : a + k ≤ s.srcLen) : m.range a k = s.src.range a k :=
  Memory.range_congr fun j hj => hm (a + j) (by omega)

theorem memRead_below_srcLen {a k : Nat} (hle : a + k ≤ s.srcLen) : memRead m a k = memRead s.src a k := by
  rw [memRead, memRead, range_below_srcLen hm hle]

include h

theorem execMSearch_withSrc : execMSearch (s.withSrc m) = answerWithSrc m (execMSearch s) := by
  refine answerWithSrc_ite (fun (hph : s.ph = .mSearch) => answerWithSrc_ite (fun _ => rfl) fun _ => ?_) fun _ => rfl
  have e := h.encoder (by rw [hph]; rfl)
  obtain ⟨hws, hwlen, -, -, hrn⟩ := e.window (.inl hph)
  have hn := e.n_eq
  have hle := winStart_le s.r
  have hwindow : (s.withSrc m).src.range (s.withSrc m).ws (s.withSrc m).wlen = s.src.range s.ws s.wlen :=
    range_below_srcLen hm (a := s.ws) (k := s.wlen) (by omega)
  have hcandidate : (s.withSrc m).src.range (s.withSrc m).r (s.withSrc m).clen = s.src.range s.r s.clen :=
    range_below_srcLen hm (a := s.r) (k := s.clen) (by omega)
  rw [hwindow, hcandidate]
  split
  · exact congrArg _ (searched_withSrc m s _)
  · rfl

theorem execELit_withSrc : execELit (s.withSrc m) = answerWithSrc m (execELit s) := by
  refine answerWithSrc_ite (fun ⟨(hph : s.ph = .cEmit), _⟩ => ?_) fun _ => rfl
  have e := h.encoder (by rw [hph]; rfl)
  obtain ⟨-, hr⟩ := e.cursor (by rw [hph]; rfl)
  have hn := e.n_eq
  have hread : (s.withSrc m).src.read (s.withSrc m).r = s.src.read s.r := hm s.r (by omega)
  rw [hread]
  split
  · rfl
  · exact putLiteral_withSrc m s _

theorem execDHeader_withSrc : execDHeader (s.withSrc m) = answerWithSrc m (execDHeader s) := by
  refine answerWithSrc_ite (fun (hph : s.ph = .dHeader) => answerWithSrc_ite (fun _ => rfl)
    fun (hlong : ¬ s.m < 4) => ?_) fun _ => rfl
  have hlen := (h.decoder (by rw [hph]; rfl)).m_eq
  have hread : memRead (s.withSrc m).src 0 4 = memRead s.src 0 4 := memRead_below_srcLen hm (by omega)
  rw [hread]
  split
  · rfl
  · exact congrArg _ (takeHeader_withSrc m s _)

theorem execDCtrl_withSrc : execDCtrl (s.withSrc m) = answerWithSrc m (execDCtrl s) := by
  refine answerWithSrc_ite (fun (hph : s.ph = .dCtrl) => answerWithSrc_ite (fun _ => rfl) fun _ =>
    answerWithSrc_ite (fun _ => rfl) fun (hlong : ¬ s.m ≤ s.ip) => ?_) fun _ => rfl
  have hlen := (h.decoder (by rw [hph]; rfl)).m_eq
  have hread : (s.withSrc m).src.read (s.withSrc m).ip = s.src.read s.ip := hm s.ip (by omega)
  rw [hread]
  split <;> rfl

theorem execDLit_withSrc : execDLit (s.withSrc m) = answerWithSrc m (execDLit s) := by
  refine answerWithSrc_ite (fun ⟨(hph : s.ph = .dToken), _⟩ => answerWithSrc_ite (fun _ => rfl)
    fun (hlong : ¬ s.m ≤ s.ip) => ?_) fun _ => rfl
  have hlen := (h.decoder (by rw [hph]; rfl)).m_eq
  have hread : (s.withSrc m).src.read (s.withSrc m).ip = s.src.read s.ip := hm s.ip (by omega)
  rw [hread]
  split
  · rfl
  · exact storeDst_withSrc m s s.op _ fun _ => rfl

theorem execDPair_withSrc : execDPair (s.withSrc m) = answerWithSrc m (execDPair s) := by
  refine answerWithSrc_ite (fun ⟨(hph : s.ph = .dToken), _⟩ => answerWithSrc_ite (fun _ => rfl)
    fun (hlong : ¬ s.m - s.ip < 2) => ?_) fun _ => rfl
  have hlen := (h.decoder (by rw [hph]; rfl)).m_eq
  have hread : memRead (s.withSrc m).src (s.withSrc m).ip 2 = memRead s.src s.ip 2 :=
    memRead_below_srcLen hm (a := s.ip) (by omega)
  rw [hread]
  split
  · rfl
  · exact congrArg _ (takePair_withSrc m s _ _)

/-- Inside a command the selected micro-operation answers alike over any `SRC` that agrees below `SRC_LEN` (R71). -/
theorem exec_withSrc {i : Instr} (hi : selectOp s = some i) : exec i (s.withSrc m) = answerWithSrc m (exec i s) := by
  rcases selectOp_some hi with ⟨rfl, -⟩ | ⟨rfl, -⟩ | ⟨rfl, -⟩ | ⟨rfl, -⟩ | ⟨rfl, -⟩ | ⟨rfl, -⟩ | ⟨rfl, -⟩ | ⟨rfl, -⟩ |
    ⟨rfl, -⟩ | ⟨rfl, -⟩ | ⟨rfl, -⟩ | ⟨rfl, -⟩ | ⟨rfl, -⟩ | ⟨rfl, -⟩ | ⟨rfl, -⟩
  · exact execEHeader_withSrc m s
  · exact execEOpen_withSrc m s
  · exact execMStart_withSrc m s
  · exact execMSearch_withSrc h hm
  · exact execMExtend_withSrc m s
  · exact execELit_withSrc h hm
  · exact execEMatch_withSrc m s
  · exact execEClose_withSrc m s
  · exact execDHeader_withSrc h hm
  · exact execDCtrl_withSrc h hm
  · exact execDEndblock_withSrc m s
  · exact execDLit_withSrc h hm
  · exact execDPair_withSrc h hm
  · exact execDCopy_withSrc m s
  · exact execDCopyend_withSrc m s

theorem engineStep_withSrc : engineStep (s.withSrc m) = answerWithSrc m (engineStep s) := by
  cases hi : selectOp s with
  | some i =>
    rw [engineStep_of_selectOp hi, engineStep_of_selectOp ((selectOp_withSrc m s).trans hi)]
    exact exec_withSrc h hm hi
  | none =>
    rw [engineStep_of_selectOp_none hi, engineStep_of_selectOp_none ((selectOp_withSrc m s).trans hi)]
    exact answerWithSrc_ite (fun _ => rfl) fun _ => rfl

end

/-- Settles O13: the invariant keeps every read below `SRC_LEN`, so the step answers alike over both sources. -/
theorem engineReadsOnlyValidSource : Obligations.EngineReadsOnlyValidSource := by
  intro s m h hw hm
  obtain ⟨t, ht⟩ := h.engineStep_answers hw
  exact ⟨t, ht, (engineStep_withSrc h.runInv hm).trans (congrArg (answerWithSrc m) ht)⟩

end Sys2Proof.Machine

/-! PROOFS. The decoder and the encoder undo each other (30_encoding.md R91 to R94, R98, R99, R104, R110): what bytes decode to, by
place, and the two fields of a pair. -/

namespace Sys2Proof.Machine

open Sys2Proof

/-! ### The ranges of fields -/

theorem wf_header {n : Nat} : (Instr.header n).wf = true ↔ n < 2 ^ 32 := decide_eq_true_iff

theorem wf_matchPair {o l : Nat} : (Instr.matchPair o l).wf = true ↔ o ≤ 2047 ∧ 3 ≤ l ∧ l ≤ 34 := by
  simp only [Instr.wf, Bool.and_eq_true, decide_eq_true_eq, Config.windowSize, Config.minMatch, Config.maxMatch]
  omega

theorem wf_cmdReserved {code : BitVec 2} : (Instr.cmdReserved code).wf = true ↔ code = 0#2 ∨ code = 3#2 :=
  decide_eq_true_iff

/-- Each of the four codes of `CMD` is a command (R221, R222, R224). -/
theorem wf_commandOf : ∀ code : BitVec 2, (commandOf code).wf = true := by decide

/-! ### Decoding an encoding -/

theorem decode_bytes32 {n : Nat} (hn : n < 2 ^ 32) (rest : List Byte) :
    decode .header (bytes32 n ++ rest) = .ok (.header n, rest) := by
  have hle := littleEndian_bytes32 hn
  rw [bytes32, littleEndian_four] at hle
  simp only [bytes32, List.cons_append, List.nil_append, decode, hle]

theorem decode_packPair {o l : Nat} (ho : o ≤ 2047) (h3 : 3 ≤ l) (h34 : l ≤ 34) (rest : List Byte) :
    decode .pair (bytes16 (packPair o l) ++ rest) = .ok (.matchPair o l, rest) := by
  obtain ⟨b0, b1, hpay, hle⟩ := payload_pair ho h34
  rw [Token.payload] at hpay
  simp only [hpay, List.cons_append, List.nil_append, decode, hle, pairOffset_packPair ho, pairLength_packPair ho h3]

theorem decode_cmdReserved {code : BitVec 2} (h : code = 0#2 ∨ code = 3#2) (rest : List Byte) :
    decode .command (code.setWidth 8 :: rest) = .ok (.cmdReserved code, rest) := by
  rcases h with rfl | rfl <;> rfl

/-- Settles O1: by the instruction. A header and a pair are assembled back from their bytes, the other encodings are one byte
that stands for itself, and a micro-operation has none. -/
theorem decodeUndoesEncode : Obligations.DecodeUndoesEncode := by
  intro i slot bytes rest hwf henc
  cases i with
  | header n =>
    cases henc
    exact decode_bytes32 (wf_header.mp hwf) rest
  | matchPair o l =>
    cases henc
    obtain ⟨ho, h3, h34⟩ := wf_matchPair.mp hwf
    exact decode_packPair ho h3 h34 rest
  | cmdReserved code =>
    cases henc
    exact decode_cmdReserved (wf_cmdReserved.mp hwf) rest
  | control _ | literal _ | cmdCompress | cmdDecompress =>
    cases henc
    rfl
  | _ => cases henc

/-! ### What bytes decode to -/

/-- What was decoded, by the place the reader stands at (R91 to R94, R96). -/
theorem decode_ok {slot : Slot} {bytes rest : List Byte} {i : Instr} (h : decode slot bytes = .ok (i, rest)) :
    (slot = .header ∧ ∃ b0 b1 b2 b3, bytes = b0 :: b1 :: b2 :: b3 :: rest ∧ i = .header (le32 b0 b1 b2 b3)) ∨
      (slot = .control ∧ ∃ c, bytes = c :: rest ∧ i = .control c) ∨
      (slot = .literal ∧ ∃ b, bytes = b :: rest ∧ i = .literal b) ∨
      (slot = .pair ∧ ∃ b0 b1, bytes = b0 :: b1 :: rest ∧
        i = .matchPair (pairOffset (le16 b0 b1)) (pairLength (le16 b0 b1))) ∨
      (slot = .command ∧ ∃ b : Byte, bytes = b :: rest ∧ i = commandOf (BitVec.ofNat 2 b.toNat)) := by
  unfold decode at h
  split at h <;> cases h <;> simp

theorem decode_header_ok {bytes rest : List Byte} {i : Instr} (h : decode .header bytes = .ok (i, rest)) :
    ∃ b0 b1 b2 b3, bytes = b0 :: b1 :: b2 :: b3 :: rest ∧ i = .header (le32 b0 b1 b2 b3) := by
  simpa using decode_ok h

theorem decode_control_ok {bytes rest : List Byte} {i : Instr} (h : decode .control bytes = .ok (i, rest)) :
    ∃ c, bytes = c :: rest ∧ i = .control c := by
  simpa using decode_ok h

theorem decode_literal_ok {bytes rest : List Byte} {i : Instr} (h : decode .literal bytes = .ok (i, rest)) :
    ∃ b, bytes = b :: rest ∧ i = .literal b := by
  simpa using decode_ok h

theorem decode_pair_ok {bytes rest : List Byte} {i : Instr} (h : decode .pair bytes = .ok (i, rest)) :
    ∃ b0 b1, bytes = b0 :: b1 :: rest ∧ i = .matchPair (pairOffset (le16 b0 b1)) (pairLength (le16 b0 b1)) := by
  simpa using decode_ok h

/-- No bit pattern decodes to an instruction outside its ranges (R99, R104). -/
theorem decode_wf {slot : Slot} {bytes rest : List Byte} {i : Instr} (h : decode slot bytes = .ok (i, rest)) :
    i.wf = true := by
  rcases decode_ok h with ⟨-, b0, b1, b2, b3, -, rfl⟩ | ⟨-, c, -, rfl⟩ | ⟨-, b, -, rfl⟩ | ⟨-, b0, b1, -, rfl⟩ |
    ⟨-, b, -, rfl⟩
  · exact wf_header.mpr (le32_lt b0 b1 b2 b3)
  · rfl
  · rfl
  · exact wf_matchPair.mpr ⟨Nat.le_of_lt_succ (pairOffset_lt _), pairLength_range (le16_lt b0 b1)⟩
  · exact wf_commandOf _

/-- The decoder consumes as many bytes as the place has (opcode table, `width_bytes`). -/
theorem decode_rest {slot : Slot} {bytes rest : List Byte} {i : Instr} (h : decode slot bytes = .ok (i, rest)) :
    rest = bytes.drop slot.width := by
  rcases decode_ok h with ⟨rfl, b0, b1, b2, b3, rfl, -⟩ | ⟨rfl, c, rfl, -⟩ | ⟨rfl, b, rfl, -⟩ | ⟨rfl, b0, b1, rfl, -⟩ |
    ⟨rfl, b, rfl, -⟩ <;> rfl

/-- Unpacking a pair and packing its fields gives the pair (R98, R99). -/
theorem packPair_unpack (pair : Nat) : packPair (pairOffset pair) (pairLength pair) = pair := by
  rw [packPair_eq_add (Nat.le_of_lt_succ (pairOffset_lt pair)), pairOffset_eq_mod, pairLength_eq_div]
  omega

/-- A stream element's encoding is the bytes it was decoded from. -/
theorem encode_of_decode {slot : Slot} {bytes rest : List Byte} {i : Instr} (hslot : slot ≠ .command)
    (h : decode slot bytes = .ok (i, rest)) : encode i = some (slot, bytes.take slot.width) := by
  rcases decode_ok h with ⟨rfl, b0, b1, b2, b3, rfl, rfl⟩ | ⟨rfl, c, rfl, rfl⟩ | ⟨rfl, b, rfl, rfl⟩ |
    ⟨rfl, b0, b1, rfl, rfl⟩ | ⟨rfl, -⟩
  · rw [encode, bytes32_le32]; rfl
  · rfl
  · rfl
  · rw [encode, packPair_unpack, bytes16_le16]; rfl
  · exact absurd rfl hslot

theorem width_le_of_decode {slot : Slot} {bytes rest : List Byte} {i : Instr} (h : decode slot bytes = .ok (i, rest)) :
    slot.width ≤ bytes.length := by
  rcases decode_ok h with ⟨rfl, b0, b1, b2, b3, rfl, -⟩ | ⟨rfl, c, rfl, -⟩ | ⟨rfl, b, rfl, -⟩ | ⟨rfl, b0, b1, rfl, -⟩ |
    ⟨rfl, b, rfl, -⟩ <;> exact Nat.le_add_left _ rest.length

theorem decode_of_short {slot : Slot} {bytes : List Byte} (h : bytes.length < slot.width) :
    decode slot bytes = .error .truncated := by
  cases hdec : decode slot bytes with
  | error e => cases e; rfl
  | ok r => exact absurd (width_le_of_decode hdec) (Nat.not_le.mpr h)

theorem decode_of_enough {slot : Slot} {bytes : List Byte} (h : slot.width ≤ bytes.length) :
    ∃ i rest, decode slot bytes = .ok (i, rest) := by
  cases slot with
  | header =>
    match bytes, h with
    | _ :: _ :: _ :: _ :: _, _ => exact ⟨_, _, rfl⟩
  | pair =>
    match bytes, h with
    | _ :: _ :: _, _ => exact ⟨_, _, rfl⟩
  | control | literal | command =>
    match bytes, h with
    | _ :: _, _ => exact ⟨_, _, rfl⟩

/-- Settles O2: bytes decode exactly when they are enough, and re-encoding what they decode to gives them back. -/
theorem encodeUndoesDecode : Obligations.EncodeUndoesDecode := by
  refine fun slot bytes hslot => ⟨decode_of_short, fun henough => ?_⟩
  obtain ⟨i, rest, hdec⟩ := decode_of_enough henough
  exact ⟨i, rest, hdec, decode_wf hdec, encode_of_decode hslot hdec, decode_rest hdec⟩

/-- Settles O5: each word evaluated. -/
theorem specWordsDecode : Obligations.SpecWordsDecode :=
  ⟨rfl, rfl, rfl, rfl, rfl, rfl, rfl, rfl, rfl, rfl, rfl⟩

/-! ### Packing and unpacking a pair -/

/-- A pair in range is 16 bits (R98). -/
theorem packPair_le {o l : Nat} (ho : o ≤ 2047) (h34 : l ≤ 34) : packPair o l ≤ 0xFFFF := by
  rw [packPair_eq_add ho]; omega

/-- The two bytes of a 16-bit pair, low byte first (R98). -/
theorem bytes16_eq_of_le {pair : Nat} (h : pair ≤ 0xFFFF) :
    bytes16 pair = [BitVec.ofNat 8 (pair % 256), BitVec.ofNat 8 (pair / 256)] := by
  have hhigh : pair / 256 % 256 = pair / 256 := Nat.mod_eq_of_lt (by omega)
  simp only [bytes16_eq_lowBytes, lowBytes, hhigh]

/-- Settles O3: the fields of the sum, the fields of two bytes, and the fields of every 16-bit pair packed again. -/
theorem unpackUndoesPack : Obligations.UnpackUndoesPack := by
  refine ⟨fun o l ho h3 h34 => ?_, fun b0 b1 => ?_, fun pair hpair => ?_⟩
  · have hle := packPair_le ho h34
    refine ⟨packPair_eq_add ho, hle, pairOffset_packPair ho, pairLength_packPair ho h3, ?_⟩
    rw [encode, bytes16_eq_of_le hle]
  · simp only [decode, pairOffset_eq_mod, pairLength_eq_div, le16]
  · obtain ⟨h3, h34⟩ := pairLength_range (Nat.lt_succ_of_le hpair)
    exact ⟨pairOffset_eq_mod pair, pairLength_eq_div pair, h3, h34, packPair_unpack pair⟩

end Sys2Proof.Machine

/-! PROOFS. The functions of the format (30_encoding.md R97, R101, R102, R108; 42_decoder.md R191): the decoder's loops turn by
turn, what they accept is the grammar, and what they leave unread does not matter. -/

namespace Sys2Proof.Machine

open Sys2Proof

theorem decompress_eq_ok {C X : List Byte} : decompress C = .ok X ↔ ∃ rest, decompressRest C = .ok (rest, X) := by
  unfold decompress
  cases decompressRest C <;> simp [Except.map, Prod.ext_iff]

/-- Settles O45: the decoder follows the parse token by token (`decompressRest_validParse`). -/
theorem validParseDecodes : Obligations.ValidParseDecodes :=
  fun _ _ hX hv => decompress_eq_ok.mpr ⟨[], decompressRest_validParse hX hv⟩

/-! ### One turn of the inner loop -/

/-- Once the output is complete, no bit and no byte is looked at (R101). -/
theorem decodeTokens_complete {n : Nat} {out : List Byte} (h : n ≤ out.length) (c : Byte) (k bit : Nat) (rest : List Byte) :
    decodeTokens n c k bit rest out = .ok (rest, out) := by
  cases k with
  | zero => rfl
  | succ k => unfold decodeTokens; exact if_neg (Nat.not_lt.mpr h)

theorem decodeTokens_literal {n bit : Nat} {c : Byte} {out : List Byte} (hlt : out.length < n)
    (hbit : ctrlBit c bit = false) (k : Nat) (b : Byte) (rest : List Byte) :
    decodeTokens n c (k + 1) bit (b :: rest) out = decodeTokens n c k (bit + 1) rest (out ++ [b]) := by
  simp [decodeTokens, hlt, hbit]

theorem decodeTokens_pair {n bit : Nat} {c b0 b1 : Byte} {out : List Byte} (hlt : out.length < n)
    (hbit : ctrlBit c bit = true)
    (hlegal : pairError n out.length (pairOffset (le16 b0 b1)) (pairLength (le16 b0 b1)) = none)
    (k : Nat) (rest : List Byte) :
    decodeTokens n c (k + 1) bit (b0 :: b1 :: rest) out =
      decodeTokens n c k (bit + 1) rest
        (copyMatch (pairLength (le16 b0 b1)) (winStart out.length + pairOffset (le16 b0 b1)) out) := by
  simp [decodeTokens, hlt, hbit, hlegal]

/-- What a turn of the inner loop did, from its success (R191). -/
theorem decodeTokens_ok {n k bit : Nat} {c : Byte} {rest out : List Byte} {r : List Byte × List Byte}
    (h : decodeTokens n c (k + 1) bit rest out = .ok r) :
    (n ≤ out.length ∧ r = (rest, out)) ∨
      (out.length < n ∧ ctrlBit c bit = false ∧ ∃ b rest', rest = b :: rest' ∧
        decodeTokens n c k (bit + 1) rest' (out ++ [b]) = .ok r) ∨
      (out.length < n ∧ ctrlBit c bit = true ∧ ∃ b0 b1 rest', rest = b0 :: b1 :: rest' ∧
        pairError n out.length (pairOffset (le16 b0 b1)) (pairLength (le16 b0 b1)) = none ∧
        decodeTokens n c k (bit + 1) rest'
          (copyMatch (pairLength (le16 b0 b1)) (winStart out.length + pairOffset (le16 b0 b1)) out) = .ok r) := by
  unfold decodeTokens at h
  split at h
  · rename_i hlt
    split at h
    · rename_i hbit
      split at h
      · rename_i b0 b1 rest'
        dsimp only at h
        split at h
        · cases h
        · exact .inr (.inr ⟨hlt, hbit, b0, b1, rest', rfl, ‹_›, h⟩)
      · cases h
    · rename_i hbit
      split at h
      · rename_i b rest'
        exact .inr (.inl ⟨hlt, Bool.eq_false_of_not_eq_true hbit, b, rest', rfl, h⟩)
      · cases h
  · rename_i hn
    cases h
    exact .inl ⟨Nat.not_lt.mp hn, rfl⟩

/-- What a turn of the outer loop did, from its success (R191). -/
theorem decodeBlocks_ok {n fuel : Nat} {rest out : List Byte} {r : List Byte × List Byte}
    (h : decodeBlocks n fuel rest out = .ok r) :
    (n ≤ out.length ∧ r = (rest, out)) ∨
      (out.length < n ∧ ∃ f c rest' mid, fuel = f + 1 ∧ rest = c :: rest' ∧
        decodeTokens n c 8 0 rest' out = .ok mid ∧ decodeBlocks n f mid.1 mid.2 = .ok r) := by
  by_cases hlt : out.length < n
  · cases fuel with
    | zero => rw [decodeBlocks, if_pos hlt] at h; cases h
    | succ f =>
      unfold decodeBlocks at h
      rw [if_pos hlt] at h
      split at h
      · cases h
      · rename_i c rest'
        split at h
        · cases h
        · exact .inr ⟨hlt, f, c, rest', _, rfl, rfl, ‹_›, h⟩
  · rw [decodeBlocks_complete (Nat.not_lt.mp hlt)] at h
    cases h
    exact .inl ⟨Nat.not_lt.mp hlt, rfl⟩

theorem decodeBlocks_block {n : Nat} {c : Byte} {rest out rest' out' : List Byte} (hlt : out.length < n)
    (h : decodeTokens n c 8 0 rest out = .ok (rest', out')) (fuel : Nat) :
    decodeBlocks n (fuel + 1) (c :: rest) out = decodeBlocks n fuel rest' out' := by
  simp only [decodeBlocks, if_pos hlt, h]

/-! ### Unused control bits -/

/-- The inner loop looks at no other bits than those of its turns. -/
theorem decodeTokens_congr {n k bit : Nat} {c c' : Byte} (hc : ∀ i, i < k → ctrlBit c (bit + i) = ctrlBit c' (bit + i))
    (rest out : List Byte) : decodeTokens n c k bit rest out = decodeTokens n c' k bit rest out := by
  induction k generalizing bit rest out with
  | zero => rfl
  | succ k ih =>
    have hbit : ctrlBit c bit = ctrlBit c' bit := hc 0 (Nat.succ_pos k)
    have hnext : ∀ rest out, decodeTokens n c k (bit + 1) rest out = decodeTokens n c' k (bit + 1) rest out :=
      ih fun i hi => by simpa only [Nat.add_assoc, Nat.add_comm 1] using hc (i + 1) (Nat.succ_lt_succ hi)
    simp only [decodeTokens, hbit, hnext]

/-- Turns left when the output is complete change nothing. -/
theorem decodeTokens_more_turns {n t m bit : Nat} {c : Byte} {input out rest X : List Byte}
    (h : decodeTokens n c t bit input out = .ok (rest, X)) (hX : n ≤ X.length) (hm : t ≤ m) :
    decodeTokens n c m bit input out = .ok (rest, X) := by
  induction t generalizing m bit input out with
  | zero =>
    cases h
    exact decodeTokens_complete hX c m bit _
  | succ t ih =>
    obtain ⟨m, rfl⟩ : ∃ m', m = m' + 1 := ⟨m - 1, by omega⟩
    have hm' : t ≤ m := Nat.le_of_succ_le_succ hm
    rcases decodeTokens_ok h with ⟨hn, heq⟩ | ⟨hlt, hbit, b, rest', rfl, hnext⟩ |
      ⟨hlt, hbit, b0, b1, rest', rfl, hlegal, hnext⟩
    · rw [heq]
      exact decodeTokens_complete hn c (m + 1) bit input
    · rw [decodeTokens_literal hlt hbit]
      exact ih hnext hm'
    · rw [decodeTokens_pair hlt hbit hlegal]
      exact ih hnext hm'

/-- Settles O49: the first `t` turns look at `t` bits, and with the output complete the other turns look at none. -/
theorem unusedControlBitsIgnored : Obligations.UnusedControlBitsIgnored := by
  intro n t c c' input rest out X ht hc h hX
  have hcongr := decodeTokens_congr (n := n) (k := t) (bit := 0) (by simpa only [Nat.zero_add] using hc) input out
  exact decodeTokens_more_turns (hcongr ▸ h) hX ht

/-! ### What the decoder accepts is the grammar -/

theorem length_copyMatch_le (k q : Nat) (out : List Byte) : (copyMatch k q out).length ≤ out.length + k := by
  induction k generalizing q out with
  | zero => exact Nat.le_refl _
  | succ k ih =>
    rw [copyMatch]
    split
    · exact Nat.le_add_right _ _
    · rename_i b _
      have hrest := ih (q + 1) (out ++ [b])
      rw [List.length_append, List.length_singleton] at hrest
      omega

/-- The copy of a legal pair ends within the output (R104 (c)). -/
theorem length_copyMatch_of_legal {n o l : Nat} {out : List Byte} (h : pairError n out.length o l = none) (q : Nat) :
    (copyMatch l q out).length ≤ n := by
  have hle := length_copyMatch_le l q out
  unfold pairError at h
  split at h
  · cases h
  · omega

/-- A block that decodes stays within the output, and whatever `blocks` follows it continues it to `tokens` (R97). -/
theorem grammar_of_decodeTokens {n k bit : Nat} {c : Byte} {rest out rest' out' : List Byte} (hk : bit + k = 8)
    (hout : out.length ≤ n) (h : decodeTokens n c k bit rest out = .ok (rest', out')) :
    out'.length ≤ n ∧ ∀ fin, Grammar n none out' rest' fin → Grammar n (some (c, bit)) out rest fin := by
  induction k generalizing bit rest out with
  | zero =>
    cases h
    exact ⟨hout, fun _ hg => .leave (.inl hk) hg⟩
  | succ k ih =>
    have hbit8 : bit < 8 := by omega
    rcases decodeTokens_ok h with ⟨hn, heq⟩ | ⟨hlt, hbit, b, rest1, rfl, hnext⟩ |
      ⟨hlt, hbit, b0, b1, rest1, rfl, hlegal, hnext⟩
    · cases heq
      exact ⟨hout, fun _ hg => .leave (.inr (Nat.le_antisymm hout hn)) hg⟩
    · obtain ⟨hle, hg⟩ := ih (by omega) (by simpa using hlt) hnext
      exact ⟨hle, fun fin hfin => .literal hbit8 hlt hbit (hg fin hfin)⟩
    · have hcopy := length_copyMatch_of_legal hlegal (winStart out.length + pairOffset (le16 b0 b1))
      obtain ⟨hle, hg⟩ := ih (by omega) hcopy hnext
      exact ⟨hle, fun fin hfin => .pair hbit8 hlt hbit hlegal (hg fin hfin)⟩

theorem grammar_of_decodeBlocks {n fuel : Nat} {rest out rest' fin : List Byte} (hout : out.length ≤ n)
    (h : decodeBlocks n fuel rest out = .ok (rest', fin)) : Grammar n none out rest fin := by
  induction fuel generalizing rest out with
  | zero =>
    rcases decodeBlocks_ok h with ⟨hn, heq⟩ | ⟨-, f, -, -, -, hf, -⟩
    · cases heq
      exact .stop (Nat.le_antisymm hout hn)
    · cases hf
  | succ fuel ih =>
    rcases decodeBlocks_ok h with ⟨hn, heq⟩ | ⟨hlt, f, c, rest1, ⟨rest2, out2⟩, hf, rfl, htokens, hblocks⟩
    · cases heq
      exact .stop (Nat.le_antisymm hout hn)
    · cases hf
      obtain ⟨hle, hg⟩ := grammar_of_decodeTokens (Nat.zero_add 8) hout htokens
      exact .block hlt (hg fin (ih hle hblocks))

/-- At a block boundary the outer loop ends with `fin`. -/
abbrev DecodesBlocks (n : Nat) (out rest fin : List Byte) : Prop :=
  ∀ fuel, rest.length ≤ fuel → ∃ left, decodeBlocks n fuel rest out = .ok (left, fin)

/-- Before token `i` of a block the inner loop ends, and where it ends the outer loop ends with `fin`. -/
abbrev DecodesTokens (n : Nat) (c : Byte) (i : Nat) (out rest fin : List Byte) : Prop :=
  ∃ rest' out', decodeTokens n c (8 - i) i rest out = .ok (rest', out') ∧ rest'.length ≤ rest.length ∧
    DecodesBlocks n out' rest' fin

/-- What the decoder does at a place of the grammar. -/
abbrev DecodesAt (n : Nat) : Option (Byte × Nat) → List Byte → List Byte → List Byte → Prop
  | none => DecodesBlocks n
  | some (c, i) => DecodesTokens n c i

theorem decodesTokens_of_turn {n i : Nat} {c : Byte} {out out1 rest rest1 fin : List Byte} (hi : i < 8)
    (hturn : ∀ k, decodeTokens n c (k + 1) i rest out = decodeTokens n c k (i + 1) rest1 out1)
    (hlen : rest1.length ≤ rest.length) (h : DecodesTokens n c (i + 1) out1 rest1 fin) : DecodesTokens n c i out rest fin := by
  obtain ⟨rest', out', htokens, hle, hblocks⟩ := h
  refine ⟨rest', out', ?_, Nat.le_trans hle hlen, hblocks⟩
  rw [show 8 - i = 8 - (i + 1) + 1 by omega, hturn]
  exact htokens

theorem Grammar.decodesAt {n : Nat} {place : Option (Byte × Nat)} {out rest fin : List Byte}
    (h : Grammar n place out rest fin) : DecodesAt n place out rest fin := by
  induction h with
  | stop hn => exact fun _ _ => ⟨_, decodeBlocks_complete (Nat.le_of_eq hn.symm)⟩
  | block hlt _ ih =>
    intro fuel hfuel
    obtain ⟨rest', out', htokens, hle, hblocks⟩ := ih
    rw [List.length_cons] at hfuel
    obtain ⟨f, rfl⟩ : ∃ f, fuel = f + 1 := ⟨fuel - 1, by omega⟩
    rw [decodeBlocks_block hlt htokens]
    exact hblocks f (by omega)
  | leave hend _ ih =>
    refine ⟨_, _, ?_, Nat.le_refl _, ih⟩
    rcases hend with rfl | hn
    · rfl
    · exact decodeTokens_complete (Nat.le_of_eq hn.symm) _ _ _ _
  | literal hi hlt hbit _ ih =>
    exact decodesTokens_of_turn hi (fun k => decodeTokens_literal hlt hbit k _ _) (Nat.le_succ _) ih
  | pair hi hlt hbit hlegal _ ih =>
    exact decodesTokens_of_turn hi (fun k => decodeTokens_pair hlt hbit hlegal k _) (Nat.le_add_right _ 2) ih

/-- Settles O44: a successful run of the loops is a derivation in the grammar, and the loops follow a derivation. -/
theorem decompressIffGrammar : Obligations.DecompressIffGrammar := by
  intro C X
  rw [decompress_eq_ok]
  constructor
  · rintro ⟨left, h⟩
    unfold decompressRest at h
    split at h
    · exact ⟨_, _, _, _, _, rfl, grammar_of_decodeBlocks (Nat.zero_le _) h⟩
    · cases h
  · rintro ⟨b0, b1, b2, b3, rest, rfl, hg⟩
    exact hg.decodesAt rest.length (Nat.le_refl _)

/-! ### Trailing bytes -/

/-- The grammar ignores what follows the last element (R97, R102). -/
theorem Grammar.append {n : Nat} {place : Option (Byte × Nat)} {out rest fin : List Byte} (T : List Byte)
    (h : Grammar n place out rest fin) : Grammar n place out (rest ++ T) fin := by
  induction h with
  | stop hn => exact .stop hn
  | block hlt _ ih => exact .block hlt ih
  | leave hend _ ih => exact .leave hend ih
  | literal hi hlt hbit _ ih => exact .literal hi hlt hbit ih
  | pair hi hlt hbit hlegal _ ih => exact .pair hi hlt hbit hlegal ih

/-- Settles O48: through the grammar, whose rules take no byte after the last element. -/
theorem trailingBytesIgnored : Obligations.TrailingBytesIgnored := by
  intro C X T h
  obtain ⟨b0, b1, b2, b3, rest, rfl, hg⟩ := (decompressIffGrammar C X).mp h
  exact (decompressIffGrammar _ X).mpr ⟨b0, b1, b2, b3, rest ++ T, rfl, hg.append T⟩

end Sys2Proof.Machine

/-! PROOFS. The stream elements as instructions (30_encoding.md R91 to R94, R96, R109): what each does in the phase that takes it
and in the phase that puts it, and that the engine's step is the meaning of the element it takes or puts. -/

namespace Sys2Proof.Machine

open Sys2Proof

/-! ### The meaning of an element by phase -/

theorem execHeader_of_dHeader (n : Nat) {s : State} (h : s.ph = .dHeader) :
    execHeader n s = if s.m < 4 then .next (enterError .header s) else .next (takeHeader n s) := by
  rw [execHeader, h]

theorem execHeader_of_cHeader (n : Nat) {s : State} (h : s.ph = .cHeader) : execHeader n s = .next (putHeader n s) := by
  rw [execHeader, h]

theorem execControl_of_dCtrl (c : Byte) {s : State} (h : s.ph = .dCtrl) (hop : s.op ≠ s.n) :
    execControl c s = if s.m ≤ s.ip then .next (enterError .exhausted s) else .next (takeControl c s) := by
  simp only [execControl, h, if_neg hop]

theorem execControl_of_cClose (c : Byte) {s : State} (h : s.ph = .cClose) : execControl c s = putControl c s := by
  rw [execControl, h]

theorem execLiteral_of_dToken (b : Byte) {s : State} (h : s.ph = .dToken)
    (hg : s.bit < 8 ∧ s.op < s.n ∧ ctrlBit s.ctrl s.bit = false) :
    execLiteral b s = if s.m ≤ s.ip then .next (enterError .exhausted s) else takeLiteral b s := by
  simp only [execLiteral, h, if_pos hg]

theorem execLiteral_of_cEmit (b : Byte) {s : State} (h : s.ph = .cEmit) (hf : s.found = false) :
    execLiteral b s = putLiteral b s := by
  simp [execLiteral, h, hf]

theorem execMatchPair_of_dToken (o l : Nat) {s : State} (h : s.ph = .dToken)
    (hg : s.bit < 8 ∧ s.op < s.n ∧ ctrlBit s.ctrl s.bit = true) :
    execMatchPair o l s =
      if s.m - s.ip < 2 then .next (enterError .exhausted s) else .next (takePair o l s) := by
  simp only [execMatchPair, h, if_pos hg]

theorem execMatchPair_of_cEmit (o l : Nat) {s : State} (h : s.ph = .cEmit) (hf : s.found = true) :
    execMatchPair o l s = putPair o l s := by
  simp [execMatchPair, h, hf]

/-! ### The element at the decoder's cursor -/

theorem readerSlot_some {s : State} {slot : Slot} (h : readerSlot s = some slot) :
    (slot = .header ∧ s.ph = .dHeader) ∨ (slot = .control ∧ s.ph = .dCtrl ∧ s.op ≠ s.n) ∨
      (slot = .literal ∧ s.ph = .dToken ∧ s.bit < 8 ∧ s.op < s.n ∧ ctrlBit s.ctrl s.bit = false) ∨
      (slot = .pair ∧ s.ph = .dToken ∧ s.bit < 8 ∧ s.op < s.n ∧ ctrlBit s.ctrl s.bit = true) := by
  unfold readerSlot at h
  split at h
  · cases h; simp_all
  · split at h
    · cases h
    · cases h; simp_all
  · split at h
    · split at h <;> cases h <;> simp_all
    · cases h
  · cases h

/-- The element at the cursor is decoded from bytes of `SRC[0:M]`, all of them (R96). -/
theorem elementAt_some {s : State} {i : Instr} (h : elementAt s = some i) :
    ∃ slot bytes, readerSlot s = some slot ∧ readerAddress s + slot.width ≤ s.m ∧
      s.src.range (readerAddress s) slot.width = some bytes ∧ decode slot bytes = .ok (i, []) := by
  unfold elementAt at h
  split at h
  · cases h
  · rename_i slot hslot
    split at h
    · rename_i hm
      split at h
      · cases h
      · rename_i bytes hbytes
        split at h
        · rename_i j rest hdec
          cases h
          have hlen := (Memory.range_eq_some.mp hbytes).1
          have hrest : rest = [] := (decode_rest hdec).trans (by rw [← hlen, List.drop_length])
          exact ⟨slot, bytes, hslot, hm, hbytes, hrest ▸ hdec⟩
        · cases h
    · cases h

theorem memRead_of_range {m : Memory} {a k : Nat} {bytes : List Byte} (h : m.range a k = some bytes) :
    memRead m a k = some (littleEndian bytes) := by
  rw [memRead, h, Option.map_some]

theorem range_one {m : Memory} {a : Nat} {b : Byte} (h : m.range a 1 = some [b]) : m.read a = some b := by
  simpa using (Memory.range_eq_some.mp h).2 0 Nat.one_pos

theorem dHeader_takes {s : State} {b0 b1 b2 b3 : Byte} (hph : s.ph = .dHeader)
    (h : s.src.range 0 4 = some [b0, b1, b2, b3]) : execDHeader s = execHeader (le32 b0 b1 b2 b3) s := by
  rw [execDHeader, if_pos hph, memRead_of_range h, littleEndian_four, execHeader_of_dHeader _ hph]

theorem dCtrl_takes {s : State} {c : Byte} (hph : s.ph = .dCtrl) (hop : s.op ≠ s.n)
    (h : s.src.read s.ip = some c) : execDCtrl s = execControl c s := by
  rw [execDCtrl, if_pos hph, if_neg hop, h, execControl_of_dCtrl c hph hop]

theorem dLit_takes {s : State} {b : Byte} (hph : s.ph = .dToken)
    (hg : s.bit < 8 ∧ s.op < s.n ∧ ctrlBit s.ctrl s.bit = false) (h : s.src.read s.ip = some b) :
    execDLit s = execLiteral b s := by
  rw [execDLit, if_pos ⟨hph, hg⟩, h, execLiteral_of_dToken b hph hg]

theorem dPair_takes {s : State} {b0 b1 : Byte} (hph : s.ph = .dToken)
    (hg : s.bit < 8 ∧ s.op < s.n ∧ ctrlBit s.ctrl s.bit = true) (h : s.src.range s.ip 2 = some [b0, b1]) :
    execDPair s = execMatchPair (pairOffset (le16 b0 b1)) (pairLength (le16 b0 b1)) s := by
  rw [execDPair, if_pos ⟨hph, hg⟩, memRead_of_range h, littleEndian_two, execMatchPair_of_dToken _ _ hph hg]

theorem readerAddress_of_dHeader {s : State} (h : s.ph = .dHeader) : readerAddress s = 0 := if_pos h

theorem readerAddress_of_ne {s : State} (h : s.ph ≠ .dHeader) : readerAddress s = s.ip := if_neg h

theorem selectOp_of_dToken {s : State} (hph : s.ph = .dToken) (hbit : s.bit < 8) (hop : s.op < s.n) :
    selectOp s = if ctrlBit s.ctrl s.bit then some .dPair else some .dLit := by
  have hend : ¬ (s.bit = 8 ∨ s.op = s.n) := by omega
  simp only [selectOp, hph, if_neg hend, if_pos (And.intro hbit hop)]

/-- The engine's step takes the element at the decoder's cursor (R96, R109). -/
theorem engineStep_of_elementAt {s : State} {i : Instr} (h : elementAt s = some i) : engineStep s = exec i s := by
  obtain ⟨slot, bytes, hslot, -, hbytes, hdec⟩ := elementAt_some h
  rcases readerSlot_some hslot with ⟨rfl, hph⟩ | ⟨rfl, hph, hop⟩ | ⟨rfl, hph, hbit, hop, hctrl⟩ |
    ⟨rfl, hph, hbit, hop, hctrl⟩
  · obtain ⟨b0, b1, b2, b3, rfl, rfl⟩ := decode_header_ok hdec
    rw [readerAddress_of_dHeader hph] at hbytes
    rw [engineStep_of_selectOp (i := .dHeader) (by rw [selectOp, hph])]
    exact dHeader_takes hph hbytes
  · obtain ⟨c, rfl, rfl⟩ := decode_control_ok hdec
    rw [readerAddress_of_ne (by rw [hph]; decide)] at hbytes
    rw [engineStep_of_selectOp (i := .dCtrl) (by rw [selectOp, hph])]
    exact dCtrl_takes hph hop (range_one hbytes)
  · obtain ⟨b, rfl, rfl⟩ := decode_literal_ok hdec
    rw [readerAddress_of_ne (by rw [hph]; decide)] at hbytes
    rw [engineStep_of_selectOp (i := .dLit) ((selectOp_of_dToken hph hbit hop).trans (by simp [hctrl]))]
    exact dLit_takes hph ⟨hbit, hop, hctrl⟩ (range_one hbytes)
  · obtain ⟨b0, b1, rfl, rfl⟩ := decode_pair_ok hdec
    rw [readerAddress_of_ne (by rw [hph]; decide)] at hbytes
    rw [engineStep_of_selectOp ((selectOp_of_dToken hph hbit hop).trans (if_pos hctrl))]
    exact dPair_takes hph ⟨hbit, hop, hctrl⟩ hbytes

theorem elementAt_popHost (s : State) : elementAt (popHost s) = elementAt s := rfl

/-- Settles O7: by the place of the cursor, the micro-operation reads the bytes the element was decoded from. -/
theorem stepRunsDecodedElement : Obligations.StepRunsDecodedElement := by
  intro s i h
  obtain ⟨_, _, -, -, -, hdec⟩ := elementAt_some h
  refine ⟨decode_wf hdec, engineStep_of_elementAt h, fun hturn => ?_⟩
  rw [step_of_engineTurn hturn]
  exact engineStep_of_elementAt ((elementAt_popHost s).trans h)

/-! ### The element the encoder puts -/

theorem elementPut_some {s : State} {i : Instr} (h : elementPut s = some i) :
    (i = .header s.n ∧ s.ph = .cHeader) ∨ (i = .matchPair s.boff s.blen ∧ s.ph = .cEmit ∧ s.found = true) ∨
      (s.ph = .cEmit ∧ s.found = false ∧ ∃ b, s.src.read s.r = some b ∧ i = .literal b) ∨
      (i = .control s.ctrl ∧ s.ph = .cClose) := by
  unfold elementPut at h
  split at h
  · cases h; simp_all
  · split at h
    · cases h; simp_all
    · obtain ⟨b, hb, rfl⟩ := Option.map_eq_some_iff.mp h
      simp_all
  · cases h; simp_all
  · cases h

/-- The engine's step puts the element that the registers give (R109). -/
theorem engineStep_of_elementPut {s : State} {i : Instr} (h : elementPut s = some i) : engineStep s = exec i s := by
  rcases elementPut_some h with ⟨rfl, hph⟩ | ⟨rfl, hph, hf⟩ | ⟨hph, hf, b, hb, rfl⟩ | ⟨rfl, hph⟩
  · rw [engineStep_of_selectOp (i := .eHeader) (by rw [selectOp, hph]), exec_eHeader, execEHeader, if_pos hph,
      exec_header, execHeader_of_cHeader _ hph]
  · rw [engineStep_of_selectOp (i := .eMatch) (by simp [selectOp, hph, hf]), exec_eMatch, execEMatch,
      if_pos ⟨hph, hf⟩, exec_matchPair, execMatchPair_of_cEmit _ _ hph hf]
  · rw [engineStep_of_selectOp (i := .eLit) (by simp [selectOp, hph, hf]), exec_eLit, execELit, if_pos ⟨hph, hf⟩, hb,
      exec_literal, execLiteral_of_cEmit b hph hf]
  · rw [engineStep_of_selectOp (i := .eClose) (by rw [selectOp, hph]), exec_eClose, execEClose, if_pos hph,
      exec_control, execControl_of_cClose _ hph]

theorem elementPut_popHost (s : State) : elementPut (popHost s) = elementPut s := rfl

/-- Settles O8: by the phase, the micro-operation and the element put the same bytes. -/
theorem stepPutsProducedElement : Obligations.StepPutsProducedElement := by
  refine fun s i h => ⟨engineStep_of_elementPut h, fun hturn => ?_⟩
  rw [step_of_engineTurn hturn]
  exact engineStep_of_elementPut ((elementPut_popHost s).trans h)

/-! ### Elements taken and put -/

/-- Byte `j` of the low bytes of `w` has weight `256 ^ j` (R12, R64). -/
theorem lowBytes_getElem? {k j : Nat} (w : Nat) (h : j < k) :
    (lowBytes k w)[j]? = some (BitVec.ofNat 8 (w / 256 ^ j)) := by
  induction k generalizing j w with
  | zero => omega
  | succ k ih =>
    cases j with
    | zero =>
      have hbyte : BitVec.ofNat 8 (w % 256) = BitVec.ofNat 8 w := BitVec.eq_of_toNat_eq (by simp)
      simp [lowBytes, hbyte]
    | succ j =>
      rw [lowBytes, List.getElem?_cons_succ, ih _ (Nat.lt_of_succ_lt_succ h), Nat.div_div_eq_div_mul, Nat.pow_succ']

/-- Settles O50: the header's registers, or its four bytes at `DST_LEN`. -/
theorem headerElementTakenOrPut : Obligations.HeaderElementTakenOrPut := by
  refine ⟨fun n s hph hm hn => ?_, fun n s hph hcap => ?_⟩
  · rw [exec_header, execHeader_of_dHeader n hph, if_neg (Nat.not_lt.mpr hm), takeHeader_eq, if_neg (Nat.not_lt.mpr hn)]
  · refine ⟨s.dst.writeAll s.dstLen (bytes32 n), ?_, fun k hk => ?_, fun a ha => ?_⟩
    · rw [exec_header, execHeader_of_cHeader n hph, putHeader_eq, if_neg (Nat.not_lt.mpr hcap)]
    · rw [Memory.read_writeAll_inside _ _ _ _ hk, bytes32_eq_lowBytes, lowBytes_getElem? n hk]
    · exact Memory.read_writeAll_outside _ _ ha

/-- Settles O51: the control byte's registers, or the control byte and the payload behind it at `DST_LEN`. -/
theorem controlElementTakenOrPut : Obligations.ControlElementTakenOrPut := by
  refine ⟨fun c s hph hop hip => ?_, fun c s hph hplen hcap => ?_⟩
  · rw [exec_control, execControl_of_dCtrl c hph hop, if_neg (Nat.not_le.mpr hip), takeControl]
  · have hlen : (s.pbuf.toList.take s.plen).length = s.plen := by simpa using hplen
    refine ⟨s.dst.writeAll s.dstLen (c :: s.pbuf.toList.take s.plen), ?_, ?_, fun k hk => ?_, fun a ha => ?_⟩
    · rw [exec_control, execControl_of_cClose c hph, putControl_of_le c hcap hplen, Nat.add_assoc]
    · exact Memory.read_writeAll_inside s.dst s.dstLen 0 _ (Nat.succ_pos _)
    · rw [Nat.add_assoc, Nat.add_comm 1, Memory.read_writeAll_inside _ _ _ _ (by simp [hlen, hk])]
      simp [List.getElem?_take_of_lt hk]
    · exact Memory.read_writeAll_outside _ _ (by rw [List.length_cons, hlen]; omega)

/-- Settles O52: the literal's byte in `DST` at `OP`, or in `PBUF` at `PLEN`. -/
theorem literalElementTakenOrPut : Obligations.LiteralElementTakenOrPut := by
  refine ⟨fun b s hph hbit hop hctrl hip hcap => ?_, fun b s hph hf hplen => ?_⟩
  · refine ⟨s.dst.write s.op b, ?_, Memory.read_write_same s.dst s.op b, fun a ha => Memory.read_write_ne s.dst b ha⟩
    rw [exec_literal, execLiteral_of_dToken b hph ⟨hbit, hop, hctrl⟩, if_neg (Nat.not_le.mpr hip), takeLiteral,
      storeDst_of_lt b _ hcap]
  · refine ⟨s.pbuf.set s.plen b hplen, ?_, by simp, fun k hk => Vector.getElem?_set_ne _ (Ne.symm hk)⟩
    rw [exec_literal, execLiteral_of_cEmit b hph hf, putLiteral_of_lt b hplen, tokenPut_eq]

/-- The low byte of a packed pair is that of its offset (R98). -/
theorem packPair_low_byte {o l : Nat} (ho : o ≤ 2047) : BitVec.ofNat 8 (packPair o l &&& 0xFF) = BitVec.ofNat 8 o := by
  apply BitVec.eq_of_toNat_eq
  rw [and_low_byte, packPair_eq_add ho, BitVec.toNat_ofNat, BitVec.toNat_ofNat]
  omega

/-- The high byte of a packed pair: the offset's high bits and the length's field (R98). -/
theorem packPair_high_byte {o l : Nat} (ho : o ≤ 2047) : packPair o l >>> 8 = o / 256 + 8 * (l - 3) := by
  rw [packPair_eq_add ho, Nat.shiftRight_eq_div_pow]
  omega

/-- Settles O53: the pair's registers when it passes the three checks, or its control bit and its two bytes in `PBUF`. -/
theorem matchElementTakenOrPut : Obligations.MatchElementTakenOrPut := by
  refine ⟨fun o l s hph hbit hop hctrl hip hdst hsrc hwin => ?_, fun o l s hph hf htok hplen ho h3 h34 => ?_⟩
  · have hlegal : checkPair { s with ip := s.ip + 2, off := o, len := l, ws := winStart s.op } = none :=
      checkPair_eq_none.mpr ⟨hdst, hsrc, hwin⟩
    rw [exec_matchPair, execMatchPair_of_dToken o l hph ⟨hbit, hop, hctrl⟩, if_neg (by omega), takePair_eq, hlegal]
    rfl
  · have hput := putPair_of_lt o l hplen
    rw [packPair_low_byte ho, packPair_high_byte ho, tokenPut_eq] at hput
    refine ⟨(s.pbuf.set s.plen (BitVec.ofNat 8 o)).set (s.plen + 1) (BitVec.ofNat 8 (o / 256 + 8 * (l - 3))),
      setCtrlBit s.ctrl s.tok, ?_, fun k => ctrlBit_setCtrlBit s.ctrl k htok, ?_, ?_, fun k hk hk1 => ?_⟩
    · rw [exec_matchPair, execMatchPair_of_cEmit o l hph hf, hput]
    · rw [Vector.getElem?_set_ne _ (Nat.succ_ne_self s.plen), Vector.getElem?_set_self]
    · rw [Vector.getElem?_set_self]
    · rw [Vector.getElem?_set_ne _ (Ne.symm hk1), Vector.getElem?_set_ne _ (Ne.symm hk)]

end Sys2Proof.Machine

/-! PROOFS. The Matcher: byte strings and their occurrences (00_scope.md R10, R13), what `FindMatch` answers (40_matcher.md R126,
R127, R131), the three micro-operations (R121, R122, R124), and the engine's run from M_START to C_EMIT (R126, R129). -/

namespace Sys2Proof.Machine

open Sys2Proof

/-! ### Strings and occurrences -/

theorem slice_add (S : List Byte) (a k : Nat) : slice S a (a + k) = (S.drop a).take k := by
  rw [slice, Nat.add_sub_cancel_left]

theorem length_slice {S : List Byte} {a b : Nat} (h : b ≤ S.length) : (slice S a b).length = b - a := by
  simp only [slice, List.length_take, List.length_drop]; omega

theorem getElem?_slice {S : List Byte} {a b k : Nat} (h : k < b - a) : (slice S a b)[k]? = S[a + k]? := by
  rw [slice, List.getElem?_take_of_lt h, List.getElem?_drop]

theorem slice_prefix_slice (S : List Byte) (a : Nat) {k l : Nat} (h : k ≤ l) : slice S a (a + k) <+: slice S a (a + l) := by
  rw [slice_add, slice_add]; exact List.take_prefix_take_left h

/-- An occurrence, position by position, is a prefix of what stands there (R13). -/
theorem occursIn_iff {w p : List Byte} {j : Nat} : OccursIn w p j ↔ p <+: w.drop j ∧ j + p.length ≤ w.length := by
  simp only [OccursIn, List.prefix_iff_getElem?, List.getElem?_drop]
  constructor
  · rintro ⟨hfits, heq⟩
    exact ⟨fun k hk => by rw [heq k hk, List.getElem?_eq_getElem hk], hfits⟩
  · rintro ⟨heq, hfits⟩
    exact ⟨hfits, fun k hk => by rw [heq k hk, List.getElem?_eq_getElem hk]⟩

/-- `Find` answers none exactly when the candidate occurs nowhere in the window (R13). -/
theorem find_eq_none_iff {w p : List Byte} : find w p = none ↔ ∀ j, ¬ OccursIn w p j := by
  constructor
  · intro h j hocc
    obtain ⟨hp, hfits⟩ := occursIn_iff.mp hocc
    exact find_none_spec h j hfits hp
  · intro h
    cases hj : find w p with
    | none => rfl
    | some j => exact absurd (occursIn_iff.mpr (find_some_spec hj)) (h j)

/-- `Find` answers the first occurrence (R13). -/
theorem find_eq_some_iff {w p : List Byte} {j : Nat} :
    find w p = some j ↔ OccursIn w p j ∧ ∀ k, k < j → ¬ OccursIn w p k := by
  constructor
  · intro h
    refine ⟨occursIn_iff.mpr (find_some_spec h), fun k hk hocc => ?_⟩
    obtain ⟨hp, hfits⟩ := occursIn_iff.mp hocc
    exact Nat.not_lt.mpr (find_le_of_occurs h hp hfits) hk
  · rintro ⟨hocc, hleft⟩
    obtain ⟨hp, hfits⟩ := occursIn_iff.mp hocc
    obtain ⟨i, hi, hij⟩ := find_least hp hfits
    have hnot : ¬ i < j := fun hlt => hleft i hlt (occursIn_iff.mpr (find_some_spec hi))
    rw [hi, Nat.le_antisymm hij (Nat.not_lt.mp hnot)]

/-- A window shorter than the candidate holds no occurrence (R13, R122). -/
theorem find_of_short {w p : List Byte} (h : w.length < p.length) : find w p = none :=
  find_eq_none_iff.mpr fun _ hocc => absurd hocc.1 (by omega)

/-- A candidate that does not occur does not occur with more bytes after it (R128). -/
theorem find_none_of_prefix {w p q : List Byte} (hpq : p <+: q) (h : find w p = none) : find w q = none := by
  refine find_eq_none_iff.mpr fun j hocc => ?_
  obtain ⟨hq, hfits⟩ := occursIn_iff.mp hocc
  exact find_none_spec h j (by have := hpq.length_le; omega) (hpq.trans hq)

/-! ### What FindMatch answers -/

/-- The window string before the cursor `r` (R8, R72). -/
abbrev windowAt (S : List Byte) (r : Nat) : List Byte := slice S (winStart r) r

/-- The candidate of `L` bytes at the cursor `r`. -/
abbrev candidateAt (S : List Byte) (r L : Nat) : List Byte := slice S r (r + L)

/-- R127 in terms of `Find`: the candidate of `l` bytes is first found at `o`, and no longer one up to the caps is found. -/
structure LongestMatch (S : List Byte) (r o l : Nat) : Prop where
  min : 3 ≤ l
  max : l ≤ 34
  fits : r + l ≤ S.length
  found : find (windowAt S r) (candidateAt S r l) = some o
  longest : ∀ L, l < L → L ≤ 34 → r + L ≤ S.length → find (windowAt S r) (candidateAt S r L) = none

/-- There is at most one longest match. -/
theorem LongestMatch.unique {S : List Byte} {r o o' l l' : Nat} (h : LongestMatch S r o l) (h' : LongestMatch S r o' l') :
    o = o' ∧ l = l' := by
  have hle : ¬ l < l' := fun hlt => by simpa [h.longest l' hlt h'.max h'.fits] using h'.found
  have hge : ¬ l' < l := fun hlt => by simpa [h'.longest l hlt h.max h.fits] using h.found
  obtain rfl : l = l' := by omega
  exact ⟨Option.some.inj (h.found.symm.trans h'.found), rfl⟩

/-- A match of any length shows that the candidate of three bytes is found (R128). -/
theorem LongestMatch.find_three {S : List Byte} {r o l : Nat} (h : LongestMatch S r o l) :
    find (windowAt S r) (candidateAt S r 3) ≠ none := fun hnone => by
  simpa [find_none_of_prefix (slice_prefix_slice S r h.min) hnone] using h.found

/-- The loop keeps the best so far when the next candidate is not found (R126). -/
theorem growMatch_of_none {S window : List Byte} {r L : Nat} (fuel : Nat) (best : Option (Nat × Nat))
    (h : find window (candidateAt S r L) = none) : growMatch S window r fuel L best = best := by
  cases fuel with
  | zero => rfl
  | succ fuel => rw [growMatch, h]

/-- One turn of the loop with the candidate found (R126). -/
theorem growMatch_of_some {S window : List Byte} {r L j : Nat} (fuel : Nat) (best : Option (Nat × Nat))
    (h : find window (candidateAt S r L) = some j) :
    growMatch S window r (fuel + 1) L best =
      if L = 34 ∨ r + L = S.length then some (j, L) else growMatch S window r fuel (L + 1) (some (j, L)) := by
  rw [growMatch, h]

/-- From a candidate that is found the loop reaches the longest match, whatever the best so far (R126, R127). -/
theorem growMatch_longest {S : List Byte} {r L j fuel : Nat} {best : Option (Nat × Nat)} (h3 : 3 ≤ L) (h34 : L ≤ 34)
    (hfits : r + L ≤ S.length) (hfuel : 34 < fuel + L) (hj : find (windowAt S r) (candidateAt S r L) = some j) :
    ∃ o l, growMatch S (windowAt S r) r fuel L best = some (o, l) ∧ LongestMatch S r o l := by
  induction fuel generalizing L j best with
  | zero => omega
  | succ fuel ih =>
    rw [growMatch_of_some fuel best hj]
    split
    · exact ⟨j, L, rfl, h3, h34, hfits, hj, fun L' hlt h34' hfits' => by omega⟩
    · cases hnext : find (windowAt S r) (candidateAt S r (L + 1)) with
      | none =>
        refine ⟨j, L, growMatch_of_none fuel _ hnext, h3, h34, hfits, hj, fun L' hlt _ _ => ?_⟩
        exact find_none_of_prefix (slice_prefix_slice S r hlt) hnext
      | some j' => exact ih (by omega) (by omega) (by omega) (by omega) hnext

/-- With three bytes left that are found, `FindMatch` answers the longest match (R126, R127). -/
theorem findMatch_longest {S : List Byte} {r : Nat} (hleft : ¬ S.length - r < 3)
    (h3 : find (windowAt S r) (candidateAt S r 3) ≠ none) : ∃ o l, findMatch S r = some (o, l) ∧ LongestMatch S r o l := by
  obtain ⟨j, hj⟩ := Option.ne_none_iff_exists'.mp h3
  rw [findMatch, if_neg hleft]
  exact growMatch_longest (by omega) (by omega) (by omega) (by omega) hj

/-- `FindMatch` answers NoMatch exactly when fewer than three bytes are left or three bytes are not found (R127). -/
theorem findMatch_eq_none_iff {S : List Byte} {r : Nat} :
    findMatch S r = none ↔ S.length - r < 3 ∨ find (windowAt S r) (candidateAt S r 3) = none := by
  constructor
  · intro h
    by_contra hnot
    obtain ⟨hleft, h3⟩ := not_or.mp hnot
    obtain ⟨o, l, hsome, -⟩ := findMatch_longest hleft h3
    cases h.symm.trans hsome
  · rintro (hshort | hnone)
    · rw [findMatch, if_pos hshort]
    · rw [findMatch, growMatch_of_none 32 none hnone, ite_self]

/-- What `FindMatch` answers is the longest match, and it answers it whenever there is one (R127). -/
theorem findMatch_eq_some_iff {S : List Byte} {r o l : Nat} : findMatch S r = some (o, l) ↔ LongestMatch S r o l := by
  constructor
  · intro h
    have hsome : ¬ (S.length - r < 3 ∨ find (windowAt S r) (candidateAt S r 3) = none) := fun hn => by
      cases (findMatch_eq_none_iff.mpr hn).symm.trans h
    obtain ⟨hleft, h3⟩ := not_or.mp hsome
    obtain ⟨o', l', heq, hbest⟩ := findMatch_longest hleft h3
    cases h.symm.trans heq
    exact hbest
  · intro h
    have h3 := h.min
    have hfits := h.fits
    obtain ⟨o', l', heq, hbest⟩ := findMatch_longest (by omega) h.find_three
    obtain ⟨rfl, rfl⟩ := h.unique hbest
    exact heq

/-- Settles O23: `FindMatch` is the longest match, and `Find` the first occurrence. -/
theorem findMatchIsLongestLeftmost : Obligations.FindMatchIsLongestLeftmost := by
  intro S r _
  refine ⟨findMatch_eq_none_iff.trans (or_congr_right find_eq_none_iff), fun o l => findMatch_eq_some_iff.trans ?_⟩
  constructor
  · intro h
    obtain ⟨hocc, hleft⟩ := find_eq_some_iff.mp h.found
    have hcap : l ≤ min 34 (S.length - r) := by have := h.max; have := h.fits; omega
    exact ⟨h.min, hcap, hocc, hleft, fun L hlt hL => find_eq_none_iff.mp (h.longest L hlt (by omega) (by omega))⟩
  · rintro ⟨h3, hcap, hocc, hleft, hlong⟩
    exact ⟨h3, by omega, by omega, find_eq_some_iff.mpr ⟨hocc, hleft⟩,
      fun L hlt h34 hfits => find_eq_none_iff.mpr (hlong L hlt (by omega))⟩

/-- Settles O24: a longest match is an occurrence inside the window, whose bytes are the source's. -/
theorem findMatchIsValid : Obligations.FindMatchIsValid := by
  intro S r o l hr h
  have hbest := findMatch_eq_some_iff.mp h
  have h3 := hbest.min
  have hfits := hbest.fits
  obtain ⟨hin, heq⟩ := (find_eq_some_iff.mp hbest.found).1
  rw [length_slice hfits, length_slice (Nat.le_of_lt hr), winStart_eq] at hin
  rw [length_slice hfits] at heq
  refine ⟨h3, hbest.max, hfits, by omega, by omega, by omega, fun k hk => ?_⟩
  calc S[r - 2048 + o + k]? = (windowAt S r)[o + k]? := by
        rw [getElem?_slice (by rw [winStart_eq]; omega), winStart_eq, Nat.add_assoc]
    _ = (candidateAt S r l)[k]? := heq k (by omega)
    _ = S[r + k]? := getElem?_slice (by omega)

/-! ### The micro-operations -/

/-- Settles O19: by the number of bytes left. -/
theorem mStartBeginsSearch : Obligations.MStartBeginsSearch := by
  intro s hph
  constructor
  · intro hshort
    rw [exec_mStart, execMStart, if_pos hph, if_pos hshort]
  · intro hleft
    rw [exec_mStart, execMStart, if_pos hph, if_neg (Nat.not_lt.mpr hleft), sub_winStart, winStart_eq]

/-- Settles O21: by whether the candidate can grow. -/
theorem mExtendGrowsCandidate : Obligations.MExtendGrowsCandidate := by
  intro s hph
  constructor
  · intro hstop
    rw [exec_mExtend, execMExtend, if_pos hph, if_pos hstop]
  · intro h34 hend
    rw [exec_mExtend, execMExtend, if_pos hph, if_neg (not_or.mpr ⟨h34, hend⟩)]

/-- M.SEARCH answers what `Find` answers on the two strings, a short window included (R122). -/
theorem execMSearch_of_range {s : State} {window candidate : List Byte} (hph : s.ph = .mSearch)
    (hw : s.src.range s.ws s.wlen = some window) (hc : s.src.range s.r s.clen = some candidate) :
    execMSearch s = .next (searched (find window candidate) s) := by
  rw [execMSearch, if_pos hph]
  split
  case isTrue hshort =>
    rw [find_of_short (by rw [(Memory.range_eq_some.mp hw).1, (Memory.range_eq_some.mp hc).1]; exact hshort)]
  case isFalse => rw [hw, hc]

/-- An occurrence by the bytes of `SRC` is one in the two strings read from it (R13, R122). -/
theorem State.occursAt_iff {s : State} {window candidate : List Byte} {j : Nat}
    (hw : s.src.range s.ws s.wlen = some window) (hc : s.src.range s.r s.clen = some candidate) :
    s.OccursAt j ↔ OccursIn window candidate j := by
  obtain ⟨hwl, hwr⟩ := Memory.range_eq_some.mp hw
  obtain ⟨hcl, hcr⟩ := Memory.range_eq_some.mp hc
  rw [State.OccursAt, OccursIn, hwl, hcl]
  refine and_congr_right fun hfits => forall₂_congr fun k hk => ?_
  rw [Nat.add_assoc, hwr (j + k) (by omega), hcr k hk]

/-- Settles O20: the search is `Find` on the window and the candidate, whose occurrences are those in `SRC`. -/
theorem mSearchFindsLeftmost : Obligations.MSearchFindsLeftmost := by
  intro s hph _
  refine ⟨fun hshort => ?_, fun hwin hcand => ?_⟩
  · rw [exec_mSearch, execMSearch, if_pos hph, if_pos hshort]; rfl
  · obtain ⟨window, hw⟩ := Memory.range_isSome (m := s.src) (a := s.ws) (k := s.wlen)
      fun j hj => hwin _ (by omega) (by omega)
    obtain ⟨candidate, hc⟩ := Memory.range_isSome (m := s.src) (a := s.r) (k := s.clen)
      fun j hj => hcand _ (by omega) (by omega)
    simp only [State.occursAt_iff hw hc, exec_mSearch, execMSearch_of_range hph hw hc]
    constructor
    · intro j hocc hleft
      rw [find_eq_some_iff.mpr ⟨hocc, hleft⟩]; rfl
    · intro hnone
      rw [find_eq_none_iff.mpr hnone]; rfl

/-! ### The Matcher's run -/

/-- What the Matcher hands back in `FOUND`, `BOFF` and `BLEN` (R126). -/
def State.matchAnswer (s : State) : Option (Nat × Nat) := if s.found then some (s.boff, s.blen) else none

theorem State.matchAnswer_eq_none {s : State} : s.matchAnswer = none ↔ s.found = false := by
  simp [State.matchAnswer]

theorem State.matchAnswer_eq_some {s : State} {o l : Nat} :
    s.matchAnswer = some (o, l) ↔ s.found = true ∧ s.boff = o ∧ s.blen = l := by
  simp [State.matchAnswer]

theorem matcherFrame_searched (j : Option Nat) (s : State) : s.MatcherFrame (searched j s) := by
  cases j <;> exact ⟨_, _, _, _, _, _, _, rfl⟩

theorem State.MatcherFrame.refl (s : State) : s.MatcherFrame s := ⟨_, _, _, _, _, _, _, rfl⟩

theorem State.MatcherFrame.trans {s t u : State} (h : s.MatcherFrame t) (h' : t.MatcherFrame u) : s.MatcherFrame u := by
  obtain ⟨_, _, _, _, _, _, _, rfl⟩ := h
  obtain ⟨_, _, _, _, _, _, _, rfl⟩ := h'
  exact ⟨_, _, _, _, _, _, _, rfl⟩

/-- Within `bound` steps the engine reaches C_EMIT with the answer `ans`, and only the Matcher's registers have changed. -/
def State.HandsBack (s : State) (bound : Nat) (ans : Option (Nat × Nat)) : Prop :=
  ∃ (k : Nat) (t : State), k ≤ bound ∧ runEngine k s = .next t ∧ t.ph = .cEmit ∧ t.matchAnswer = ans ∧ s.MatcherFrame t

theorem State.handsBack_of_cEmit {s : State} (h : s.ph = .cEmit) (bound : Nat) : s.HandsBack bound s.matchAnswer :=
  ⟨0, s, Nat.zero_le _, rfl, h, rfl, .refl s⟩

/-- A step of the Matcher before a run that hands back. -/
theorem State.HandsBack.step {s u : State} {bound : Nat} {ans : Option (Nat × Nat)} (h : u.HandsBack bound ans)
    (he : engineStep s = .next u) (hf : s.MatcherFrame u) : s.HandsBack (bound + 1) ans := by
  obtain ⟨k, t, hk, hrun, hph, hans, hframe⟩ := h
  exact ⟨k + 1, t, Nat.succ_le_succ hk, by rw [runEngine, he]; exact hrun, hph, hans, hf.trans hframe⟩

theorem engineStep_of_mStart {s : State} (h : s.ph = .mStart) : engineStep s = execMStart s :=
  engineStep_of_selectOp (i := .mStart) (by rw [selectOp, h])

theorem engineStep_of_mSearch {s : State} (h : s.ph = .mSearch) : engineStep s = execMSearch s :=
  engineStep_of_selectOp (i := .mSearch) (by rw [selectOp, h])

theorem engineStep_of_mExtend {s : State} (h : s.ph = .mExtend) : engineStep s = execMExtend s :=
  engineStep_of_selectOp (i := .mExtend) (by rw [selectOp, h])

/-- The engine stands before a search of the loop of `FindMatch(S, R)`, with a candidate of `CLEN` bytes (R122, R126). -/
structure State.Searching (s : State) (S : List Byte) : Prop where
  ph : s.ph = .mSearch
  n : s.n = S.length
  source : ∀ a, a < S.length → s.src.read a = S[a]?
  ws : s.ws = winStart s.r
  wlen : s.wlen = s.r - winStart s.r
  clen : s.clen ≤ 34
  fits : s.r + s.clen ≤ S.length

/-- A range of a source that has been written is a part of it. -/
theorem range_of_source {m : Memory} {S : List Byte} (h : ∀ a, a < S.length → m.read a = S[a]?) {a k : Nat}
    (hle : a + k ≤ S.length) : m.range a k = some (slice S a (a + k)) := by
  refine Memory.range_eq_some.mpr ⟨by rw [length_slice hle, Nat.add_sub_cancel_left], fun j hj => ?_⟩
  rw [h (a + j) (by omega), getElem?_slice (by omega)]

/-- M.SEARCH in the loop is the loop's own `Find` (R122, R126). -/
theorem State.Searching.mSearch {s : State} {S : List Byte} (h : s.Searching S) :
    engineStep s = .next (searched (find (windowAt S s.r) (candidateAt S s.r s.clen)) s) := by
  have hend : winStart s.r + (s.r - winStart s.r) = s.r := Nat.add_sub_cancel' (winStart_le s.r)
  have hw := range_of_source h.source (a := winStart s.r) (k := s.r - winStart s.r) (by have := h.fits; omega)
  rw [hend] at hw
  rw [engineStep_of_mSearch h.ph]
  exact execMSearch_of_range h.ph (by rw [h.ws, h.wlen]; exact hw) (range_of_source h.source h.fits)

/-- From M_SEARCH the engine computes the rest of the loop of `FindMatch`, in two steps per turn (R126, R129). -/
theorem State.Searching.handsBack {s : State} {S : List Byte} {fuel : Nat} (h : s.Searching S) (hfuel : 34 < fuel + s.clen) :
    s.HandsBack (2 * fuel) (growMatch S (windowAt S s.r) s.r fuel s.clen s.matchAnswer) := by
  induction fuel generalizing s with
  | zero => exact absurd h.clen (by omega)
  | succ fuel ih =>
    have hsearch := h.mSearch
    cases hj : find (windowAt S s.r) (candidateAt S s.r s.clen) with
    | none =>
      rw [hj] at hsearch
      rw [growMatch_of_none _ _ hj]
      exact (handsBack_of_cEmit (s := searched none s) rfl _).step hsearch (matcherFrame_searched none s)
    | some j =>
      rw [hj] at hsearch
      rw [growMatch_of_some fuel _ hj]
      refine State.HandsBack.step (u := searched (some j) s) (bound := 2 * fuel + 1) ?_ hsearch (matcherFrame_searched _ s)
      obtain ⟨hstop, hgrow⟩ := mExtendGrowsCandidate (searched (some j) s) rfl
      rw [exec_mExtend, ← engineStep_of_mExtend rfl] at hstop hgrow
      split
      case isTrue hlast =>
        rw [← h.n] at hlast
        exact (handsBack_of_cEmit rfl _).step (hstop hlast) ⟨_, _, _, _, _, _, _, rfl⟩
      case isFalse hmore =>
        obtain ⟨h34, hend⟩ := not_or.mp hmore
        have hclen := h.clen
        have hfits := h.fits
        refine (ih ?_ (by omega : 34 < fuel + (s.clen + 1))).step (hgrow h34 (h.n ▸ hend)) ⟨_, _, _, _, _, _, _, rfl⟩
        exact { h with
          ph := rfl
          clen := (by omega : s.clen + 1 ≤ 34)
          fits := (by omega : s.r + (s.clen + 1) ≤ S.length) }

/-- The state in which M.START leaves the engine when it opens the window (R121). -/
def State.windowOpened (s : State) : State :=
  { s with found := false, ws := winStart s.r, wlen := s.r - winStart s.r, clen := 3, ph := .mSearch }

theorem engineStep_opens_window {s : State} (hph : s.ph = .mStart) (hleft : ¬ s.n - s.r < 3) :
    engineStep s = .next s.windowOpened := by
  rw [engineStep_of_mStart hph, execMStart, if_pos hph, if_neg hleft]; rfl

/-- M.START brings the engine to the first search of the loop, with no match so far (R121, R126). -/
theorem State.searching_windowOpened {s : State} {S : List Byte} (hn : s.n = S.length)
    (hsrc : ∀ a, a < S.length → s.src.read a = S[a]?) (hfits : s.r + 3 ≤ S.length) : s.windowOpened.Searching S :=
  ⟨rfl, hn, hsrc, rfl, rfl, (by decide : 3 ≤ 34), hfits⟩

/-- From M_START the engine computes `FindMatch`: one step, and two for each of at most 32 searches (R126, R129). -/
theorem handsBack_findMatch {s : State} {S : List Byte} (hph : s.ph = .mStart) (hn : s.n = S.length)
    (hsrc : ∀ a, a < S.length → s.src.read a = S[a]?) : s.HandsBack 65 (findMatch S s.r) := by
  rw [findMatch, ← hn]
  split
  case isTrue hshort =>
    have hstop := (mStartBeginsSearch s hph).1 hshort
    rw [exec_mStart, ← engineStep_of_mStart hph] at hstop
    exact (State.handsBack_of_cEmit rfl 64).step hstop ⟨_, _, _, _, _, _, _, rfl⟩
  case isFalse hleft =>
    have hrun := (State.searching_windowOpened hn hsrc (by omega)).handsBack (fuel := 32) (by decide : 34 < 32 + 3)
    rw [State.matchAnswer_eq_none.mpr (rfl : s.windowOpened.found = false)] at hrun
    exact hrun.step (engineStep_opens_window hph hleft) ⟨_, _, _, _, _, _, _, rfl⟩

/-- Settles O22: the run hands back `FindMatch(S, R)` in the registers it is read from. -/
theorem matcherComputesFindMatch : Obligations.MatcherComputesFindMatch := by
  intro s S hph hn _ hsrc
  obtain ⟨k, t, hk, hrun, hemit, hans, hframe⟩ := handsBack_findMatch hph hn hsrc
  refine ⟨k, t, hk, hrun, hemit, fun h => ?_, fun o l h => ?_, ?_⟩
  · exact State.matchAnswer_eq_none.mp (hans.trans h)
  · exact State.matchAnswer_eq_some.mp (hans.trans h)
  · obtain ⟨_, _, _, _, _, _, _, rfl⟩ := hframe
    cases hemit
    rfl

end Sys2Proof.Machine

/-! PROOFS. The encoder's functions (41_encoder.md R156, R157, R166; 30_encoding.md R110): the greedy parse from a cursor, the blocks
that `Compress` makes of it, and the size of a parse's byte form. -/

namespace Sys2Proof.Machine

open Sys2Proof

/-! ### The greedy parse -/

/-- The token of the greedy parse at the cursor `r`, where the source has the byte `b` (R157). -/
def greedyToken (S : List Byte) (r : Nat) (b : Byte) : Token :=
  match findMatch S r with
  | some (o, l) => .pair o l
  | none => .literal b

theorem greedyToken_of_none {S : List Byte} {r : Nat} (b : Byte) (h : findMatch S r = none) :
    greedyToken S r b = .literal b := by
  rw [greedyToken, h]

theorem greedyToken_of_some {S : List Byte} {r o l : Nat} (b : Byte) (h : findMatch S r = some (o, l)) :
    greedyToken S r b = .pair o l := by
  rw [greedyToken, h]

/-- Every token of the greedy parse moves the cursor (R156). -/
theorem greedyToken_outputLength_pos (S : List Byte) (r : Nat) (b : Byte) : 0 < (greedyToken S r b).outputLength := by
  cases h : findMatch S r with
  | none => rw [greedyToken_of_none b h]; exact Nat.one_pos
  | some ol =>
    obtain ⟨o, l⟩ := ol
    rw [greedyToken_of_some b h]
    exact Nat.lt_of_lt_of_le (Nat.zero_lt_succ 2) (findMatch_eq_some_iff.mp h).min

/-- One turn of the greedy parse (R157). -/
theorem tokensFrom_succ {S : List Byte} {r : Nat} {b : Byte} (fuel : Nat) (hb : S[r]? = some b) :
    tokensFrom S (fuel + 1) r =
      greedyToken S r b :: tokensFrom S fuel (r + (greedyToken S r b).outputLength) := by
  cases h : findMatch S r <;> simp only [tokensFrom, hb, greedyToken, h, Token.outputLength]

theorem tokensFrom_of_end {S : List Byte} {r : Nat} (fuel : Nat) (hr : S.length ≤ r) : tokensFrom S fuel r = [] := by
  cases fuel with
  | zero => rfl
  | succ fuel => rw [tokensFrom, List.getElem?_eq_none hr]

/-- A step of fuel for each byte left is enough (R161). -/
theorem tokensFrom_fuel {S : List Byte} {f g r : Nat} (hf : S.length ≤ r + f) (hg : S.length ≤ r + g) :
    tokensFrom S f r = tokensFrom S g r := by
  induction f generalizing g r with
  | zero =>
    have hr : S.length ≤ r := hf
    rw [tokensFrom_of_end 0 hr, tokensFrom_of_end g hr]
  | succ f ih =>
    rcases Nat.lt_or_ge r S.length with hr | hr
    · obtain ⟨g, rfl⟩ : ∃ g', g = g' + 1 := ⟨g - 1, by omega⟩
      have hb := List.getElem?_eq_getElem hr
      have hpos := greedyToken_outputLength_pos S r S[r]
      rw [tokensFrom_succ f hb, tokensFrom_succ g hb, ih (g := g) (by omega) (by omega)]
    · rw [tokensFrom_of_end _ hr, tokensFrom_of_end _ hr]

/-- The greedy parse of what is left of the source at the cursor `r` (R157). -/
def tokensAt (S : List Byte) (r : Nat) : List Token := tokensFrom S (S.length - r) r

theorem tokens_eq_tokensAt (S : List Byte) : tokens S = tokensAt S 0 := rfl

theorem tokensAt_of_end {S : List Byte} {r : Nat} (hr : S.length ≤ r) : tokensAt S r = [] := tokensFrom_of_end _ hr

theorem tokensAt_cons {S : List Byte} {r : Nat} {b : Byte} (hb : S[r]? = some b) :
    tokensAt S r = greedyToken S r b :: tokensAt S (r + (greedyToken S r b).outputLength) := by
  have hlt := (List.getElem?_eq_some_iff.mp hb).1
  have hpos := greedyToken_outputLength_pos S r b
  have hfuel : S.length - r = S.length - r - 1 + 1 := by omega
  rw [tokensAt, hfuel, tokensFrom_succ _ hb]
  exact congrArg _ (tokensFrom_fuel (by omega) (by omega))

theorem tokensAt_ne_nil_iff {S : List Byte} {r : Nat} : tokensAt S r ≠ [] ↔ r < S.length := by
  constructor
  · intro h
    exact Nat.lt_of_not_le fun hr => h (tokensAt_of_end hr)
  · intro hr
    rw [tokensAt_cons (List.getElem?_eq_getElem hr)]
    exact List.cons_ne_nil _ _

/-- The greedy parse is a valid parse of the source from its cursor on (R108, R131). -/
theorem validParse_tokensAt {S : List Byte} {r : Nat} (hr : r ≤ S.length) : ValidParse S r (tokensAt S r) := by
  induction hd : S.length - r using Nat.strong_induction_on generalizing r with
  | _ d ih =>
    rcases Nat.eq_or_lt_of_le hr with rfl | hlt
    · rw [tokensAt_of_end (Nat.le_refl _)]; rfl
    · have hb := List.getElem?_eq_getElem hlt
      rw [tokensAt_cons hb]
      cases h : findMatch S r with
      | none =>
        rw [greedyToken_of_none _ h]
        exact ⟨hb, ih (S.length - (r + 1)) (by omega) hlt rfl⟩
      | some ol =>
        obtain ⟨o, l⟩ := ol
        obtain ⟨h3, h34, hfits, hwin, -, ho, heq⟩ := findMatchIsValid S r o l hlt h
        rw [greedyToken_of_some _ h]
        exact ⟨⟨h3, h34, by omega, hfits, by rw [winStart_eq]; omega, heq⟩,
          ih (S.length - (r + l)) (by omega) hfits rfl⟩

theorem validParse_tokens (S : List Byte) : ValidParse S 0 (tokens S) := validParse_tokensAt (Nat.zero_le _)

/-! ### The blocks of `Compress` -/

/-- One token of a block (the inner loop of R156). -/
theorem encodeBlock_succ {S : List Byte} {r : Nat} {b : Byte} (hb : S[r]? = some b) (k tok : Nat) (ctrl : Byte)
    (pay : List Byte) :
    encodeBlock S (k + 1) r tok ctrl pay =
      encodeBlock S k (r + (greedyToken S r b).outputLength) (tok + 1)
        (if (greedyToken S r b).isPair then setCtrlBit ctrl tok else ctrl) (pay ++ (greedyToken S r b).payload) := by
  cases h : findMatch S r <;>
    simp [encodeBlock, hb, greedyToken, h, Token.outputLength, Token.isPair, Token.payload]

/-- A block takes the next tokens of the greedy parse, and the parse goes on behind them (R110, R156). -/
theorem encodeBlock_eq (S : List Byte) (k r tok : Nat) (ctrl : Byte) (pay : List Byte) :
    ∃ r', encodeBlock S k r tok ctrl pay =
        (controlByte ((tokensAt S r).take k) tok ctrl, pay ++ ((tokensAt S r).take k).flatMap Token.payload, r') ∧
      tokensAt S r' = (tokensAt S r).drop k := by
  induction k generalizing r tok ctrl pay with
  | zero => exact ⟨r, by simp [encodeBlock, controlByte], rfl⟩
  | succ k ih =>
    rcases Nat.lt_or_ge r S.length with hr | hr
    · have hb := List.getElem?_eq_getElem hr
      rw [encodeBlock_succ hb, tokensAt_cons hb]
      obtain ⟨r', heq, hrest⟩ := ih (r + (greedyToken S r S[r]).outputLength) (tok + 1)
        (if (greedyToken S r S[r]).isPair then setCtrlBit ctrl tok else ctrl) (pay ++ (greedyToken S r S[r]).payload)
      exact ⟨r', by rw [heq]; simp [controlByte], hrest⟩
    · refine ⟨r, ?_, ?_⟩
      · simp [encodeBlock, List.getElem?_eq_none hr, tokensAt_of_end hr, controlByte]
      · rw [tokensAt_of_end hr, List.drop_nil]

/-- The outer loop of R156 makes the byte form of the tokens left (R110). -/
theorem encodeBlocks_eq (S : List Byte) (fuel r : Nat) : encodeBlocks S fuel r = blockBytes fuel (tokensAt S r) := by
  induction fuel generalizing r with
  | zero => rfl
  | succ fuel ih =>
    rw [encodeBlocks]
    split
    case isTrue hr =>
      obtain ⟨r', heq, hrest⟩ := encodeBlock_eq S 8 r 0 0#8 []
      rw [heq, blockBytes_cons fuel (tokensAt_ne_nil_iff.mpr hr), ← hrest, ← ih]
      rfl
    case isFalse hr => rw [tokensAt_of_end (Nat.le_of_not_lt hr)]; rfl

/-! ### Sizes -/

theorem Token.payload_length_pos (t : Token) : 0 < t.payload.length := by
  cases t <;> simp [Token.payload]

theorem length_le_payload (ts : List Token) : ts.length ≤ (ts.flatMap Token.payload).length := by
  induction ts with
  | nil => exact Nat.le_refl 0
  | cons t ts ih =>
    have ht := t.payload_length_pos
    rw [List.flatMap_cons, List.length_append, List.length_cons]
    omega

/-- A valid parse has no more payload than source: a literal's byte for a byte, a Match's two for three or more (R166). -/
theorem ValidParse.payload_le {X : List Byte} {p : Nat} {ts : List Token} (h : ValidParse X p ts) :
    p + (ts.flatMap Token.payload).length ≤ X.length := by
  induction ts generalizing p with
  | nil => exact Nat.le_of_eq h
  | cons t ts ih =>
    cases t with
    | literal b =>
      have hrest := ih h.2
      simp only [List.flatMap_cons, List.length_append, Token.payload, List.length_singleton]
      omega
    | pair o l =>
      have hrest := ih h.2
      have h3 := h.1.1
      simp only [List.flatMap_cons, List.length_append, Token.payload, bytes16_length]
      omega

theorem ValidParse.length_le {X : List Byte} {ts : List Token} (h : ValidParse X 0 ts) : ts.length ≤ X.length := by
  have hpay := h.payload_le
  have hlen := length_le_payload ts
  omega

/-- The byte form of a token list: a control byte for each 8 tokens begun, and the payloads (R110). -/
theorem length_blockBytes {f : Nat} {ts : List Token} (hf : ts.length ≤ f) :
    (blockBytes f ts).length = (ts.length + 7) / 8 + (ts.flatMap Token.payload).length := by
  induction f generalizing ts with
  | zero =>
    obtain rfl : ts = [] := List.length_eq_zero_iff.mp (Nat.le_zero.mp hf)
    rfl
  | succ f ih =>
    by_cases hts : ts = []
    · subst hts; rfl
    · have hpos := List.length_pos_iff.mpr hts
      have hsplit : (ts.flatMap Token.payload).length =
          ((ts.take 8).flatMap Token.payload).length + ((ts.drop 8).flatMap Token.payload).length := by
        rw [← List.length_append, ← List.flatMap_append, List.take_append_drop]
      rw [blockBytes_cons f hts, List.length_cons, List.length_append, ih (by rw [List.length_drop]; omega), hsplit,
        List.length_drop]
      omega

/-- More tokens do not make the byte form shorter. -/
theorem length_blockBytes_append (ts us : List Token) :
    (blockBytes ts.length ts).length ≤ (blockBytes (ts ++ us).length (ts ++ us)).length := by
  rw [length_blockBytes (Nat.le_refl _), length_blockBytes (Nat.le_refl _), List.flatMap_append, List.length_append,
    List.length_append]
  omega

/-! ### The stream -/

/-- Settles O31: the blocks of `Compress` are those of the greedy parse, which has at most a token for each byte. -/
theorem compressIsBytesOfTokens : Obligations.CompressIsBytesOfTokens := by
  intro S
  rw [compress, streamBytes, encodeBlocks_eq, ← tokens_eq_tokensAt,
    blockBytes_fuel (validParse_tokens S).length_le (Nat.le_refl _)]

/-- Settles O32: the greedy parse is valid, so it has at most `N` tokens and `N` payload bytes. -/
theorem compressedSizeBound : Obligations.CompressedSizeBound := by
  intro S
  have hpay := (validParse_tokens S).payload_le
  have hlen := (validParse_tokens S).length_le
  rw [compressIsBytesOfTokens S, streamBytes, List.length_append, bytes32_length, length_blockBytes (Nat.le_refl _)]
  omega

end Sys2Proof.Machine

/-! PROOFS. The Token Encoder's micro-operations (41_encoder.md R151 to R155): each puts a stream element, so its answer is the
element's. -/

namespace Sys2Proof.Machine

open Sys2Proof

/-- The selected micro-operation answers what the element it puts answers (R109). -/
theorem exec_of_elementPut {s : State} {m i : Instr} (hm : selectOp s = some m) (hi : elementPut s = some i) :
    exec m s = exec i s :=
  (engineStep_of_selectOp hm).symm.trans (engineStep_of_elementPut hi)

/-- Settles O26: the header's four bytes, or the error. -/
theorem eHeaderWritesLength : Obligations.EHeaderWritesLength := by
  intro s hph
  have hput : exec .eHeader s = exec (.header s.n) s :=
    exec_of_elementPut (by rw [selectOp, hph]) (by rw [elementPut, hph])
  rw [hput]
  refine ⟨fun hcap => headerElementTakenOrPut.2 s.n s hph hcap, fun hcap => ⟨s.dst, ?_⟩⟩
  rw [exec_header, execHeader_of_cHeader s.n hph, putHeader_eq, if_pos hcap]
  rfl

/-- Settles O27: by whether source is left. -/
theorem eOpenOpensOrCompletes : Obligations.EOpenOpensOrCompletes := by
  intro s hph
  rw [exec_eOpen, execEOpen, if_pos hph]
  constructor
  · intro hend
    rw [if_pos hend]; rfl
  · intro hmore
    rw [if_neg hmore]
    exact ⟨_, rfl, rfl⟩

/-- Settles O28: the literal's byte is the source's at the cursor. -/
theorem eLitEmitsLiteral : Obligations.ELitEmitsLiteral := by
  intro s b hph hf hb hplen
  have hput : exec .eLit s = exec (.literal b) s :=
    exec_of_elementPut (by simp [selectOp, hph, hf]) (by simp [elementPut, hph, hf, hb])
  rw [hput]
  exact literalElementTakenOrPut.2 b s hph hf hplen

/-- Settles O29: the pair is the one in `BOFF` and `BLEN`. -/
theorem eMatchEmitsPair : Obligations.EMatchEmitsPair := by
  intro s hph hf htok hplen ho h3 h34
  have hput : exec .eMatch s = exec (.matchPair s.boff s.blen) s :=
    exec_of_elementPut (by simp [selectOp, hph, hf]) (by simp [elementPut, hph, hf])
  rw [hput]
  exact matchElementTakenOrPut.2 s.boff s.blen s hph hf htok hplen ho h3 h34

/-- Settles O30: the control byte and the payload, or the error. -/
theorem eCloseWritesBlock : Obligations.ECloseWritesBlock := by
  intro s hph hplen
  have hput : exec .eClose s = exec (.control s.ctrl) s :=
    exec_of_elementPut (by rw [selectOp, hph]) (by rw [elementPut, hph])
  rw [hput]
  refine ⟨fun hcap => controlElementTakenOrPut.2 s.ctrl s hph hplen hcap, fun hcap => ⟨s.dst, ?_⟩⟩
  rw [exec_control, execControl_of_cClose s.ctrl hph, putControl, if_pos hcap]
  rfl

end Sys2Proof.Machine

/-! PROOFS. A COMPRESS command's run (41_encoder.md R156, R161): from block to block and from token to token the output is the byte
form of the tokens the greedy parse has passed, until it is all of `Compress(S)` or does not fit. -/

namespace Sys2Proof.Machine

open Sys2Proof

/-! ### Runs of the engine -/

/-- A run goes on where its first part has come to. -/
theorem runEngine_add {j k : Nat} {s u : State} (h : runEngine j s = .next u) :
    runEngine (j + k) s = runEngine k u := by
  induction j generalizing s with
  | zero => cases h; rw [Nat.zero_add]
  | succ j ih =>
    obtain ⟨v, hv, hrest⟩ := runEngine_succ_next h
    rw [Nat.succ_add, runEngine, hv]
    exact ih hrest

theorem runEngine_one {s t : State} (h : engineStep s = .next t) : runEngine 1 s = .next t := by
  rw [runEngine, h]; rfl

/-- What every step of the engine keeps, every run keeps. -/
theorem runEngine_keeps {P : State → Prop} (hstep : ∀ s t, P s → engineStep s = .next t → P t) {k : Nat} {s t : State}
    (h : P s) (hrun : runEngine k s = .next t) : P t := by
  induction k generalizing s with
  | zero => cases hrun; exact h
  | succ k ih =>
    obtain ⟨u, hu, hrest⟩ := runEngine_succ_next hrun
    exact ih (hstep s u h hu) hrest

theorem State.RunInv.of_runEngine {k : Nat} {s t : State} (h : s.RunInv) (hrun : Machine.runEngine k s = .next t) :
    t.RunInv :=
  runEngine_keeps (fun _ _ hs he => hs.engineStep he) h hrun

theorem State.KeepsSource.trans {s t u : State} (h : s.KeepsSource t) (h' : t.KeepsSource u) : s.KeepsSource u := by
  obtain ⟨hcaps, hhost, hsrc, hlen⟩ := h
  obtain ⟨hcaps', hhost', hsrc', hlen'⟩ := h'
  exact ⟨hcaps'.trans hcaps, hhost'.trans hhost, hsrc'.trans hsrc, hlen'.trans hlen⟩

theorem runEngine_keepsSource {k : Nat} {s t : State} (hrun : runEngine k s = .next t) : s.KeepsSource t :=
  runEngine_keeps (fun _ _ hs he => hs.trans (engineStep_keepsSource he)) (.refl s) hrun

/-! ### The loaded source -/

theorem State.Holds.of_keepsSource {s t : State} {S : List Byte} (h : s.Holds S) (hk : s.KeepsSource t) : t.Holds S := by
  obtain ⟨hcaps, -, hsrc, hlen⟩ := hk
  rw [State.Holds, hlen, hcaps, hsrc]
  exact h

theorem State.Holds.sourceWritten {s : State} {S : List Byte} (h : s.Holds S) : s.SourceWritten := by
  obtain ⟨hlen, -, hread⟩ := h
  intro a ha
  rw [hread a (hlen ▸ ha), List.getElem?_eq_getElem (hlen ▸ ha)]
  nofun

/-- The source behind a parse is the loaded one, up to the cursor. -/
theorem State.ParsedAs.getElem?_source {s : State} {S X : List Byte} {closed opened : List Token}
    (h : s.ParsedAs X closed opened) (hS : s.Holds S) (hr : s.r ≤ S.length) {a : Nat} (ha : a < s.r) : X[a]? = S[a]? := by
  rw [← hS.2.2 a (Nat.lt_of_lt_of_le ha hr), ← (Memory.range_eq_some.mp h.source).2 a ha, Nat.zero_add]

/-! ### The command under way -/

/-- A COMPRESS command on `S` is under way: what has been put so far is the greedy parse up to the cursor (R156, R157). -/
structure State.Encoding (s : State) (S : List Byte) : Prop where
  run : s.RunInv
  holds : s.Holds S
  parse : ∃ X closed opened, s.ParsedAs X closed opened ∧ tokens S = closed ++ opened ++ tokensAt S s.r

theorem State.Encoding.n_eq {s : State} {S : List Byte} (h : s.Encoding S) (hp : s.ph.compressing = true) :
    s.n = S.length :=
  (h.run.encoder hp).n_eq.trans h.holds.1

theorem State.Encoding.cursor_lt {s : State} {S : List Byte} (h : s.Encoding S) (hcur : s.ph.atCursor = true) :
    s.r < S.length := by
  have hp := Phase.compressing_of_atCursor hcur
  exact h.n_eq hp ▸ ((h.run.encoder hp).cursor hcur).2

/-- A run keeps all of it but the parse, which is for the phases to show. -/
theorem State.Encoding.of_runEngine {k : Nat} {s t : State} {S : List Byte} (h : s.Encoding S)
    (hrun : runEngine k s = .next t)
    (hparse : ∃ X closed opened, t.ParsedAs X closed opened ∧ tokens S = closed ++ opened ++ tokensAt S t.r) :
    t.Encoding S :=
  ⟨h.run.of_runEngine hrun, h.holds.of_keepsSource (runEngine_keepsSource hrun), hparse⟩

/-- What a COMPRESS command on `S` leaves, by whether `Compress(S)` fits (R156, R223, R245). -/
def CompressOutcome (S : List Byte) (cap : Nat) (t : State) : Prop :=
  ((compress S).length ≤ cap → callResult t = some (.ok (compress S)) ∧ t.err = .none) ∧
    (cap < (compress S).length → callResult t = some (.error .capacity))

/-- Within `bound` steps the engine comes to `HALT` with the outcome of a COMPRESS command on `S`. -/
def State.EndsWithin (s : State) (S : List Byte) (bound : Nat) : Prop :=
  ∃ (k : Nat) (t : State), k ≤ bound ∧ runEngine k s = .next t ∧ t.ph = .halt ∧ CompressOutcome S s.caps.dst t

/-- A run of `j` steps before one that ends. -/
theorem State.EndsWithin.after {s u : State} {S : List Byte} {j bound bound' : Nat} (h : u.EndsWithin S bound)
    (hrun : runEngine j s = .next u) (hle : j + bound ≤ bound') : s.EndsWithin S bound' := by
  obtain ⟨k, t, hk, hend, hhalt, hout⟩ := h
  obtain ⟨hcaps, -⟩ := runEngine_keepsSource hrun
  exact ⟨j + k, t, by omega, (runEngine_add hrun).trans hend, hhalt, hcaps ▸ hout⟩

theorem State.EndsWithin.mono {s : State} {S : List Byte} {bound bound' : Nat} (h : s.EndsWithin S bound)
    (hle : bound ≤ bound') : s.EndsWithin S bound' :=
  h.after (j := 0) rfl (by omega)

/-- The step that ends the command. -/
theorem State.endsWithin_of_halt {s t : State} {S : List Byte} {bound : Nat} (he : engineStep s = .next t)
    (hhalt : t.ph = .halt) (hout : CompressOutcome S s.caps.dst t) (hle : 1 ≤ bound) : s.EndsWithin S bound :=
  ⟨1, t, hle, runEngine_one he, hhalt, hout⟩

/-- What does not fit ends with CAPACITY (R245). -/
theorem compressOutcome_capacity {S : List Byte} {s : State} {cap : Nat} (h : cap < (compress S).length) :
    CompressOutcome S cap (enterError .capacity s) :=
  ⟨fun hle => absurd h (Nat.not_lt.mpr hle), fun _ => rfl⟩

/-! ### Blocks -/

/-- At the end of the source the output is `Compress(S)` (R156). -/
theorem State.Encoding.output_eq {s : State} {S : List Byte} (h : s.Encoding S) (hph : s.ph = .cOpen)
    (hend : s.r = s.n) : s.dst.range 0 s.dstLen = some (compress S) := by
  have hp : s.ph.compressing = true := by rw [hph]; rfl
  obtain ⟨X, closed, opened, hpar, htokens⟩ := h.parse
  obtain rfl := hpar.unopened (by rw [hph]; rfl)
  rw [hend, h.n_eq hp, tokensAt_of_end (Nat.le_refl _), List.append_nil, List.append_nil] at htokens
  obtain ⟨h4, -, hheader⟩ := (h.run.encoder hp).output (by rw [hph]; nofun)
  have hall := Memory.range_append hheader hpar.output
  rw [Nat.add_sub_cancel' h4] at hall
  rw [hall, compressIsBytesOfTokens S, streamBytes, htokens, h.n_eq hp]

theorem engineStep_of_cOpen {s : State} (h : s.ph = .cOpen) : engineStep s = exec .eOpen s :=
  engineStep_of_selectOp (by rw [selectOp, h])

/-- E.OPEN at the end of the source: the command is complete (R152). -/
theorem State.Encoding.completes {s : State} {S : List Byte} (h : s.Encoding S) (hph : s.ph = .cOpen)
    (hend : s.r = s.n) : s.EndsWithin S 1 := by
  have hout := h.output_eq hph hend
  have hlen := (Memory.range_eq_some.mp hout).1
  have hcap := h.run.port.dstLen_le
  have hbusy := h.run.port.busy_iff.mpr (by rw [hph]; nofun)
  refine State.endsWithin_of_halt (t := complete s)
    ((engineStep_of_cOpen hph).trans ((eOpenOpensOrCompletes s hph).1 hend)) rfl ⟨fun _ => ⟨?_, ?_⟩, fun hlt => ?_⟩
    (Nat.le_refl 1)
  · rw [callResult, complete_status, complete_dst, complete_dstLen, hout]; rfl
  · exact h.run.port.err_iff.mpr (by rw [hbusy]; nofun)
  · omega

/-- E.OPEN before the end of the source: an empty block is open (R152). -/
theorem State.Encoding.opensBlock {s : State} {S : List Byte} (h : s.Encoding S) (hph : s.ph = .cOpen)
    (hmore : s.r ≠ s.n) : ∃ t, engineStep s = .next t ∧ t.Encoding S ∧ t.ph = .mStart ∧ t.r = s.r := by
  obtain ⟨t, ht, hframe⟩ := (eOpenOpensOrCompletes s hph).2 hmore
  rw [← engineStep_of_cOpen hph] at ht
  obtain ⟨X, closed, opened, hpar, htokens⟩ := h.parse
  obtain rfl := hpar.unopened (by rw [hph]; rfl)
  have hle := (h.run.encoder (by rw [hph]; rfl)).r_le
  refine ⟨t, ht, h.of_runEngine (runEngine_one ht) ⟨X, closed, [], ?_, ?_⟩, ?_, ?_⟩ <;> rw [hframe]
  · exact { hpar with
      full := fun _ => hpar.full (.inr (Nat.lt_of_le_of_ne hle hmore))
      count := fun _ => rfl
      control := fun _ => rfl
      payload := fun _ => rfl
      unopened := fun _ => rfl }
  · exact htokens

theorem engineStep_of_cClose {s : State} (h : s.ph = .cClose) : engineStep s = execEClose s :=
  engineStep_of_selectOp (i := .eClose) (by rw [selectOp, h])

/-- The block that E.CLOSE is about to append is a part of `Compress(S)` (R155, R156). -/
theorem State.Encoding.closed_size_le {s : State} {S : List Byte} (h : s.Encoding S) (hph : s.ph = .cClose) :
    s.dstLen + 1 + s.plen ≤ (compress S).length := by
  have hb : s.ph.inBlock = true := by rw [hph]; rfl
  have e := h.run.encoder (by rw [hph]; rfl)
  obtain ⟨X, closed, opened, hpar, htokens⟩ := h.parse
  obtain ⟨htok8, -, hplen⟩ := e.counts (.inl hb)
  have htok := (e.closing hph).1
  have h4 := (e.output (by rw [hph]; nofun)).1
  have hout := (Memory.range_eq_some.mp hpar.output).1
  have hblock : s.openBlock.length = 1 + s.plen := by
    rw [State.openBlock, if_pos ⟨hb, htok⟩, List.length_cons, List.length_take, Vector.length_toList]
    omega
  have hbytes := congrArg List.length (hpar.append_openBlock fun _ => htok8)
  rw [List.length_append, hout, hblock] at hbytes
  have hmore := length_blockBytes_append (closed ++ opened) (tokensAt S s.r)
  rw [compressIsBytesOfTokens S, streamBytes, htokens, List.length_append, bytes32_length]
  omega

/-- E.CLOSE: the block does not fit, and so `Compress(S)` does not, or it is closed (R155). -/
theorem State.Encoding.closesBlock {s : State} {S : List Byte} (h : s.Encoding S) (hph : s.ph = .cClose) :
    s.EndsWithin S 1 ∨ ∃ t, engineStep s = .next t ∧ t.Encoding S ∧ t.ph = .cOpen ∧ t.r = s.r := by
  obtain ⟨t, ht⟩ := eClose_answers h.run hph
  have he := (engineStep_of_cClose hph).trans ht
  rcases putControl_next (execEClose_next ht).2 with ⟨hfull, rfl⟩ | ⟨-, -, rfl⟩
  · have hsize := h.closed_size_le hph
    exact .inl (State.endsWithin_of_halt he rfl (compressOutcome_capacity (by omega)) (Nat.le_refl 1))
  · have hbusy := h.run.port.busy_iff.mpr (by rw [hph]; nofun)
    obtain ⟨X, closed, opened, hpar, htokens⟩ := h.parse
    have hpar' := (hpar.eClose (h.run.encoder (by rw [hph]; rfl)) ht).resolve_left (by dsimp only; rw [hbusy]; nofun)
    have henc := h.of_runEngine (runEngine_one he) ⟨X, closed ++ opened, [], hpar', by rwa [List.append_nil]⟩
    exact .inr ⟨_, he, henc, rfl, rfl⟩

/-! ### Tokens -/

/-- The Matcher finds the greedy token's match and changes nothing of the parse (R120, R126, R129). -/
theorem State.Encoding.findsMatch {s : State} {S : List Byte} (h : s.Encoding S) (hph : s.ph = .mStart) :
    ∃ k t, k ≤ 65 ∧ runEngine k s = .next t ∧ t.Encoding S ∧ t.ph = .cEmit ∧ t.r = s.r ∧
      t.matchAnswer = findMatch S s.r := by
  have hp : s.ph.compressing = true := by rw [hph]; rfl
  obtain ⟨k, t, hk, hrun, hemit, hans, hframe⟩ := handsBack_findMatch hph (h.n_eq hp) h.holds.2.2
  obtain ⟨X, closed, opened, hpar, htokens⟩ := h.parse
  have hpar' := hpar.matcherFrame hframe (by rw [hph]; rfl) (by rw [hemit]; rfl)
  have hr : t.r = s.r := by obtain ⟨_, _, _, _, _, _, _, rfl⟩ := hframe; rfl
  exact ⟨k, t, hk, hrun, h.of_runEngine hrun ⟨X, closed, opened, hpar', hr ▸ htokens⟩, hemit, hr, hans⟩

/-- Where E.LIT and E.MATCH leave the cursor and the phase (R153, R154). -/
theorem tokenPut_moves (k : Nat) (s : State) :
    (tokenPut k s).r = s.r + k ∧ ((tokenPut k s).ph = .mStart ∨ (tokenPut k s).ph = .cClose) := by
  rw [tokenPut_eq]
  refine ⟨rfl, ?_⟩
  dsimp only
  split
  · exact .inr rfl
  · exact .inl rfl

/-- One step puts a token at the cursor and leaves the engine before the next one or before the block's end. -/
def State.PutsToken (s : State) (S : List Byte) : Prop :=
  ∃ t, engineStep s = .next t ∧ t.Encoding S ∧ s.r < t.r ∧ (t.ph = .mStart ∨ t.ph = .cClose)

/-- When the token put is the greedy one, the greedy parse goes on behind it (R156, R157). -/
theorem State.Encoding.putsToken_of_greedy {s t : State} {S X : List Byte} {closed opened : List Token} {b : Byte}
    (h : s.Encoding S) (he : engineStep s = .next t) (hb : S[s.r]? = some b)
    (htokens : tokens S = closed ++ opened ++ tokensAt S s.r)
    (hpar : t.ParsedAs X closed (opened ++ [greedyToken S s.r b]))
    (hmoves : t.r = s.r + (greedyToken S s.r b).outputLength ∧ (t.ph = .mStart ∨ t.ph = .cClose)) : s.PutsToken S := by
  obtain ⟨hr, hnext⟩ := hmoves
  refine ⟨t, he, h.of_runEngine (runEngine_one he) ⟨X, closed, _, hpar, ?_⟩, ?_, hnext⟩
  · rw [htokens, tokensAt_cons hb, hr]
    simp
  · rw [hr]
    exact Nat.lt_add_of_pos_right (greedyToken_outputLength_pos S s.r b)

/-- The byte of the Literal that E.LIT has put is the source's at the cursor (R153). -/
theorem State.ParsedAs.literal_eq {s t : State} {S X : List Byte} {b : Byte} {closed opened closed' opened' : List Token}
    (h : s.ParsedAs X closed opened) (h' : t.ParsedAs (X ++ [b]) closed' opened') (hS : t.Holds S) (hlt : s.r < S.length) :
    S[s.r]? = some b := by
  have hlen := h.length_eq
  have hr : s.r + 1 = t.r := by rw [← h'.length_eq, List.length_append, hlen]; rfl
  rw [← h'.getElem?_source hS (by omega) (by omega), ← hlen, List.getElem?_concat_length]

/-- E.LIT, where the Matcher has found nothing (R153). -/
theorem State.Encoding.putsLiteral {s : State} {S : List Byte} (h : s.Encoding S) (hph : s.ph = .cEmit)
    (hf : s.found = false) (hmatch : findMatch S s.r = none) : s.PutsToken S := by
  obtain ⟨t, ht⟩ := eLit_answers h.run h.holds.sourceWritten hph hf
  have he : engineStep s = .next t := (engineStep_of_selectOp (i := .eLit) (by simp [selectOp, hph, hf])).trans ht
  obtain ⟨X, closed, opened, hpar, htokens⟩ := h.parse
  obtain ⟨b, hpar'⟩ := hpar.eLit ht
  have hb := hpar.literal_eq hpar' (h.holds.of_keepsSource (engineStep_keepsSource he)) (h.cursor_lt (by rw [hph]; rfl))
  have hgreedy := greedyToken_of_none b hmatch
  refine h.putsToken_of_greedy he hb htokens (by rwa [hgreedy]) ?_
  obtain ⟨-, -, _, -, hput⟩ := execELit_next ht
  obtain ⟨_, rfl⟩ := putLiteral_next hput
  rw [hgreedy]
  exact tokenPut_moves 1 _

/-- E.MATCH, with the match that the Matcher has found (R154). -/
theorem State.Encoding.putsPair {s : State} {S : List Byte} (h : s.Encoding S) (hph : s.ph = .cEmit)
    (hf : s.found = true) (hmatch : findMatch S s.r = some (s.boff, s.blen)) : s.PutsToken S := by
  obtain ⟨t, ht⟩ := eMatch_answers h.run hph hf
  have he : engineStep s = .next t := (engineStep_of_selectOp (i := .eMatch) (by simp [selectOp, hph, hf])).trans ht
  obtain ⟨X, closed, opened, hpar, htokens⟩ := h.parse
  obtain ⟨Y, -, hpar'⟩ := hpar.eMatch (h.run.encoder (by rw [hph]; rfl)) ht
  have hlt := h.cursor_lt (by rw [hph]; rfl)
  have hb := List.getElem?_eq_getElem hlt
  have hgreedy := greedyToken_of_some S[s.r] hmatch
  refine h.putsToken_of_greedy he hb htokens (by rwa [hgreedy]) ?_
  obtain ⟨-, -, hput⟩ := execEMatch_next ht
  obtain ⟨_, rfl⟩ := putPair_next hput
  rw [hgreedy]
  exact tokenPut_moves s.blen _

/-- One more token of the greedy parse, by the Matcher's answer (R153, R154). -/
theorem State.Encoding.putsToken {s : State} {S : List Byte} (h : s.Encoding S) (hph : s.ph = .cEmit)
    (hans : s.matchAnswer = findMatch S s.r) : s.PutsToken S := by
  cases hf : s.found with
  | false => exact h.putsLiteral hph hf (hans.symm.trans (State.matchAnswer_eq_none.mpr hf))
  | true => exact h.putsPair hph hf (hans.symm.trans (State.matchAnswer_eq_some.mpr ⟨hf, rfl, rfl⟩))

/-! ### The whole command -/

/-- From the first token of a block at the cursor `r`, at most 68 steps for each byte left end the command (R161). -/
def BlocksEnd (S : List Byte) (r : Nat) : Prop :=
  ∀ s : State, s.Encoding S → s.ph = .mStart → s.r = r → s.EndsWithin S (68 * (S.length - r))

theorem State.Encoding.endsWithin_cOpen {s : State} {S : List Byte} (h : s.Encoding S) (hph : s.ph = .cOpen)
    (hblocks : BlocksEnd S s.r) : s.EndsWithin S (1 + 68 * (S.length - s.r)) := by
  by_cases hend : s.r = s.n
  · exact (h.completes hph hend).mono (by omega)
  · obtain ⟨t, ht, henc, hstart, hr⟩ := h.opensBlock hph hend
    exact (hblocks t henc hstart hr).after (runEngine_one ht) (Nat.le_refl _)

theorem State.Encoding.endsWithin_cClose {s : State} {S : List Byte} (h : s.Encoding S) (hph : s.ph = .cClose)
    (hblocks : BlocksEnd S s.r) : s.EndsWithin S (2 + 68 * (S.length - s.r)) := by
  rcases h.closesBlock hph with hfull | ⟨t, ht, henc, hopen, hr⟩
  · exact hfull.mono (by omega)
  · exact (henc.endsWithin_cOpen hopen (hr ▸ hblocks)).after (runEngine_one ht) (by rw [hr]; omega)

/-- By induction on the bytes left: 65 steps of the Matcher, one that puts the token, and two to close the block and open the
next (R161). -/
theorem blocksEnd (S : List Byte) (r : Nat) : BlocksEnd S r := by
  induction hd : S.length - r using Nat.strong_induction_on generalizing r with
  | _ d ih =>
    rintro s h hph rfl
    have hlt := h.cursor_lt (by rw [hph]; rfl)
    obtain ⟨k, u, hk, hrun, hu, hemit, hur, hans⟩ := h.findsMatch hph
    obtain ⟨t, ht, henc, hmoves, hnext⟩ := hu.putsToken hemit (hur.symm ▸ hans)
    have hrest : BlocksEnd S t.r := ih (S.length - t.r) (by omega) t.r rfl
    have hends : t.EndsWithin S (2 + 68 * (S.length - t.r)) := by
      rcases hnext with hstart | hclose
      · exact (hrest t henc hstart rfl).mono (by omega)
      · exact henc.endsWithin_cClose hclose hrest
    exact (hends.after (runEngine_one ht) (Nat.le_refl _)).after hrun (by omega)

/-- E.HEADER: four bytes do not fit, and so `Compress(S)` does not, or the first block comes (R151). -/
theorem startCompress_endsWithin {s : State} {S : List Byte} (h : s.RunInv) (hS : s.Holds S) (hph : s.ph = .cHeader) :
    s.EndsWithin S (2 + 68 * S.length) := by
  have e := h.encoder (by rw [hph]; rfl)
  obtain ⟨hr0, -⟩ := e.start hph
  have he : engineStep s = .next (putHeader s.n s) :=
    (engineStep_of_selectOp (i := .eHeader) (by rw [selectOp, hph])).trans (if_pos hph)
  rw [putHeader_eq] at he
  split at he
  case isTrue hcap =>
    have hlen : 4 ≤ (compress S).length := by rw [compress, List.length_append, bytes32_length]; omega
    exact State.endsWithin_of_halt he rfl (compressOutcome_capacity (by omega)) (by omega)
  case isFalse hcap =>
    have hrun := h.engineStep he
    obtain ⟨X, closed, opened, hpar⟩ := (hrun.encoder rfl).parsed nofun
    have hX : X.length = 0 := hpar.length_eq.trans hr0
    have hnil : closed ++ opened = [] := by
      by_contra hne
      exact absurd (hpar.valid.lt_length hne) (by omega)
    have henc : State.Encoding _ S :=
      ⟨hrun, hS.of_keepsSource (engineStep_keepsSource he), X, closed, opened, hpar, by rw [hnil]; exact hr0 ▸ rfl⟩
    exact (henc.endsWithin_cOpen rfl (blocksEnd S _)).after (runEngine_one he) (by dsimp only; omega)

/-- Settles O33: the command starts a run that ends with the outcome. -/
theorem compressCommandComputesCompress : Obligations.CompressCommandComputesCompress := by
  intro s S hidle hS
  have hle : s.srcLen ≤ s.caps.src.toNat := hS.1 ▸ hS.2.1
  have hstart : exec .cmdCompress s = .next { startCommand s with n := s.srcLen, r := 0, ph := .cHeader } := by
    rw [exec_cmdCompress, execCmdCompress, if_neg hidle, if_neg (Nat.not_lt.mpr hle)]
  obtain ⟨k, t, hk, hrun, hhalt, hfits, hfull⟩ := startCompress_endsWithin (runInv_startCompress hle) hS rfl
  exact ⟨k, t, hk, by rw [runCommand, hstart]; exact hrun, hhalt, hfits, hfull⟩

end Sys2Proof.Machine

/-! PROOFS. The Stream Decoder's micro-operations (42_decoder.md R181 to R189): those that read the stream answer what the
element they take answers, or fail; D.ENDBLOCK; and the copy of a match, which is periodic. -/

namespace Sys2Proof.Machine

open Sys2Proof

/-! ### Header, control byte, end of a block, literal -/

/-- Settles O34: the header at `SRC:0` is taken, or it is cut short, or it announces too much. -/
theorem dHeaderReadsLength : Obligations.DHeaderReadsLength := by
  refine fun s hph => ⟨fun hm => ⟨s.dst, ?_⟩, ?_⟩
  · rw [exec_dHeader, execDHeader, if_pos hph, if_pos hm]; rfl
  · rintro b0 b1 b2 b3 hm h0 h1 h2 h3 _ rfl
    have hrange : s.src.range 0 4 = some [b0, b1, b2, b3] := by simp [Memory.range, h0, h1, h2, h3]
    have htake : exec .dHeader s = exec (.header (le32 b0 b1 b2 b3)) s := dHeader_takes hph hrange
    rw [htake]
    refine ⟨fun hcap => headerElementTakenOrPut.1 _ s hph hm hcap, fun hcap => ⟨s.dst, ?_⟩⟩
    rw [exec_header, execHeader_of_dHeader _ hph, if_neg (Nat.not_lt.mpr hm), takeHeader_eq]
    exact congrArg Host.Outcome.next (if_pos hcap)

/-- Settles O35: complete, or no byte left, or the control byte at the cursor is taken. -/
theorem dCtrlReadsControlByte : Obligations.DCtrlReadsControlByte := by
  refine fun s hph => ⟨fun hend => ?_, fun hmore hip => ⟨s.dst, ?_⟩, fun c hmore hip hc => ?_⟩
  · rw [exec_dCtrl, execDCtrl, if_pos hph, if_pos hend]; rfl
  · rw [exec_dCtrl, execDCtrl, if_pos hph, if_neg hmore, if_pos hip]; rfl
  · exact (dCtrl_takes hph hmore hc).trans (controlElementTakenOrPut.1 c s hph hmore hip)

/-- Settles O36: the selecting condition holds. -/
theorem dEndblockLeavesBlock : Obligations.DEndblockLeavesBlock :=
  fun _ hph hend => if_pos ⟨hph, hend⟩

/-- Settles O37: no byte left, or the literal at the cursor is taken. -/
theorem dLitCopiesByte : Obligations.DLitCopiesByte := by
  refine fun s hph hbit hop hctrl => ⟨fun hip => ⟨s.dst, ?_⟩, fun b hip hb hcap => ?_⟩
  · rw [exec_dLit, execDLit, if_pos ⟨hph, hbit, hop, hctrl⟩, if_pos hip]; rfl
  · rw [exec_dLit, dLit_takes hph ⟨hbit, hop, hctrl⟩ hb]
    exact literalElementTakenOrPut.1 b s hph hbit hop hctrl hip hcap

/-! ### Pairs -/

/-- The low 11 bits of a pair, by its bytes (R99). -/
theorem pairOffset_le16 (b0 b1 : Byte) : pairOffset (le16 b0 b1) = b0.toNat + 256 * (b1.toNat % 8) := by
  have hb0 := b0.isLt
  rw [pairOffset_eq_mod, le16]
  omega

/-- The high 5 bits of a pair, by its bytes (R99). -/
theorem pairLength_le16 (b0 b1 : Byte) : pairLength (le16 b0 b1) = b1.toNat / 8 + 3 := by
  have hb0 := b0.isLt
  rw [pairLength_eq_div, le16]
  omega

theorem range_two {m : Memory} {a : Nat} {b0 b1 : Byte} (h0 : m.read a = some b0) (h1 : m.read (a + 1) = some b1) :
    m.range a 2 = some [b0, b1] := by
  simp [Memory.range, h0, h1]

/-- D.PAIR takes the pair at the cursor, with its fields by its bytes (R99, R185). -/
theorem dPair_takes_fields {s : State} {b0 b1 : Byte} (hph : s.ph = .dToken)
    (hg : s.bit < 8 ∧ s.op < s.n ∧ ctrlBit s.ctrl s.bit = true) (h0 : s.src.read s.ip = some b0)
    (h1 : s.src.read (s.ip + 1) = some b1) :
    exec .dPair s = exec (.matchPair (b0.toNat + 256 * (b1.toNat % 8)) (b1.toNat / 8 + 3)) s := by
  rw [exec_dPair, dPair_takes hph hg (range_two h0 h1), pairOffset_le16, pairLength_le16, exec_matchPair]

/-- Settles O38: the pair at the cursor is taken. -/
theorem dPairStartsCopy : Obligations.DPairStartsCopy := by
  rintro s b0 b1 _ _ hph hbit hop hctrl hip h0 h1 rfl rfl hdst hsrc hwin
  rw [dPair_takes_fields hph ⟨hbit, hop, hctrl⟩ h0 h1]
  exact matchElementTakenOrPut.1 _ _ s hph hbit hop hctrl hip hdst hsrc hwin

theorem pairError_range {n p o l : Nat} (h : n < p + l ∨ n < winStart p + o + l) : pairError n p o l = some .range := by
  unfold pairError
  split
  · rfl
  · exact if_pos (h.resolve_left ‹_›)

theorem pairError_window {n p o l : Nat} (hdst : p + l ≤ n) (hsrc : winStart p + o + l ≤ n) (hwin : p - winStart p ≤ o) :
    pairError n p o l = some .window := by
  rw [pairError, if_neg (Nat.not_lt.mpr hdst), if_neg (Nat.not_lt.mpr hsrc), if_pos hwin]

/-- The registers that D.PAIR sets before its checks (R185). -/
abbrev State.pairRead (o l : Nat) (s : State) : State :=
  { s with ip := s.ip + 2, off := o, len := l, ws := winStart s.op }

/-- A pair that fails a check; the checks are those of the function beside the machine (R185, R191). -/
theorem takePair_of_pairError {s : State} {o l : Nat} {code : FailCode} (h : pairError s.n s.op o l = some code) :
    takePair o l s = enterError code (s.pairRead o l) := by
  have hcheck : checkPair (s.pairRead o l) = some code := h
  rw [takePair_eq, hcheck]

/-- The start of a pair's copy (R185). -/
abbrev State.copyBegun (o l : Nat) (s : State) : State := { s.pairRead o l with i := 0, ph := .dCopy }

/-- A pair that passes the checks. -/
theorem takePair_of_legal {s : State} {o l : Nat} (h : pairError s.n s.op o l = none) :
    takePair o l s = s.copyBegun o l := by
  have hcheck : checkPair (s.pairRead o l) = none := h
  rw [takePair_eq, hcheck]

theorem execMatchPair_of_pairError {s : State} {o l : Nat} {code : FailCode} (hph : s.ph = .dToken)
    (hg : s.bit < 8 ∧ s.op < s.n ∧ ctrlBit s.ctrl s.bit = true) (hleft : 2 ≤ s.m - s.ip)
    (h : pairError s.n s.op o l = some code) :
    exec (.matchPair o l) s = .next (enterError code (s.pairRead o l)) := by
  rw [exec_matchPair, execMatchPair_of_dToken o l hph hg, if_neg (Nat.not_lt.mpr hleft), takePair_of_pairError h]

/-- Settles O39: half a pair, or the first check that the pair at the cursor fails. -/
theorem dPairRejectsInOrder : Obligations.DPairRejectsInOrder := by
  refine fun s hph hbit hop hctrl => ⟨fun hleft => ⟨s.dst, ?_⟩, ?_⟩
  · rw [exec_dPair, execDPair, if_pos ⟨hph, hbit, hop, hctrl⟩, if_pos hleft]; rfl
  · rintro b0 b1 _ _ hleft h0 h1 rfl rfl
    rw [dPair_takes_fields hph ⟨hbit, hop, hctrl⟩ h0 h1]
    refine ⟨fun hrange => ⟨s.dst, ?_⟩, fun hdst hsrc hwin => ⟨s.dst, ?_⟩⟩
    · exact execMatchPair_of_pairError hph ⟨hbit, hop, hctrl⟩ hleft (pairError_range hrange)
    · exact execMatchPair_of_pairError hph ⟨hbit, hop, hctrl⟩ hleft (pairError_window hdst hsrc hwin)

/-! ### The copy of a match -/

/-- One byte of the copy (R187). -/
theorem execDCopy_of_read {s : State} {b : Byte} (hph : s.ph = .dCopy) (hi : s.i < s.len)
    (hb : s.dst.read (copySource s) = some b) (hcap : copyTarget s < s.caps.dst) :
    execDCopy s = .next { s with dst := s.dst.write (copyTarget s) b, i := s.i + 1 } := by
  rw [execDCopy, if_pos ⟨hph, hi⟩, hb]
  exact storeDst_of_lt b _ hcap

/-- Settles O40: one byte of the copy, and the frame of a write. -/
theorem dCopyCopiesOneByte : Obligations.DCopyCopiesOneByte := by
  intro s b hph hi hb hcap
  exact ⟨rfl, s.dst.write (copyTarget s) b, execDCopy_of_read hph hi hb hcap, Memory.read_write_same s.dst _ b,
    fun a ha => Memory.read_write_ne s.dst b ha⟩

/-- Settles O41: the selecting condition holds. -/
theorem dCopyendFinishesMatch : Obligations.DCopyendFinishesMatch :=
  fun _ hph hi => if_pos ⟨hph, hi⟩

/-- After `k` bytes of a copy that starts at `p` and reads `d` bytes back, `DST` holds `m` where it held `m0`: the copied
bytes repeat the `d` bytes before `p`, and no other byte has changed (R189). -/
structure CopiedPeriodically (m0 : Memory) (p d k : Nat) (m : Memory) : Prop where
  copied : ∀ j, j < k → m.read (p + j) = m0.read (p - d + j % d)
  frame : ∀ a, a < p ∨ p + k ≤ a → m.read a = m0.read a

/-- What the copy reads, `d` bytes back, is the next byte of the period: one from before the copy or one it has written
(R189). -/
theorem CopiedPeriodically.source {m0 m : Memory} {p d k j : Nat} (h : CopiedPeriodically m0 p d k m) (hd : 0 < d)
    (hp : d ≤ p) (hj : j ≤ k) : m.read (p - d + j) = m0.read (p - d + j % d) := by
  by_cases hjd : j < d
  · rw [h.frame _ (.inl (by omega)), Nat.mod_eq_of_lt hjd]
  · have hback : p - d + j = p + (j - d) := by omega
    rw [hback, h.copied _ (by omega), Nat.mod_eq_sub_mod (Nat.le_of_not_lt hjd)]

/-- One more byte of the period. -/
theorem CopiedPeriodically.write {m0 m : Memory} {p d k : Nat} {b : Byte} (h : CopiedPeriodically m0 p d k m)
    (hb : m0.read (p - d + k % d) = some b) : CopiedPeriodically m0 p d (k + 1) (m.write (p + k) b) where
  copied j hj := by
    rw [Memory.read_write]
    split
    · obtain rfl : j = k := by omega
      exact hb.symm
    · exact h.copied j (by omega)
  frame a ha := by
    rw [Memory.read_write_ne _ _ (by omega)]
    exact h.frame a (by omega)

theorem engineStep_of_copying {s : State} (hph : s.ph = .dCopy) (hi : s.i < s.len) : engineStep s = execDCopy s :=
  engineStep_of_selectOp (i := .dCopy) (by simp only [selectOp, hph, if_pos hi])

theorem engineStep_of_copied {s : State} (hph : s.ph = .dCopy) (hi : s.i = s.len) : engineStep s = execDCopyend s :=
  engineStep_of_selectOp (i := .dCopyend) (by simp [selectOp, hph, hi])

/-- Inside a copy: `k` bytes are copied, and `DST` holds `m`. -/
abbrev State.midCopy (s : State) (m : Memory) (k : Nat) : State := { s with dst := m, i := k }

/-- By induction on the bytes copied: `k` steps of D.COPY copy `k` bytes of the period (R187, R189). -/
theorem runEngine_copies {s : State} {d k : Nat} (hph : s.ph = .dCopy) (hi : s.i = 0) (hd : s.ws + s.off + d = s.op)
    (hpos : 0 < d) (hcap : s.op + s.len ≤ s.caps.dst) (hdst : ∀ a, a < s.op → s.dst.read a ≠ none) (hk : k ≤ s.len) :
    ∃ m, runEngine k s = .next (s.midCopy m k) ∧ CopiedPeriodically s.dst s.op d k m := by
  induction k with
  | zero =>
    have hstart : s.midCopy s.dst 0 = s := by rw [State.midCopy, ← hi]
    exact ⟨s.dst, hstart.symm ▸ rfl, nofun, fun _ _ => rfl⟩
  | succ k ih =>
    obtain ⟨m, hrun, hm⟩ := ih (Nat.le_of_succ_le hk)
    have hmod := Nat.mod_lt k hpos
    obtain ⟨b, hb⟩ := Option.ne_none_iff_exists'.mp (hdst (s.op - d + k % d) (by omega))
    have hsrc : s.ws + s.off + k = s.op - d + k := by omega
    have hread : m.read (s.ws + s.off + k) = some b := by
      rw [hsrc, hm.source hpos (by omega) (Nat.le_refl k), hb]
    have htarget : s.op + k < s.caps.dst := by omega
    have hstep := (engineStep_of_copying (s := s.midCopy m k) hph hk).trans (execDCopy_of_read hph hk hread htarget)
    exact ⟨_, (runEngine_add hrun).trans (runEngine_one hstep), hm.write hb⟩

/-- Settles O42: the bytes of the copy, and then D.COPYEND. -/
theorem matchCopyIsPeriodic : Obligations.MatchCopyIsPeriodic := by
  rintro s d hph hi hwin rfl hcap hdst
  obtain ⟨m, hrun, hm⟩ :=
    runEngine_copies (d := s.op - (s.ws + s.off)) hph hi (by omega) (by omega) hcap hdst (Nat.le_refl _)
  have hend := (engineStep_of_copied (s := s.midCopy m s.len) hph rfl).trans (if_pos ⟨hph, rfl⟩)
  exact ⟨m, (runEngine_add hrun).trans (runEngine_one hend), hm.copied, hm.frame⟩

end Sys2Proof.Machine

/-! PROOFS. A DECOMPRESS command's run (42_decoder.md R191, R192): the rest of `Decompress(C)` from a block or a token on,
turn by turn; then the machine, which from token to token and from block to block keeps the result of that rest. -/

namespace Sys2Proof.Machine

open Sys2Proof

/-! ### Failing turns of the inner loop -/

theorem decodeTokens_no_literal {n bit : Nat} {c : Byte} {out : List Byte} (hlt : out.length < n)
    (hctrl : ctrlBit c bit = false) (k : Nat) : decodeTokens n c (k + 1) bit [] out = .error .exhausted := by
  simp [decodeTokens, hlt, hctrl]

theorem decodeTokens_no_pair {n bit : Nat} {c : Byte} {rest out : List Byte} (hlt : out.length < n)
    (hctrl : ctrlBit c bit = true) (hshort : rest.length < 2) (k : Nat) :
    decodeTokens n c (k + 1) bit rest out = .error .exhausted := by
  match rest, hshort with
  | [], _ => simp [decodeTokens, hlt, hctrl]
  | [_], _ => simp [decodeTokens, hlt, hctrl]

theorem decodeTokens_illegal {n bit : Nat} {c b0 b1 : Byte} {out : List Byte} {code : FailCode} (hlt : out.length < n)
    (hctrl : ctrlBit c bit = true)
    (h : pairError n out.length (pairOffset (le16 b0 b1)) (pairLength (le16 b0 b1)) = some code) (k : Nat)
    (rest : List Byte) : decodeTokens n c (k + 1) bit (b0 :: b1 :: rest) out = .error code := by
  simp [decodeTokens, hlt, hctrl, h]

/-! ### The rest of the function -/

/-- The inner loop reads forward. -/
theorem decodeTokens_rest_le {n k bit : Nat} {c : Byte} {rest out rest' out' : List Byte}
    (h : decodeTokens n c k bit rest out = .ok (rest', out')) : rest'.length ≤ rest.length := by
  induction k generalizing bit rest out with
  | zero => cases h; exact Nat.le_refl _
  | succ k ih =>
    rcases decodeTokens_ok h with ⟨-, heq⟩ | ⟨-, -, b, rest1, rfl, hnext⟩ | ⟨-, -, b0, b1, rest1, rfl, -, hnext⟩
    · cases heq; exact Nat.le_refl _
    · exact Nat.le_succ_of_le (ih hnext)
    · exact Nat.le_add_right_of_le (k := 2) (ih hnext)

/-- More fuel than bytes changes nothing: each turn of the outer loop reads a control byte. -/
theorem decodeBlocks_fuel {n f g : Nat} {rest out : List Byte} (hf : rest.length ≤ f) (hg : rest.length ≤ g) :
    decodeBlocks n f rest out = decodeBlocks n g rest out := by
  by_cases hlt : out.length < n
  · induction f generalizing g rest out with
    | zero =>
      obtain rfl : rest = [] := List.length_eq_zero_iff.mp (Nat.le_zero.mp hf)
      cases g <;> simp [decodeBlocks, hlt]
    | succ f ih =>
      cases rest with
      | nil => cases g <;> simp [decodeBlocks, hlt]
      | cons c rest =>
        obtain ⟨g, rfl⟩ : ∃ g', g = g' + 1 := ⟨g - 1, by rw [List.length_cons] at hg; omega⟩
        rw [List.length_cons] at hf hg
        cases htokens : decodeTokens n c 8 0 rest out with
        | error code => simp [decodeBlocks, hlt, htokens]
        | ok mid =>
          have hle := decodeTokens_rest_le (rest' := mid.1) (out' := mid.2) htokens
          rw [decodeBlocks_block hlt htokens, decodeBlocks_block hlt htokens]
          by_cases hmore : mid.2.length < n
          · exact ih (by omega) (by omega) hmore
          · rw [decodeBlocks_complete (Nat.not_lt.mp hmore), decodeBlocks_complete (Nat.not_lt.mp hmore)]
  · rw [decodeBlocks_complete (Nat.not_lt.mp hlt), decodeBlocks_complete (Nat.not_lt.mp hlt)]

/-- The rest of `Decompress` at a block boundary, with `rest` to read and `out` produced (R191). -/
def blocksResult (n : Nat) (rest out : List Byte) : Except FailCode (List Byte) :=
  (decodeBlocks n rest.length rest out).map Prod.snd

/-- The rest of `Decompress` before token `bit` of a block under control byte `c` (R191). -/
def tokensResult (n : Nat) (c : Byte) (bit : Nat) (rest out : List Byte) : Except FailCode (List Byte) :=
  (decodeTokens n c (8 - bit) bit rest out).bind fun mid => blocksResult n mid.1 mid.2

theorem blocksResult_complete {n : Nat} {out : List Byte} (h : n ≤ out.length) (rest : List Byte) :
    blocksResult n rest out = .ok out := by
  rw [blocksResult, decodeBlocks_complete h]; rfl

theorem blocksResult_exhausted {n : Nat} {out : List Byte} (hlt : out.length < n) :
    blocksResult n [] out = .error .exhausted := by
  rw [blocksResult, List.length_nil, decodeBlocks, if_pos hlt]; rfl

theorem blocksResult_block {n : Nat} {out : List Byte} (hlt : out.length < n) (c : Byte) (rest : List Byte) :
    blocksResult n (c :: rest) out = tokensResult n c 0 rest out := by
  rw [blocksResult, tokensResult, List.length_cons, Nat.sub_zero]
  cases htokens : decodeTokens n c 8 0 rest out with
  | error code => simp only [decodeBlocks, if_pos hlt, htokens]; rfl
  | ok mid =>
    rw [decodeBlocks_block hlt htokens, decodeBlocks_fuel (decodeTokens_rest_le htokens) (Nat.le_refl _)]
    rfl

theorem tokensResult_end {n bit : Nat} {out : List Byte} (h : bit = 8 ∨ n ≤ out.length) (c : Byte) (rest : List Byte) :
    tokensResult n c bit rest out = blocksResult n rest out := by
  rw [tokensResult]
  rcases h with rfl | hn
  · rfl
  · rw [decodeTokens_complete hn]; rfl

section
variable {n bit : Nat} {c : Byte} {out : List Byte} (hbit : bit < 8) (hlt : out.length < n)
include hbit

theorem bits_left : 8 - bit = 8 - (bit + 1) + 1 := by omega

include hlt

theorem tokensResult_literal (hctrl : ctrlBit c bit = false) (b : Byte) (rest : List Byte) :
    tokensResult n c bit (b :: rest) out = tokensResult n c (bit + 1) rest (out ++ [b]) := by
  rw [tokensResult, bits_left hbit, decodeTokens_literal hlt hctrl, tokensResult]

theorem tokensResult_no_literal (hctrl : ctrlBit c bit = false) : tokensResult n c bit [] out = .error .exhausted := by
  rw [tokensResult, bits_left hbit, decodeTokens_no_literal hlt hctrl]; rfl

theorem tokensResult_pair {b0 b1 : Byte} (hctrl : ctrlBit c bit = true)
    (hlegal : pairError n out.length (pairOffset (le16 b0 b1)) (pairLength (le16 b0 b1)) = none) (rest : List Byte) :
    tokensResult n c bit (b0 :: b1 :: rest) out =
      tokensResult n c (bit + 1) rest
        (copyMatch (pairLength (le16 b0 b1)) (winStart out.length + pairOffset (le16 b0 b1)) out) := by
  rw [tokensResult, bits_left hbit, decodeTokens_pair hlt hctrl hlegal, tokensResult]

theorem tokensResult_no_pair {rest : List Byte} (hctrl : ctrlBit c bit = true) (hshort : rest.length < 2) :
    tokensResult n c bit rest out = .error .exhausted := by
  rw [tokensResult, bits_left hbit, decodeTokens_no_pair hlt hctrl hshort]; rfl

theorem tokensResult_illegal {b0 b1 : Byte} {code : FailCode} (hctrl : ctrlBit c bit = true)
    (h : pairError n out.length (pairOffset (le16 b0 b1)) (pairLength (le16 b0 b1)) = some code) (rest : List Byte) :
    tokensResult n c bit (b0 :: b1 :: rest) out = .error code := by
  rw [tokensResult, bits_left hbit, decodeTokens_illegal hlt hctrl h]; rfl

end

/-! ### The end of a command -/

/-- What a DECOMPRESS command leaves, by the function's result (R191, R223). -/
def DecompressOutcome (r : Except FailCode (List Byte)) (t : State) : Prop :=
  (∀ X, r = .ok X → callResult t = some (.ok X) ∧ t.err = .none) ∧
    ∀ code, r = .error code → callResult t = some (.error (errOf code)) ∧ t.dstLen = 0

/-- Within `bound` steps the engine comes to `HALT` with the outcome of the result `r`. -/
def State.DecodesWithin (s : State) (r : Except FailCode (List Byte)) (bound : Nat) : Prop :=
  ∃ (k : Nat) (t : State), k ≤ bound ∧ runEngine k s = .next t ∧ t.ph = .halt ∧ DecompressOutcome r t

/-- A run of `j` steps before one that ends. -/
theorem State.DecodesWithin.after {s u : State} {r : Except FailCode (List Byte)} {j bound bound' : Nat}
    (h : u.DecodesWithin r bound) (hrun : runEngine j s = .next u) (hle : j + bound ≤ bound') :
    s.DecodesWithin r bound' := by
  obtain ⟨k, t, hk, hend, hhalt, hout⟩ := h
  exact ⟨j + k, t, by omega, (runEngine_add hrun).trans hend, hhalt, hout⟩

theorem State.DecodesWithin.mono {s : State} {r : Except FailCode (List Byte)} {bound bound' : Nat}
    (h : s.DecodesWithin r bound) (hle : bound ≤ bound') : s.DecodesWithin r bound' :=
  h.after (j := 0) rfl (by omega)

/-- The step that raises an error ends the command (R246). -/
theorem State.decodesWithin_of_error {s u : State} {code : FailCode}
    (he : engineStep s = .next (enterError code u)) : s.DecodesWithin (.error code) 1 :=
  ⟨1, enterError code u, Nat.le_refl 1, runEngine_one he, rfl, nofun, by rintro _ ⟨⟩; exact ⟨rfl, rfl⟩⟩

/-! ### The input and the output -/

theorem exists_two_bytes {bs : List Byte} (h : 2 ≤ bs.length) : ∃ b0 b1 rest, bs = b0 :: b1 :: rest := by
  obtain ⟨b0, rest, rfl⟩ := List.exists_cons_of_length_pos (show 0 < bs.length by omega)
  rw [List.length_cons] at h
  obtain ⟨b1, rest, rfl⟩ := List.exists_cons_of_length_pos (show 0 < rest.length by omega)
  exact ⟨b0, b1, rest, rfl⟩

theorem exists_four_bytes {bs : List Byte} (h : 4 ≤ bs.length) :
    ∃ b0 b1 b2 b3 rest, bs = b0 :: b1 :: b2 :: b3 :: rest := by
  obtain ⟨b0, b1, rest, rfl⟩ := exists_two_bytes (show 2 ≤ bs.length by omega)
  rw [List.length_cons, List.length_cons] at h
  obtain ⟨b2, b3, rest, rfl⟩ := exists_two_bytes (show 2 ≤ rest.length by omega)
  exact ⟨b0, b1, b2, b3, rest, rfl⟩

theorem getElem?_of_drop {C rest : List Byte} {a : Nat} {b : Byte} (h : C.drop a = b :: rest) : C[a]? = some b := by
  simpa using congrArg List.head? h

theorem drop_succ_of_drop {C rest : List Byte} {a : Nat} {b : Byte} (h : C.drop a = b :: rest) : C.drop (a + 1) = rest := by
  rw [← List.drop_drop, h]; rfl

/-- The bytes of the input that are left are those in `SRC` from the cursor on. -/
theorem State.Holds.read_of_drop {s : State} {C rest : List Byte} {a : Nat} {b : Byte} (h : s.Holds C)
    (hdrop : C.drop a = b :: rest) : s.src.read a = some b := by
  have hb := getElem?_of_drop hdrop
  rw [h.2.2 a (List.getElem?_eq_some_iff.mp hb).1, hb]

/-- One byte behind a written part extends it. -/
theorem range_of_next {m m' : Memory} {p : Nat} {out : List Byte} {b : Byte} (h : m.range 0 p = some out)
    (hb : m'.read p = some b) (hframe : ∀ a, a ≠ p → m'.read a = m.read a) : m'.range 0 (p + 1) = some (out ++ [b]) := by
  have hbelow : m'.range 0 p = some out := (Memory.range_congr fun j hj => hframe _ (by omega)).trans h
  exact Memory.range_append hbelow (by simp [Memory.range, hb])

/-- The bytes of a copy are those of the function's (R187, R189, R191). -/
theorem CopiedPeriodically.range_eq {m0 m : Memory} {p d k : Nat} {out : List Byte} (h : CopiedPeriodically m0 p d k m)
    (hd : 0 < d) (hp : d ≤ p) (hout : m0.range 0 p = some out) : m.range 0 (p + k) = some (copyMatch k (p - d) out) := by
  obtain ⟨hlen, hread⟩ := Memory.range_eq_some.mp hout
  have hsome : ∀ a, a < p → m0.read a ≠ none := fun a ha => by
    rw [← Nat.zero_add a, hread a ha, List.getElem?_eq_getElem (by omega)]; nofun
  obtain ⟨X, hX⟩ : ∃ X, m.range 0 (p + k) = some X := by
    refine Memory.range_isSome fun j hj => ?_
    rw [Nat.zero_add]
    by_cases hjp : j < p
    · rw [h.frame j (.inl hjp)]; exact hsome j hjp
    · have hmod := Nat.mod_lt (j - p) hd
      rw [← Nat.add_sub_cancel' (Nat.le_of_not_lt hjp), h.copied _ (by omega)]
      exact hsome _ (by omega)
  obtain ⟨hXlen, hXread⟩ := Memory.range_eq_some.mp hX
  simp only [Nat.zero_add] at hXread hread
  have hprefix : out = X.take p := by
    refine List.ext_getElem? fun a => ?_
    by_cases ha : a < p
    · rw [← hread a ha, List.getElem?_take_of_lt ha, ← hXread a (by omega), h.frame a (.inl ha)]
    · rw [List.getElem?_eq_none (by omega), List.getElem?_eq_none (by rw [List.length_take]; omega)]
  have hperiod : ∀ j, j < k → X[p - d + j]? = X[p + j]? := fun j hj => by
    rw [← hXread _ (by omega), ← hXread _ (by omega), h.source hd hp (Nat.le_of_lt hj), h.copied j hj]
  rw [hX, hprefix, copyMatch_eq_take (by omega) (Nat.le_of_eq hXlen.symm) hperiod, ← hXlen, List.take_length]

/-! ### The command under way -/

/-- A DECOMPRESS command on `C` is under way, between blocks or between tokens, and has produced `out` (R37, R191). -/
structure State.Decoding (s : State) (C out : List Byte) : Prop where
  run : s.RunInv
  holds : s.Holds C
  between : s.ph = .dCtrl ∨ s.ph = .dToken
  output : s.dst.range 0 s.op = some out

section
variable {s : State} {C out : List Byte} (h : s.Decoding C out)
include h

theorem State.Decoding.decoderInv : s.DecoderInv :=
  h.run.decoder (by rcases h.between with hph | hph <;> rw [hph] <;> rfl)

theorem State.Decoding.m_eq : s.m = C.length := h.decoderInv.m_eq.trans h.holds.1

theorem State.Decoding.length_eq : out.length = s.op := (Memory.range_eq_some.mp h.output).1

/-- The bounds and the written part of R37. -/
theorem State.Decoding.bounds : s.op ≤ s.n ∧ s.n ≤ s.caps.dst ∧ ∀ a, a < s.op → s.dst.read a ≠ none := by
  obtain ⟨-, -, hop, hcap, -, hwritten⟩ :=
    h.decoderInv.cursors (by rcases h.between with hph | hph <;> rw [hph] <;> nofun)
  exact ⟨hop, hcap, hwritten⟩

theorem State.Decoding.err_eq : s.err = .none := by
  have hph : s.ph ≠ .halt := by rcases h.between with hph | hph <;> rw [hph] <;> nofun
  exact h.run.port.err_iff.mpr (by rw [h.run.port.busy_iff.mpr hph]; nofun)

/-- A run to the next place between blocks or tokens. -/
theorem State.Decoding.of_runEngine {k : Nat} {t : State} {out' : List Byte} (hrun : runEngine k s = .next t)
    (hbetween : t.ph = .dCtrl ∨ t.ph = .dToken) (hout : t.dst.range 0 t.op = some out') : t.Decoding C out' :=
  ⟨h.run.of_runEngine hrun, h.holds.of_keepsSource (runEngine_keepsSource hrun), hbetween, hout⟩

/-- As many bytes are left as `M` and `IP` say. -/
theorem State.Decoding.length_drop : (C.drop s.ip).length = s.m - s.ip := by rw [List.length_drop, h.m_eq]

end

/-! ### Blocks -/

theorem engineStep_of_dCtrl {s : State} (h : s.ph = .dCtrl) : engineStep s = exec .dCtrl s :=
  engineStep_of_selectOp (by rw [selectOp, h])

theorem engineStep_of_endblock {s : State} (h : s.ph = .dToken) (hend : s.bit = 8 ∨ s.op = s.n) :
    engineStep s = exec .dEndblock s :=
  engineStep_of_selectOp (by simp only [selectOp, h, if_pos hend])

/-- What is left of `Decompress(C)` in `D_TOKEN`. -/
abbrev State.tokensLeft (s : State) (C out : List Byte) : Except FailCode (List Byte) :=
  tokensResult s.n s.ctrl s.bit (C.drop s.ip) out

/-- What is left of `Decompress(C)` in `D_CTRL`. -/
abbrev State.blocksLeft (s : State) (C out : List Byte) : Except FailCode (List Byte) :=
  blocksResult s.n (C.drop s.ip) out

/-- D.CTRL with all output produced: the command is complete (R182). -/
theorem State.Decoding.completes {s : State} {C out : List Byte} (h : s.Decoding C out) (hph : s.ph = .dCtrl)
    (hend : s.op = s.n) : s.DecodesWithin (s.blocksLeft C out) 1 := by
  have he := (engineStep_of_dCtrl hph).trans ((dCtrlReadsControlByte s hph).1 hend)
  rw [State.blocksLeft, blocksResult_complete (by rw [h.length_eq, hend])]
  refine ⟨1, _, Nat.le_refl 1, runEngine_one he, rfl, ?_, nofun⟩
  rintro _ ⟨⟩
  refine ⟨?_, h.err_eq⟩
  rw [callResult]
  dsimp only
  rw [← hend, h.output]
  rfl

/-- D.CTRL with output missing: no control byte is left, or a block begins (R182). -/
theorem State.Decoding.beginsBlock {s : State} {C out : List Byte} (h : s.Decoding C out) (hph : s.ph = .dCtrl)
    (hlt : s.op < s.n) : s.DecodesWithin (s.blocksLeft C out) 1 ∨
      ∃ t, engineStep s = .next t ∧ t.Decoding C out ∧ t.ph = .dToken ∧ t.bit = 0 ∧ t.op = s.op ∧ t.n = s.n ∧
        t.tokensLeft C out = s.blocksLeft C out := by
  have hmore : s.op ≠ s.n := Nat.ne_of_lt hlt
  have hout : out.length < s.n := h.length_eq ▸ hlt
  have hleft := h.length_drop
  cases hin : C.drop s.ip with
  | nil =>
    rw [hin, List.length_nil] at hleft
    obtain ⟨d, hd⟩ := (dCtrlReadsControlByte s hph).2.1 hmore (by omega)
    rw [State.blocksLeft, hin, blocksResult_exhausted hout]
    exact .inl (State.decodesWithin_of_error (u := { s with dst := d }) ((engineStep_of_dCtrl hph).trans hd))
  | cons c rest =>
    rw [hin, List.length_cons] at hleft
    have he := (engineStep_of_dCtrl hph).trans
      ((dCtrlReadsControlByte s hph).2.2 c hmore (by omega) (h.holds.read_of_drop hin))
    refine .inr ⟨_, he, h.of_runEngine (runEngine_one he) (.inr rfl) h.output, rfl, rfl, rfl, rfl, ?_⟩
    rw [State.tokensLeft, State.blocksLeft, hin, blocksResult_block hout, ← drop_succ_of_drop hin]

/-- D.ENDBLOCK (R183). -/
theorem State.Decoding.leavesBlock {s : State} {C out : List Byte} (h : s.Decoding C out) (hph : s.ph = .dToken)
    (hend : s.bit = 8 ∨ s.op = s.n) : ∃ t, engineStep s = .next t ∧ t.Decoding C out ∧ t.ph = .dCtrl ∧ t.op = s.op ∧
      t.n = s.n ∧ t.blocksLeft C out = s.tokensLeft C out := by
  have he := (engineStep_of_endblock hph hend).trans (dEndblockLeavesBlock s hph hend)
  refine ⟨_, he, h.of_runEngine (runEngine_one he) (.inl rfl) h.output, rfl, rfl, rfl, ?_⟩
  exact (tokensResult_end (hend.imp_right fun hn => by rw [h.length_eq, hn]) s.ctrl _).symm

/-! ### Tokens -/

/-- A token is next (R183). -/
def State.AtToken (s : State) : Prop := s.ph = .dToken ∧ s.bit < 8 ∧ s.op < s.n

/-- The next token ends the command with an error, or some steps produce its bytes: few enough that, with two more to leave
the block and begin the next, there are at most five for each byte (R192). -/
def State.TakesToken (s : State) (C out : List Byte) : Prop :=
  s.DecodesWithin (s.tokensLeft C out) 1 ∨
    ∃ k t out', runEngine k s = .next t ∧ t.Decoding C out' ∧ t.ph = .dToken ∧ t.n = s.n ∧ s.op < t.op ∧
      k + 2 ≤ 5 * (t.op - s.op) ∧ t.tokensLeft C out' = s.tokensLeft C out

theorem engineStep_of_literal {s : State} (h : s.AtToken) (hctrl : ctrlBit s.ctrl s.bit = false) :
    engineStep s = exec .dLit s := by
  obtain ⟨hph, hbit, hop⟩ := h
  exact engineStep_of_selectOp ((selectOp_of_dToken hph hbit hop).trans (by rw [hctrl]; rfl))

theorem engineStep_of_pair {s : State} (h : s.AtToken) (hctrl : ctrlBit s.ctrl s.bit = true) :
    engineStep s = exec .dPair s := by
  obtain ⟨hph, hbit, hop⟩ := h
  exact engineStep_of_selectOp ((selectOp_of_dToken hph hbit hop).trans (if_pos hctrl))

/-- D.LIT (R184). -/
theorem State.Decoding.takesLiteral {s : State} {C out : List Byte} (h : s.Decoding C out) (hat : s.AtToken)
    (hctrl : ctrlBit s.ctrl s.bit = false) : s.TakesToken C out := by
  have hstep := engineStep_of_literal hat hctrl
  obtain ⟨hph, hbit, hop⟩ := hat
  have hout : out.length < s.n := h.length_eq ▸ hop
  have hleft := h.length_drop
  obtain ⟨hfail, htake⟩ := dLitCopiesByte s hph hbit hop hctrl
  cases hin : C.drop s.ip with
  | nil =>
    rw [hin, List.length_nil] at hleft
    obtain ⟨d, hd⟩ := hfail (by omega)
    rw [State.TakesToken, State.tokensLeft, hin, tokensResult_no_literal hbit hout hctrl]
    exact .inl (State.decodesWithin_of_error (u := { s with dst := d }) (hstep.trans hd))
  | cons b rest =>
    rw [hin, List.length_cons] at hleft
    obtain ⟨-, hcap, -⟩ := h.bounds
    obtain ⟨d, hd, hb, hframe⟩ := htake b (by omega) (h.holds.read_of_drop hin) (by omega)
    have hrun := runEngine_one (hstep.trans hd)
    refine .inr ⟨1, _, out ++ [b], hrun, h.of_runEngine hrun (.inr hph) (range_of_next h.output hb hframe), hph, rfl,
      Nat.lt_succ_self _, by dsimp only; omega, ?_⟩
    rw [State.tokensLeft, State.tokensLeft, hin, tokensResult_literal hbit hout hctrl, ← drop_succ_of_drop hin]

/-- After D.PAIR on a legal pair: the copy and D.COPYEND (R187 to R189). -/
theorem State.Decoding.copiesMatch {s : State} {C out : List Byte} {o l : Nat} (h : s.Decoding C out)
    (he : engineStep s = .next (s.copyBegun o l))
    (hrest : s.tokensLeft C out =
      tokensResult s.n s.ctrl (s.bit + 1) (C.drop (s.ip + 2)) (copyMatch l (winStart s.op + o) out)) :
    s.TakesToken C out := by
  obtain ⟨-, hcap, hwritten⟩ := h.bounds
  obtain ⟨-, hl3, -, hdst, -, hwin, -, -⟩ := ((h.run.engineStep he).decoder rfl).copy rfl
  dsimp only at hl3 hdst hwin
  obtain ⟨m, hcopy, hcopied, hframe⟩ :=
    matchCopyIsPeriodic (s.copyBegun o l) _ rfl rfl hwin rfl (Nat.le_trans hdst hcap) hwritten
  have hrange := CopiedPeriodically.range_eq ⟨hcopied, hframe⟩ (Nat.sub_pos_of_lt hwin) (Nat.sub_le _ _) h.output
  rw [Nat.sub_sub_self (Nat.le_of_lt hwin)] at hrange
  have hrun := (runEngine_add (runEngine_one he)).trans hcopy
  refine .inr ⟨_, _, _, hrun, h.of_runEngine hrun (.inr rfl) hrange, rfl, rfl, ?_, ?_, hrest.symm⟩
  · dsimp only; omega
  · dsimp only; omega

/-- D.PAIR: fewer than two bytes are left, or the pair fails a check, or it is copied (R185, R186). -/
theorem State.Decoding.takesPair {s : State} {C out : List Byte} (h : s.Decoding C out) (hat : s.AtToken)
    (hctrl : ctrlBit s.ctrl s.bit = true) : s.TakesToken C out := by
  have hstep := engineStep_of_pair hat hctrl
  obtain ⟨hph, hbit, hop⟩ := hat
  have hout : out.length < s.n := h.length_eq ▸ hop
  have hleft := h.length_drop
  by_cases hshort : (C.drop s.ip).length < 2
  · obtain ⟨d, hd⟩ := (dPairRejectsInOrder s hph hbit hop hctrl).1 (by omega)
    rw [State.TakesToken, State.tokensLeft, tokensResult_no_pair hbit hout hctrl hshort]
    exact .inl (State.decodesWithin_of_error (u := { s with dst := d }) (hstep.trans hd))
  · obtain ⟨b0, b1, rest, hin⟩ := exists_two_bytes (Nat.le_of_not_lt hshort)
    have hrange := range_two (h.holds.read_of_drop hin) (h.holds.read_of_drop (drop_succ_of_drop hin))
    have hpair := hstep.trans (dPair_takes hph ⟨hbit, hop, hctrl⟩ hrange)
    cases hcheck : pairError s.n s.op (pairOffset (le16 b0 b1)) (pairLength (le16 b0 b1)) with
    | some code =>
      rw [State.TakesToken, State.tokensLeft, hin,
        tokensResult_illegal hbit hout hctrl (by rw [h.length_eq]; exact hcheck)]
      have hfail := execMatchPair_of_pairError hph ⟨hbit, hop, hctrl⟩ (by omega) hcheck
      exact .inl (State.decodesWithin_of_error (hpair.trans hfail))
    | none =>
      rw [execMatchPair_of_dToken _ _ hph ⟨hbit, hop, hctrl⟩, if_neg (by omega), takePair_of_legal hcheck] at hpair
      refine h.copiesMatch hpair ?_
      rw [State.tokensLeft, hin, tokensResult_pair hbit hout hctrl (by rw [h.length_eq]; exact hcheck), h.length_eq,
        ← drop_succ_of_drop (drop_succ_of_drop hin)]

theorem State.Decoding.takesToken {s : State} {C out : List Byte} (h : s.Decoding C out) (hat : s.AtToken) :
    s.TakesToken C out := by
  cases hctrl : ctrlBit s.ctrl s.bit with
  | false => exact h.takesLiteral hat hctrl
  | true => exact h.takesPair hat hctrl

/-! ### The whole command -/

/-- With a token next and `left` bytes of output missing, at most five steps for each of them end the command (R192). -/
def TokensDecode (C : List Byte) (left : Nat) : Prop :=
  ∀ (s : State) (out : List Byte), s.Decoding C out → s.AtToken → s.n - s.op = left →
    s.DecodesWithin (s.tokensLeft C out) (5 * left)

theorem State.Decoding.decodesWithin_dCtrl {s : State} {C out : List Byte} (h : s.Decoding C out) (hph : s.ph = .dCtrl)
    (htokens : TokensDecode C (s.n - s.op)) : s.DecodesWithin (s.blocksLeft C out) (1 + 5 * (s.n - s.op)) := by
  by_cases hend : s.op = s.n
  · exact (h.completes hph hend).mono (by omega)
  · have hlt : s.op < s.n := Nat.lt_of_le_of_ne h.bounds.1 hend
    rcases h.beginsBlock hph hlt with hfail | ⟨t, ht, hdec, htoken, hbit, hop, hn, heq⟩
    · exact hfail.mono (by omega)
    · have hat : t.AtToken := ⟨htoken, by omega, by omega⟩
      exact heq ▸ (htokens t out hdec hat (by omega)).after (runEngine_one ht) (Nat.le_refl _)

theorem State.Decoding.decodesWithin_dToken {s : State} {C out : List Byte} (h : s.Decoding C out) (hph : s.ph = .dToken)
    (htokens : TokensDecode C (s.n - s.op)) : s.DecodesWithin (s.tokensLeft C out) (2 + 5 * (s.n - s.op)) := by
  by_cases hend : s.bit = 8 ∨ s.op = s.n
  · obtain ⟨t, ht, hdec, hctrl, hop, hn, heq⟩ := h.leavesBlock hph hend
    exact heq ▸ (hdec.decodesWithin_dCtrl hctrl (by rwa [hop, hn])).after (runEngine_one ht) (by rw [hop, hn]; omega)
  · have hbit := h.decoderInv.bits (.inl hph)
    have hop := h.bounds.1
    exact (htokens s out h ⟨hph, by omega, by omega⟩ rfl).mono (by omega)

/-- By induction on the output missing: one token, and then the rest of its block or the next block. -/
theorem tokensDecode (C : List Byte) (left : Nat) : TokensDecode C left := by
  induction left using Nat.strong_induction_on with
  | _ left ih =>
    rintro s out h hat rfl
    have hlt : s.op < s.n := hat.2.2
    rcases h.takesToken hat with hfail | ⟨k, t, out', hrun, hdec, htoken, hn, hop, hk, heq⟩
    · exact hfail.mono (by omega)
    · have hle := hdec.bounds.1
      have hrest := hdec.decodesWithin_dToken htoken (ih (t.n - t.op) (by omega))
      exact heq ▸ hrest.after hrun (by omega)

theorem decompressWithin_short {cap : Nat} {C : List Byte} (h : C.length < 4) :
    decompressWithin cap C = .error .header := by
  match C, h with
  | [], _ => rfl
  | [_], _ => rfl
  | [_, _], _ => rfl
  | [_, _, _], _ => rfl
  | _ :: _ :: _ :: _ :: _, h => simp only [List.length_cons] at h; omega

theorem engineStep_of_dHeader {s : State} (h : s.ph = .dHeader) : engineStep s = exec .dHeader s :=
  engineStep_of_selectOp (by rw [selectOp, h])

/-- D.HEADER: there is no header, or it announces more than fits, or the first block comes (R181). -/
theorem startDecompress_decodesWithin {s : State} {C : List Byte} (h : s.RunInv) (hC : s.Holds C) (hph : s.ph = .dHeader) :
    s.DecodesWithin (decompressWithin s.caps.dst C) (2 + 5 * announced C) := by
  have hstep := engineStep_of_dHeader hph
  have hm : s.m = C.length := (h.decoder (by rw [hph]; rfl)).m_eq.trans hC.1
  obtain ⟨hshort, hfull⟩ := dHeaderReadsLength s hph
  by_cases hlen : C.length < 4
  · obtain ⟨d, hd⟩ := hshort (by omega)
    rw [decompressWithin_short hlen]
    have hfail := State.decodesWithin_of_error (code := .header) (u := { s with dst := d }) (hstep.trans hd)
    exact hfail.mono (by omega)
  · obtain ⟨b0, b1, b2, b3, rest, rfl⟩ : ∃ b0 b1 b2 b3 rest, C = b0 :: b1 :: b2 :: b3 :: rest :=
      exists_four_bytes (Nat.le_of_not_lt hlen)
    obtain ⟨hfits, htoo⟩ := hfull b0 b1 b2 b3 (by omega) (hC.read_of_drop (a := 0) rfl) (hC.read_of_drop (a := 1) rfl)
      (hC.read_of_drop (a := 2) rfl) (hC.read_of_drop (a := 3) rfl) _ rfl
    by_cases hcap : s.caps.dst < le32 b0 b1 b2 b3
    · obtain ⟨d, hd⟩ := htoo hcap
      have hresult : decompressWithin s.caps.dst (b0 :: b1 :: b2 :: b3 :: rest) = .error .capacity := if_pos hcap
      rw [hresult]
      have hfail := State.decodesWithin_of_error (code := .capacity)
        (u := { s with n := le32 b0 b1 b2 b3, ip := 4, op := 0, dst := d }) (hstep.trans hd)
      exact hfail.mono (by omega)
    · have he := hstep.trans (hfits (Nat.le_of_not_lt hcap))
      have hresult : decompressWithin s.caps.dst (b0 :: b1 :: b2 :: b3 :: rest) = blocksResult (le32 b0 b1 b2 b3) rest [] :=
        if_neg hcap
      have hdec : State.Decoding _ (b0 :: b1 :: b2 :: b3 :: rest) [] :=
        ⟨h.engineStep he, hC.of_keepsSource (engineStep_keepsSource he), .inl rfl, rfl⟩
      rw [hresult]
      exact (hdec.decodesWithin_dCtrl rfl (tokensDecode _ _)).after (runEngine_one he) (by simp [announced, le32]; omega)

/-- Settles O43: the command starts a run that ends with the outcome. -/
theorem decompressCommandComputesDecompress : Obligations.DecompressCommandComputesDecompress := by
  intro s C hidle hC
  have hle : s.srcLen ≤ s.caps.src.toNat := hC.1 ▸ hC.2.1
  have hstart : exec .cmdDecompress s = .next { startCommand s with m := s.srcLen, ip := 0, op := 0, ph := .dHeader } := by
    rw [exec_cmdDecompress, execCmdDecompress, if_neg hidle, if_neg (Nat.not_lt.mpr hle)]
  obtain ⟨k, t, hk, hrun, hhalt, hok, herror⟩ := startDecompress_decodesWithin (runInv_startDecompress hle) hC rfl
  exact ⟨k, t, hk, by rw [runCommand, hstart]; exact hrun, hhalt, hok, herror⟩

end Sys2Proof.Machine

/-! PROOFS. Round trip and truncation (43_commands.md R228, R233): `Compress` writes a valid parse, which decodes to its source and
leaves nothing unread; and input that decodes without running out decodes the same with more input behind it. -/

namespace Sys2Proof.Machine

open Sys2Proof

/-- The answer of a loop of `Decompress` with `T` behind the input it has not read. -/
def withTail (T : List Byte) (r : Except FailCode (List Byte × List Byte)) : Except FailCode (List Byte × List Byte) :=
  r.map fun left => (left.1 ++ T, left.2)

/-- A loop of `Decompress` that answers with `T` behind it and leaves nothing has read `T`. -/
theorem withTail_eq_ok_nil {T X : List Byte} {r : Except FailCode (List Byte × List Byte)}
    (h : withTail T r = .ok ([], X)) : T = [] := by
  cases r with
  | error code => cases h
  | ok left =>
    have hleft : left.1 ++ T = [] := congrArg Prod.fst (Except.ok.inj h)
    exact (List.append_eq_nil_iff.mp hleft).2

/-- By induction on the turns: an inner loop that does not run out of input is the same with more input behind (R102). -/
theorem decodeTokens_append {n k bit : Nat} {c : Byte} {rest out : List Byte} (T : List Byte)
    (h : decodeTokens n c k bit rest out ≠ .error .exhausted) :
    decodeTokens n c k bit (rest ++ T) out = withTail T (decodeTokens n c k bit rest out) := by
  induction k generalizing bit rest out with
  | zero => rfl
  | succ k ih =>
    rcases Nat.lt_or_ge out.length n with hlt | hge
    · cases hctrl : ctrlBit c bit with
      | false =>
        cases rest with
        | nil => exact absurd (decodeTokens_no_literal hlt hctrl k) h
        | cons b rest =>
          rw [decodeTokens_literal hlt hctrl] at h
          rw [List.cons_append, decodeTokens_literal hlt hctrl, decodeTokens_literal hlt hctrl, ih h]
      | true =>
        rcases Nat.lt_or_ge rest.length 2 with hshort | henough
        · exact absurd (decodeTokens_no_pair hlt hctrl hshort k) h
        · obtain ⟨b0, b1, rest, rfl⟩ := exists_two_bytes henough
          rw [List.cons_append, List.cons_append]
          cases hlegal : pairError n out.length (pairOffset (le16 b0 b1)) (pairLength (le16 b0 b1)) with
          | some code => rw [decodeTokens_illegal hlt hctrl hlegal, decodeTokens_illegal hlt hctrl hlegal]; rfl
          | none =>
            rw [decodeTokens_pair hlt hctrl hlegal] at h
            rw [decodeTokens_pair hlt hctrl hlegal, decodeTokens_pair hlt hctrl hlegal, ih h]
    · rw [decodeTokens_complete hge, decodeTokens_complete hge]; rfl

/-- A block that fails ends the outer loop (R191). -/
theorem decodeBlocks_block_error {n : Nat} {c : Byte} {rest out : List Byte} {code : FailCode} (hlt : out.length < n)
    (h : decodeTokens n c 8 0 rest out = .error code) (fuel : Nat) :
    decodeBlocks n (fuel + 1) (c :: rest) out = .error code := by
  simp only [decodeBlocks, if_pos hlt, h]

/-- By induction on the fuel: an outer loop that does not run out of input is the same with more input behind (R102). -/
theorem decodeBlocks_append {n fuel : Nat} {rest out : List Byte} (T : List Byte)
    (h : decodeBlocks n fuel rest out ≠ .error .exhausted) :
    decodeBlocks n fuel (rest ++ T) out = withTail T (decodeBlocks n fuel rest out) := by
  induction fuel generalizing rest out with
  | zero =>
    have hge : n ≤ out.length := Nat.not_lt.mp fun hlt => h (if_pos hlt)
    rw [decodeBlocks_complete hge, decodeBlocks_complete hge]; rfl
  | succ fuel ih =>
    rcases Nat.lt_or_ge out.length n with hlt | hge
    · cases rest with
      | nil => exact absurd (if_pos hlt) h
      | cons c rest =>
        have hblock := decodeTokens_append (n := n) (k := 8) (bit := 0) (c := c) (rest := rest) (out := out) T
        rw [List.cons_append]
        cases htokens : decodeTokens n c 8 0 rest out with
        | error code =>
          rw [decodeBlocks_block_error hlt htokens] at h ⊢
          rw [htokens] at hblock
          exact decodeBlocks_block_error hlt (hblock h) fuel
        | ok mid =>
          rw [decodeBlocks_block hlt htokens] at h ⊢
          rw [htokens] at hblock
          rw [decodeBlocks_block hlt (hblock nofun), ih h]
    · rw [decodeBlocks_complete hge, decodeBlocks_complete hge]; rfl

/-- `Decompress` on input that holds a header and does not run out is the same with more input behind (R102). -/
theorem decompressRest_append {C : List Byte} (T : List Byte) (hheader : 4 ≤ C.length)
    (h : decompressRest C ≠ .error .exhausted) : decompressRest (C ++ T) = withTail T (decompressRest C) := by
  obtain ⟨b0, b1, b2, b3, rest, rfl⟩ := exists_four_bytes hheader
  have hrest : decompressRest (b0 :: b1 :: b2 :: b3 :: rest) =
      decodeBlocks (le32 b0 b1 b2 b3) (rest ++ T).length rest [] :=
    decodeBlocks_fuel (Nat.le_refl _) (by rw [List.length_append]; exact Nat.le_add_right _ _)
  rw [hrest] at h ⊢
  exact decodeBlocks_append T h

/-- A stream that decodes and leaves nothing runs out of input wherever it is cut behind its header (R111). -/
theorem decompressRest_of_cut {C T X : List Byte} (hheader : 4 ≤ C.length) (hT : T ≠ [])
    (h : decompressRest (C ++ T) = .ok ([], X)) : decompressRest C = .error .exhausted := by
  by_contra hne
  exact hT (withTail_eq_ok_nil ((decompressRest_append T hheader hne).symm.trans h))

theorem decompress_eq_error {C : List Byte} {code : FailCode} (h : decompressRest C = .error code) :
    decompress C = .error code := by
  rw [decompress, h]; rfl

/-- `Compress(S)` decodes to `S` and leaves nothing unread (R111, R228). -/
theorem decompressRest_compress {S : List Byte} (hS : S.length < 2 ^ 32) : decompressRest (compress S) = .ok ([], S) := by
  rw [compressIsBytesOfTokens S]
  exact decompressRest_validParse hS (validParse_tokens S)

/-- Behind the header of `Compress(S)` there is a block when `S` has a byte (R156). -/
theorem four_lt_length_compress {S : List Byte} (hS : 1 ≤ S.length) : 4 < (compress S).length := by
  have htokens : 0 < (tokens S).length := List.length_pos_iff.mpr (tokensAt_ne_nil_iff.mpr hS)
  rw [compressIsBytesOfTokens S, streamBytes, List.length_append, bytes32_length, length_blockBytes (Nat.le_refl _)]
  omega

/-- Settles O46: the byte form of the greedy parse decodes to its source. -/
theorem decompressUndoesCompress : Obligations.DecompressUndoesCompress :=
  fun _ hS => decompress_eq_ok.mpr ⟨[], decompressRest_compress hS⟩

/-- Settles O47: `Compress(S)` is read to its last byte, so without that byte it runs out; an empty source's header is cut. -/
theorem truncatedStreamRejected : Obligations.TruncatedStreamRejected := by
  refine fun S hS => ⟨fun hpos => ?_, fun hempty => ?_⟩
  · have hlen := four_lt_length_compress hpos
    have hne : compress S ≠ [] := List.ne_nil_of_length_pos (by omega)
    have hcut := decompressRest_compress hS
    rw [← List.dropLast_append_getLast hne] at hcut
    exact decompress_eq_error
      (decompressRest_of_cut (by rw [List.length_dropLast]; omega) (List.cons_ne_nil _ _) hcut)
  · obtain rfl := List.length_eq_zero_iff.mp hempty
    rfl

end Sys2Proof.Machine

/-! PROOFS. The host's commands (43_commands.md R221 to R225): where a command is enabled it starts clean, while BUSY no write of
`CMD` or `SRC_LEN` has an effect, and the other writes of `CMD` are refused. -/

namespace Sys2Proof.Machine

open Sys2Proof

theorem execCmdCompress_of_enabled {s : State} (hidle : s.status ≠ .busy) (hlen : s.srcLen ≤ s.caps.src.toNat) :
    execCmdCompress s = .next { startCommand s with n := s.srcLen, r := 0, ph := .cHeader } := by
  rw [execCmdCompress, if_neg hidle, if_neg (Nat.not_lt.mpr hlen)]

theorem execCmdCompress_of_busy {s : State} (h : s.status = .busy) : execCmdCompress s = .next s := if_pos h

theorem execCmdCompress_of_above_cap {s : State} (hidle : s.status ≠ .busy) (hlen : s.caps.src.toNat < s.srcLen) :
    execCmdCompress s = .refused .srcLenAboveCap := by
  rw [execCmdCompress, if_neg hidle, if_pos hlen]

theorem execCmdDecompress_of_enabled {s : State} (hidle : s.status ≠ .busy) (hlen : s.srcLen ≤ s.caps.src.toNat) :
    execCmdDecompress s = .next { startCommand s with m := s.srcLen, ip := 0, op := 0, ph := .dHeader } := by
  rw [execCmdDecompress, if_neg hidle, if_neg (Nat.not_lt.mpr hlen)]

theorem execCmdDecompress_of_busy {s : State} (h : s.status = .busy) : execCmdDecompress s = .next s := if_pos h

theorem execCmdDecompress_of_above_cap {s : State} (hidle : s.status ≠ .busy) (hlen : s.caps.src.toNat < s.srcLen) :
    execCmdDecompress s = .refused .srcLenAboveCap := by
  rw [execCmdDecompress, if_neg hidle, if_pos hlen]

theorem execCmdReserved_of_busy (code : BitVec 2) {s : State} (h : s.status = .busy) :
    execCmdReserved code s = .next s := if_pos h

theorem execCmdReserved_of_idle (code : BitVec 2) {s : State} (h : s.status ≠ .busy) :
    execCmdReserved code s = .refused .reservedCommand := if_neg h

theorem hostWriteSrcLen_of_busy (v : BitVec 32) {s : State} (h : s.status = .busy) :
    hostWriteSrcLen v s = .next s := if_pos h

/-- While BUSY a write of `CMD` has no effect, whatever its code (R225). -/
theorem exec_commandOf_of_busy (code : BitVec 2) {s : State} (h : s.status = .busy) :
    exec (commandOf code) s = .next s := by
  unfold commandOf
  split
  case isTrue => exact execCmdCompress_of_busy h
  case isFalse =>
    split
    case isTrue => exact execCmdDecompress_of_busy h
    case isFalse => exact execCmdReserved_of_busy code h

theorem commandOf_reserved {code : BitVec 2} (h : code = 0#2 ∨ code = 3#2) : commandOf code = .cmdReserved code := by
  rcases h with rfl | rfl <;> rfl

theorem popHost_of_cons {s : State} {move : HostMove} {moves : List HostMove} (h : s.host = move :: moves) :
    popHost s = { s with host := moves } := by
  rw [popHost, h, List.tail_cons]

/-- Settles O14: the command enabled, BUSY, and with `SRC_LEN` above `SRC_CAP`. -/
theorem compressCommandStarts : Obligations.CompressCommandStarts :=
  fun _ =>
    ⟨fun hidle hlen => ⟨_, execCmdCompress_of_enabled hidle hlen, rfl, rfl, rfl, rfl, rfl, rfl, Memory.read_nil, rfl, rfl,
        rfl, rfl⟩,
      execCmdCompress_of_busy, execCmdCompress_of_above_cap⟩

/-- Settles O15: the command enabled, BUSY, and with `SRC_LEN` above `SRC_CAP`. -/
theorem decompressCommandStarts : Obligations.DecompressCommandStarts :=
  fun _ =>
    ⟨fun hidle hlen => ⟨_, execCmdDecompress_of_enabled hidle hlen, rfl, rfl, rfl, rfl, rfl, rfl, rfl, Memory.read_nil, rfl,
        rfl, rfl, rfl⟩,
      execCmdDecompress_of_busy, execCmdDecompress_of_above_cap⟩

/-- Settles O16: the step takes the host's move, and the write behind it has no effect. -/
theorem writesWhileBusyIgnored : Obligations.WritesWhileBusyIgnored := by
  refine fun s hbusy => ⟨fun code moves hhost => ?_, fun v moves hhost => ?_⟩
  · rw [step, hhost, ← popHost_of_cons hhost]
    exact exec_commandOf_of_busy code hbusy
  · rw [step, hhost, ← popHost_of_cons hhost]
    exact hostWriteSrcLen_of_busy v hbusy

/-- Settles O17: codes 0 and 3 name no command, and their write is ignored while BUSY and refused otherwise. -/
theorem reservedCodeRefused : Obligations.ReservedCodeRefused :=
  fun code _ hcode => ⟨commandOf_reserved hcode, execCmdReserved_of_busy code, execCmdReserved_of_idle code⟩

end Sys2Proof.Machine

/-! PROOFS. Error entry as the host sees it (60_exceptions.md R246, 43_commands.md R223): the result of the call is the
failure, and `DST` gives the host no byte where the command is not DONE. -/

namespace Sys2Proof.Machine

open Sys2Proof

theorem hostDst_of_not_done {s : State} (h : s.status ≠ .done) (a : Nat) : hostDst s a = none :=
  if_neg fun hvalid => h hvalid.1

theorem callResult_of_error {s : State} (h : s.status = .error) : callResult s = some (.error s.err) := by
  rw [callResult, h]

theorem enterError_not_done (code : FailCode) (s : State) : (enterError code s).status ≠ .done := by
  rw [enterError_status]
  exact nofun

/-- Settles O54: X.FAIL alone is the shared error entry; each of the five codes reads as its number in R23. -/
theorem errorEntryHalts : Obligations.ErrorEntryHalts := by
  refine fun code s => ⟨enterError code s, rfl, rfl, ?hostErr, rfl, callResult_of_error (enterError_status code s),
    hostDst_of_not_done (enterError_not_done code s)⟩
  case hostErr => cases code <;> rfl

end Sys2Proof.Machine

/-! PROOFS. RESET (70_reset_and_hazards.md R271): in every state it answers the reset state of R38 with the parameters and the
model's own two fields carried over, so what R38 gives of the reset state holds of the answer. -/

namespace Sys2Proof.Machine

open Sys2Proof

/-- Settles O55: the answer shares the reset state's registers and byte spaces (R38), and the parameters go on (R20). -/
theorem resetLeavesIdle : Obligations.ResetLeavesIdle := by
  intro s
  obtain ⟨hstatus, herr, hph, hsrcLen, hdstLen, hsrc, hdst, -, -, -⟩ := resetStateIsIdle
  exact ⟨{ State.reset with caps := s.caps, host := s.host, free := s.free }, exec_reset s,
    hstatus, herr, hph, hsrcLen, hdstLen, hsrc, hdst, rfl, rfl⟩

end Sys2Proof.Machine
